-- ==== Sys2Proof/Word.lean ====
section
/-! DEFINITION. The word types of the bus and of the byte registers (R7, R11, R18, R19, R45). A byte string of fixed
length is held as one bit vector in the spec's own byte order, little-endian (R11, R47): byte `j` of the string is bits
`8j+7 .. 8j` of the vector, so that `LE` of R11 is the vector read as a natural number. -/

namespace Sys2Proof

/-- One byte. -/
abbrev Byte := BitVec 8

/-- One 32-bit bus word, and one command word (R45, R65). -/
abbrev Word := BitVec 32

/-- A 16-bit byte offset within the register window (R45). -/
abbrev Offset := BitVec 16

/-- A string of 32 bytes, byte 0 in bits 7..0 (R18, R11). -/
abbrev Bytes32 := BitVec 256

/-- A string of 64 bytes, byte 0 in bits 7..0 (R19, R11). -/
abbrev Bytes64 := BitVec 512

end Sys2Proof
end

