-- ==== Sys2Proof/Syntax.lean ====
section
/-! DEFINITION. The 37 commands of R69, one constructor per row of spec/opcode_table.json. An operand that names a
register is a number 0 to 7 of the file the command's rule gives (R67); the file is part of the opcode (R66, R75). A pair
operand is held as its field holds it, the number of a register that must be even; an immediate as its 12 bits (R68).
Sys2Proof/WellFormed.lean says which terms a word can encode. -/

namespace Sys2Proof

/-- A register number, legal values 0 to 7 (R67). -/
abbrev RegNum := Fin 8

/-- The 12-bit unsigned immediate field (R68). -/
abbrev Imm := BitVec 12

/-- The commands of R69, operands in the order of R73: destination, first source, second source, immediate. -/
inductive Instr where
  /-- `NOP` (R152) -/
  | nop
  /-- `ZEROIZE` (R153) -/
  | zeroize
  /-- `HASHB Ba` (R154) -/
  | hashb (a : RegNum)
  /-- `HASHBM Ba` (R155) -/
  | hashbm (a : RegNum)
  /-- `FADD Fd, Fa, Fb` (R81) -/
  | fadd (d a b : RegNum)
  /-- `FSUB Fd, Fa, Fb` (R82) -/
  | fsub (d a b : RegNum)
  /-- `FMUL Fd, Fa, Fb` (R83) -/
  | fmul (d a b : RegNum)
  /-- `FNEG Fd, Fa` (R84) -/
  | fneg (d a : RegNum)
  /-- `FINV Fd, Fa` (R85) -/
  | finv (d a : RegNum)
  /-- `FSQRTC Fd, Fa` (R86) -/
  | fsqrtc (d a : RegNum)
  /-- `FLD Fd, Ba` (R87) -/
  | fld (d a : RegNum)
  /-- `FST Bd, Fa` (R88) -/
  | fst (d a : RegNum)
  /-- `FLDC Fd, c` (R89), `c` 0 to 3 -/
  | fldc (d : RegNum) (c : Imm)
  /-- `SADD Sd, Sa, Sb` (R96) -/
  | sadd (d a b : RegNum)
  /-- `SSUB Sd, Sa, Sb` (R97) -/
  | ssub (d a b : RegNum)
  /-- `SMUL Sd, Sa, Sb` (R98) -/
  | smul (d a b : RegNum)
  /-- `H2S Sd` (R100) -/
  | h2s (d : RegNum)
  /-- `RNDS Sd` (R101) -/
  | rnds (d : RegNum)
  /-- `SLD Sd, Ba` (R102) -/
  | sld (d a : RegNum)
  /-- `SST Bd, Sa` (R103) -/
  | sst (d a : RegNum)
  /-- `PADD Pd, Pa, Pb` (R113) -/
  | padd (d a b : RegNum)
  /-- `PDBL Pd, Pa` (R114) -/
  | pdbl (d a : RegNum)
  /-- `PSMUL Pd, Sa, Pb` (R120) -/
  | psmul (d a b : RegNum)
  /-- `PSMULG Pd, Sa` (R121) -/
  | psmulg (d a : RegNum)
  /-- `PEQ Pa, Pb` (R122) -/
  | peq (a b : RegNum)
  /-- `PCMP Bd, Pa` (R123) -/
  | pcmp (d a : RegNum)
  /-- `PDEC Pd, Ba` (R124) -/
  | pdec (d a : RegNum)
  /-- `PLDC Pd, c` (R125), `c` 0 to 1 -/
  | pldc (d : RegNum) (c : Imm)
  /-- `KEXPAND Ba` (R129) -/
  | kexpand (a : RegNum)
  /-- `KDERIVE Bd` (R130) -/
  | kderive (d : RegNum)
  /-- `SIGN Bd, Ba` (R131), `d` the even member of a pair -/
  | sign (d a : RegNum)
  /-- `VERIFY Ba, Bb` (R132), `b` the even member of a pair -/
  | verify (a b : RegNum)
  /-- `BCOMMIT Bd` (R141) -/
  | bcommit (d : RegNum)
  /-- `BBLIND Bd, Ba, Bb` (R142) -/
  | bblind (d a b : RegNum)
  /-- `BSIGN Bd, Ba` (R143) -/
  | bsign (d a : RegNum)
  /-- `BUNBLIND Bd, Ba` (R144), `d` the even member of a pair -/
  | bunblind (d a : RegNum)
  /-- `BDISCARD m` (R145), `m` 1 to 3 -/
  | bdiscard (m : Imm)
  deriving DecidableEq, Repr

end Sys2Proof
end

