-- ==== Sys2Proof/WellFormed.lean ====
section
/-! DEFINITION. Which terms of `Instr` stand for a legal command word: pair operands even (R67), immediates in their
legal range (R68). Register numbers above 7 cannot be written as a `RegNum`. -/

namespace Sys2Proof

/-- A pair operand names the even member (R67). -/
def pairOk (n : RegNum) : Bool := n.val % 2 == 0

/-- `FLDC` selects one of four constants (R68). -/
def fldcImmOk (c : Imm) : Bool := c.toNat ≤ 3

/-- `PLDC` selects one of two constants (R68). -/
def pldcImmOk (c : Imm) : Bool := c.toNat ≤ 1

/-- `BDISCARD` takes a mask 1 to 3 (R68). -/
def bdiscardImmOk (m : Imm) : Bool := 1 ≤ m.toNat && m.toNat ≤ 3

/-- The term is a legal command (R67, R68). -/
def Instr.wf : Instr → Bool
  | .fldc _ c => fldcImmOk c
  | .pldc _ c => pldcImmOk c
  | .bdiscard m => bdiscardImmOk m
  | .sign d _ => pairOk d
  | .verify _ b => pairOk b
  | .bunblind d _ => pairOk d
  | .nop => true
  | .zeroize => true
  | .hashb _ => true
  | .hashbm _ => true
  | .fadd _ _ _ => true
  | .fsub _ _ _ => true
  | .fmul _ _ _ => true
  | .fneg _ _ => true
  | .finv _ _ => true
  | .fsqrtc _ _ => true
  | .fld _ _ => true
  | .fst _ _ => true
  | .sadd _ _ _ => true
  | .ssub _ _ _ => true
  | .smul _ _ _ => true
  | .h2s _ => true
  | .rnds _ => true
  | .sld _ _ => true
  | .sst _ _ => true
  | .padd _ _ _ => true
  | .pdbl _ _ => true
  | .psmul _ _ _ => true
  | .psmulg _ _ => true
  | .peq _ _ => true
  | .pcmp _ _ => true
  | .pdec _ _ => true
  | .kexpand _ => true
  | .kderive _ => true
  | .bcommit _ => true
  | .bblind _ _ _ => true
  | .bsign _ _ => true

end Sys2Proof
end

