-- ==== Sys2Proof/Decode.lean ====
section
/-! DEFINITION. The command word (R65 to R70, R76): its five fields, the decoder, total on every word and rejecting by
name with the detail of R70, the encoder of R73's formula, the mnemonics and operand syntax of R73, the pseudo-instructions
of R74, and the host's reading of an opcode-table word. -/

namespace Sys2Proof

/-- Why a word is illegal: the four tests of R70, in their order. -/
inductive Illegal where
  /-- `op` is not one of the 37 values of R69 -/
  | unknownOp
  /-- a field the command's format does not use is not zero -/
  | unusedField
  /-- a used register field holds 8 to 15, or a pair field an odd number -/
  | badRegister
  /-- `imm` is outside the legal range of `FLDC`, `PLDC` or `BDISCARD` -/
  | badImm
  deriving DecidableEq, Repr

/-- The detail `RCINFO` of an illegal word (R70). -/
def Illegal.detail : Illegal → BitVec 8
  | .unknownOp => 1
  | .unusedField => 2
  | .badRegister => 3
  | .badImm => 4

/-- Bits `lo + n - 1 .. lo` of a word as a natural number (R10). -/
def wordField (w : Word) (lo n : Nat) : Nat := w.toNat / 2 ^ lo % 2 ^ n

/-- The five fields of a command word (R65). -/
structure Fields where
  op : Nat
  rd : Nat
  ra : Nat
  rb : Nat
  imm : Nat
  deriving DecidableEq, Repr

/-- `op[31:24] rd[23:20] ra[19:16] rb[15:12] imm[11:0]` (R65). -/
def fieldsOf (w : Word) : Fields :=
  ⟨wordField w 24 8, wordField w 20 4, wordField w 16 4, wordField w 12 4, wordField w 0 12⟩

/-- A used register field: legal values 0 to 7 (R67). -/
def regField (n : Nat) : Except Illegal RegNum :=
  if h : n < 8 then .ok ⟨n, h⟩ else .error .badRegister

/-- A used pair field: legal values 0, 2, 4, 6 (R67). -/
def pairField (n : Nat) : Except Illegal RegNum :=
  if h : n < 8 then (if n % 2 = 0 then .ok ⟨n, h⟩ else .error .badRegister) else .error .badRegister

/-- The second test of R70: every unused field is zero. -/
def unusedZero (fields : List Nat) : Except Illegal Unit :=
  if fields.all (· == 0) then .ok () else .error .unusedField

/-- Format N (R66). -/
def decN (f : Fields) (i : Instr) : Except Illegal Instr := do
  unusedZero [f.rd, f.ra, f.rb, f.imm]
  .ok i

/-- Format R3 (R66). -/
def decR3 (f : Fields) (mk : RegNum → RegNum → RegNum → Instr) : Except Illegal Instr := do
  unusedZero [f.imm]
  let d ← regField f.rd
  let a ← regField f.ra
  let b ← regField f.rb
  .ok (mk d a b)

/-- Format R2 (R66). -/
def decR2 (f : Fields) (mk : RegNum → RegNum → Instr) : Except Illegal Instr := do
  unusedZero [f.rb, f.imm]
  let d ← regField f.rd
  let a ← regField f.ra
  .ok (mk d a)

/-- Format R2 with a pair in `rd` (R66, R67). -/
def decR2p (f : Fields) (mk : RegNum → RegNum → Instr) : Except Illegal Instr := do
  unusedZero [f.rb, f.imm]
  let d ← pairField f.rd
  let a ← regField f.ra
  .ok (mk d a)

/-- Format R1 (R66). -/
def decR1 (f : Fields) (mk : RegNum → Instr) : Except Illegal Instr := do
  unusedZero [f.ra, f.rb, f.imm]
  let d ← regField f.rd
  .ok (mk d)

/-- Format A1 (R66). -/
def decA1 (f : Fields) (mk : RegNum → Instr) : Except Illegal Instr := do
  unusedZero [f.rd, f.rb, f.imm]
  let a ← regField f.ra
  .ok (mk a)

/-- Format A2 (R66). -/
def decA2 (f : Fields) (mk : RegNum → RegNum → Instr) : Except Illegal Instr := do
  unusedZero [f.rd, f.imm]
  let a ← regField f.ra
  let b ← regField f.rb
  .ok (mk a b)

/-- Format A2 with a pair in `rb` (R66, R67). -/
def decA2p (f : Fields) (mk : RegNum → RegNum → Instr) : Except Illegal Instr := do
  unusedZero [f.rd, f.imm]
  let a ← regField f.ra
  let b ← pairField f.rb
  .ok (mk a b)

/-- Format I, legal immediates 0 to `top` (R66, R68). -/
def decI (f : Fields) (top : Nat) (mk : RegNum → Imm → Instr) : Except Illegal Instr := do
  unusedZero [f.ra, f.rb]
  let d ← regField f.rd
  if f.imm ≤ top then .ok (mk d (BitVec.ofNat 12 f.imm)) else .error .badImm

/-- Format C, legal masks 1 to 3 (R66, R68). -/
def decC (f : Fields) (mk : Imm → Instr) : Except Illegal Instr := do
  unusedZero [f.rd, f.ra, f.rb]
  if 1 ≤ f.imm ∧ f.imm ≤ 3 then .ok (mk (BitVec.ofNat 12 f.imm)) else .error .badImm

/-- The command a word encodes, or the first test of R70 that refuses it (R69, R70, R76). -/
def decode (w : Word) : Except Illegal Instr :=
  let f := fieldsOf w
  match f.op with
  | 0x00 => decN f .nop
  | 0x02 => decN f .zeroize
  | 0x03 => decA1 f .hashb
  | 0x04 => decA1 f .hashbm
  | 0x10 => decR3 f .fadd
  | 0x11 => decR3 f .fsub
  | 0x12 => decR3 f .fmul
  | 0x13 => decR2 f .fneg
  | 0x14 => decR2 f .finv
  | 0x15 => decR2 f .fsqrtc
  | 0x16 => decR2 f .fld
  | 0x17 => decR2 f .fst
  | 0x18 => decI f 3 .fldc
  | 0x20 => decR3 f .sadd
  | 0x21 => decR3 f .ssub
  | 0x22 => decR3 f .smul
  | 0x23 => decR1 f .h2s
  | 0x24 => decR1 f .rnds
  | 0x26 => decR2 f .sld
  | 0x27 => decR2 f .sst
  | 0x30 => decR3 f .padd
  | 0x31 => decR2 f .pdbl
  | 0x32 => decR3 f .psmul
  | 0x33 => decR2 f .psmulg
  | 0x34 => decA2 f .peq
  | 0x35 => decR2 f .pcmp
  | 0x36 => decR2 f .pdec
  | 0x38 => decI f 1 .pldc
  | 0x40 => decA1 f .kexpand
  | 0x41 => decR1 f .kderive
  | 0x42 => decR2p f .sign
  | 0x43 => decA2p f .verify
  | 0x50 => decR1 f .bcommit
  | 0x51 => decR3 f .bblind
  | 0x52 => decR2 f .bsign
  | 0x53 => decR2p f .bunblind
  | 0x54 => decC f .bdiscard
  | _ => .error .unknownOp

/-- `op·2^24 + rd·2^20 + ra·2^16 + rb·2^12 + imm` (R73). -/
def word (op rd ra rb imm : Nat) : Word :=
  BitVec.ofNat 32 (op * 2 ^ 24 + rd * 2 ^ 20 + ra * 2 ^ 16 + rb * 2 ^ 12 + imm)

/-- The word of a command, from the opcode map R69 and the formats R66. -/
def encode : Instr → Word
  | .nop => word 0x00 0 0 0 0
  | .zeroize => word 0x02 0 0 0 0
  | .hashb a => word 0x03 0 a.val 0 0
  | .hashbm a => word 0x04 0 a.val 0 0
  | .fadd d a b => word 0x10 d.val a.val b.val 0
  | .fsub d a b => word 0x11 d.val a.val b.val 0
  | .fmul d a b => word 0x12 d.val a.val b.val 0
  | .fneg d a => word 0x13 d.val a.val 0 0
  | .finv d a => word 0x14 d.val a.val 0 0
  | .fsqrtc d a => word 0x15 d.val a.val 0 0
  | .fld d a => word 0x16 d.val a.val 0 0
  | .fst d a => word 0x17 d.val a.val 0 0
  | .fldc d c => word 0x18 d.val 0 0 c.toNat
  | .sadd d a b => word 0x20 d.val a.val b.val 0
  | .ssub d a b => word 0x21 d.val a.val b.val 0
  | .smul d a b => word 0x22 d.val a.val b.val 0
  | .h2s d => word 0x23 d.val 0 0 0
  | .rnds d => word 0x24 d.val 0 0 0
  | .sld d a => word 0x26 d.val a.val 0 0
  | .sst d a => word 0x27 d.val a.val 0 0
  | .padd d a b => word 0x30 d.val a.val b.val 0
  | .pdbl d a => word 0x31 d.val a.val 0 0
  | .psmul d a b => word 0x32 d.val a.val b.val 0
  | .psmulg d a => word 0x33 d.val a.val 0 0
  | .peq a b => word 0x34 0 a.val b.val 0
  | .pcmp d a => word 0x35 d.val a.val 0 0
  | .pdec d a => word 0x36 d.val a.val 0 0
  | .pldc d c => word 0x38 d.val 0 0 c.toNat
  | .kexpand a => word 0x40 0 a.val 0 0
  | .kderive d => word 0x41 d.val 0 0 0
  | .sign d a => word 0x42 d.val a.val 0 0
  | .verify a b => word 0x43 0 a.val b.val 0
  | .bcommit d => word 0x50 d.val 0 0 0
  | .bblind d a b => word 0x51 d.val a.val b.val 0
  | .bsign d a => word 0x52 d.val a.val 0 0
  | .bunblind d a => word 0x53 d.val a.val 0 0
  | .bdiscard m => word 0x54 0 0 0 m.toNat

/-- The six families, the high nibble of `op` (R69). -/
inductive Family where
  | system | field | scalar | point | keySign | blind
  deriving DecidableEq, Repr

/-- The family of a command (R69). -/
def Instr.family : Instr → Family
  | .nop => .system
  | .zeroize => .system
  | .hashb _ => .system
  | .hashbm _ => .system
  | .fadd _ _ _ => .field
  | .fsub _ _ _ => .field
  | .fmul _ _ _ => .field
  | .fneg _ _ => .field
  | .finv _ _ => .field
  | .fsqrtc _ _ => .field
  | .fld _ _ => .field
  | .fst _ _ => .field
  | .fldc _ _ => .field
  | .sadd _ _ _ => .scalar
  | .ssub _ _ _ => .scalar
  | .smul _ _ _ => .scalar
  | .h2s _ => .scalar
  | .rnds _ => .scalar
  | .sld _ _ => .scalar
  | .sst _ _ => .scalar
  | .padd _ _ _ => .point
  | .pdbl _ _ => .point
  | .psmul _ _ _ => .point
  | .psmulg _ _ => .point
  | .peq _ _ => .point
  | .pcmp _ _ => .point
  | .pdec _ _ => .point
  | .pldc _ _ => .point
  | .kexpand _ => .keySign
  | .kderive _ => .keySign
  | .sign _ _ => .keySign
  | .verify _ _ => .keySign
  | .bcommit _ => .blind
  | .bblind _ _ _ => .blind
  | .bsign _ _ => .blind
  | .bunblind _ _ => .blind
  | .bdiscard _ => .blind

/-- The mnemonic of a command, as the opcode map R69 spells it. -/
def Instr.mnemonic : Instr → String
  | .nop => "NOP"
  | .zeroize => "ZEROIZE"
  | .hashb _ => "HASHB"
  | .hashbm _ => "HASHBM"
  | .fadd _ _ _ => "FADD"
  | .fsub _ _ _ => "FSUB"
  | .fmul _ _ _ => "FMUL"
  | .fneg _ _ => "FNEG"
  | .finv _ _ => "FINV"
  | .fsqrtc _ _ => "FSQRTC"
  | .fld _ _ => "FLD"
  | .fst _ _ => "FST"
  | .fldc _ _ => "FLDC"
  | .sadd _ _ _ => "SADD"
  | .ssub _ _ _ => "SSUB"
  | .smul _ _ _ => "SMUL"
  | .h2s _ => "H2S"
  | .rnds _ => "RNDS"
  | .sld _ _ => "SLD"
  | .sst _ _ => "SST"
  | .padd _ _ _ => "PADD"
  | .pdbl _ _ => "PDBL"
  | .psmul _ _ _ => "PSMUL"
  | .psmulg _ _ => "PSMULG"
  | .peq _ _ => "PEQ"
  | .pcmp _ _ => "PCMP"
  | .pdec _ _ => "PDEC"
  | .pldc _ _ => "PLDC"
  | .kexpand _ => "KEXPAND"
  | .kderive _ => "KDERIVE"
  | .sign _ _ => "SIGN"
  | .verify _ _ => "VERIFY"
  | .bcommit _ => "BCOMMIT"
  | .bblind _ _ _ => "BBLIND"
  | .bsign _ _ => "BSIGN"
  | .bunblind _ _ => "BUNBLIND"
  | .bdiscard _ => "BDISCARD"

/-- A register name of R73: the file's letter and the number. -/
def regName (file : String) (n : RegNum) : String := file ++ toString n.val

/-- A line of R73: the mnemonic, then the operands separated by a comma and a space. -/
def asmLine (m : String) : List String → String
  | [] => m
  | x :: rest => rest.foldl (fun t y => t ++ ", " ++ y) (m ++ " " ++ x)

/-- The assembler line of a command (R73). -/
def Instr.asm : Instr → String
  | .nop => asmLine "NOP" []
  | .zeroize => asmLine "ZEROIZE" []
  | .hashb a => asmLine "HASHB" [regName "B" a]
  | .hashbm a => asmLine "HASHBM" [regName "B" a]
  | .fadd d a b => asmLine "FADD" [regName "F" d, regName "F" a, regName "F" b]
  | .fsub d a b => asmLine "FSUB" [regName "F" d, regName "F" a, regName "F" b]
  | .fmul d a b => asmLine "FMUL" [regName "F" d, regName "F" a, regName "F" b]
  | .fneg d a => asmLine "FNEG" [regName "F" d, regName "F" a]
  | .finv d a => asmLine "FINV" [regName "F" d, regName "F" a]
  | .fsqrtc d a => asmLine "FSQRTC" [regName "F" d, regName "F" a]
  | .fld d a => asmLine "FLD" [regName "F" d, regName "B" a]
  | .fst d a => asmLine "FST" [regName "B" d, regName "F" a]
  | .fldc d c => asmLine "FLDC" [regName "F" d, toString c.toNat]
  | .sadd d a b => asmLine "SADD" [regName "S" d, regName "S" a, regName "S" b]
  | .ssub d a b => asmLine "SSUB" [regName "S" d, regName "S" a, regName "S" b]
  | .smul d a b => asmLine "SMUL" [regName "S" d, regName "S" a, regName "S" b]
  | .h2s d => asmLine "H2S" [regName "S" d]
  | .rnds d => asmLine "RNDS" [regName "S" d]
  | .sld d a => asmLine "SLD" [regName "S" d, regName "B" a]
  | .sst d a => asmLine "SST" [regName "B" d, regName "S" a]
  | .padd d a b => asmLine "PADD" [regName "P" d, regName "P" a, regName "P" b]
  | .pdbl d a => asmLine "PDBL" [regName "P" d, regName "P" a]
  | .psmul d a b => asmLine "PSMUL" [regName "P" d, regName "S" a, regName "P" b]
  | .psmulg d a => asmLine "PSMULG" [regName "P" d, regName "S" a]
  | .peq a b => asmLine "PEQ" [regName "P" a, regName "P" b]
  | .pcmp d a => asmLine "PCMP" [regName "B" d, regName "P" a]
  | .pdec d a => asmLine "PDEC" [regName "P" d, regName "B" a]
  | .pldc d c => asmLine "PLDC" [regName "P" d, toString c.toNat]
  | .kexpand a => asmLine "KEXPAND" [regName "B" a]
  | .kderive d => asmLine "KDERIVE" [regName "B" d]
  | .sign d a => asmLine "SIGN" [regName "B" d, regName "B" a]
  | .verify a b => asmLine "VERIFY" [regName "B" a, regName "B" b]
  | .bcommit d => asmLine "BCOMMIT" [regName "B" d]
  | .bblind d a b => asmLine "BBLIND" [regName "B" d, regName "B" a, regName "B" b]
  | .bsign d a => asmLine "BSIGN" [regName "B" d, regName "B" a]
  | .bunblind d a => asmLine "BUNBLIND" [regName "B" d, regName "B" a]
  | .bdiscard m => asmLine "BDISCARD" [toString m.toNat]

/-- The eight pseudo-instructions of R74. -/
inductive Pseudo where
  | fsqr (d a : RegNum)
  | fzero (d : RegNum)
  | fone (d : RegNum)
  | fmov (d a : RegNum)
  | pneut (d : RegNum)
  | pbase (d : RegNum)
  | keygen (d a : RegNum)
  | babandon
  deriving DecidableEq, Repr

/-- The commands a pseudo-instruction stands for (R74). -/
def Pseudo.expand : Pseudo → List Instr
  | .fsqr d a => [.fmul d a a]
  | .fzero d => [.fldc d 0]
  | .fone d => [.fldc d 1]
  | .fmov d a => [.fst 7 a, .fld d 7]
  | .pneut d => [.pldc d 0]
  | .pbase d => [.pldc d 1]
  | .keygen d a => [.kexpand a, .kderive d]
  | .babandon => [.bdiscard 3]

/-- What the decoder reads from an opcode-table word of `nbits` bits, bit 0 the least significant bit of the one 32-bit
word a command has (R65); every bit above `nbits` is 0. -/
def decodeTableWord (nbits w : Nat) : Option Instr :=
  if nbits ≤ 32 ∧ w < 2 ^ 32 then
    match decode (BitVec.ofNat 32 w) with
    | .ok i => some i
    | .error _ => none
  else none

end Sys2Proof
end

