-- ==== Sys2Proof/Config.lean ====
section
/-! DEFINITION. What is fixed for the machine: the moduli (R6), the parameters of the model (R8, R9, R42) as constants with
no body, so that every claim holds for all their admissible values, their defaults by name, the identification word (R9)
and `SQRT_M1` (R20). -/

namespace Sys2Proof

/-- The base-field prime `p = 2^255 - 19` (R6). -/
def Config.p : Nat := 0x7fffffffffffffffffffffffffffffffffffffffffffffffffffffffffffffed

/-- The group order `q = 2^252 + 27742317777372353535851937790883648493` (R6). -/
def Config.q : Nat := 0x1000000000000000000000000000000014def9dea2f79cd65812631a5cf5d3ed

theorem Config.p_pos : 0 < Config.p := by decide

theorem Config.q_pos : 0 < Config.q := by decide

/-- A FieldElement: a natural below `p` (R13, R90). -/
abbrev Fp := Fin Config.p

/-- A Scalar: a natural below `q` (R14, R104). -/
abbrev Fq := Fin Config.q

/-- The parameters of R8 that fix the curve and its base point: `D_CONST` and the affine coordinates of `G_BASE`. -/
structure Curve where
  /-- `D_CONST`, the curve constant `d` -/
  d : Fp
  /-- the `x` of `G_BASE` -/
  gX : Fp
  /-- the `y` of `G_BASE` -/
  gY : Fp
  deriving DecidableEq, Repr

/-- The defaults of R8 by name, the standard Ed25519 values, which the spec takes from general knowledge (G1, G2, G9). -/
def Curve.standard : Curve where
  d := ⟨0x52036cee2b6ffe738cc740797779e89800700a4d4141d8ab75eb4dca135978a3, by decide⟩
  gX := ⟨0x216936d3cd6e53fec0a4e231fdd6dc5c692cc7609525a7b2c9562d608f25d51a, by decide⟩
  gY := ⟨0x6666666666666666666666666666666666666666666666666666666666666658, by decide⟩

/-- The values given for `D_CONST` and `G_BASE`, if any. A constant with no body: nothing can be proved of it, so a claim
holds for every choice. `Config.curve` (Machine/Curve.lean) is this choice where R8 admits it. Log entries 4 and 5, safe. -/
opaque Config.curveChoice : Option Curve

/-- `SQRT_M1 = 2^((p-1)/4) mod p`, the value R20 gives for it. -/
def Config.sqrtM1 : Fp :=
  ⟨0x2b8324804fc1df0b2b4d00993dfbd7a72f431806ad2fe478c4ee1b274a0ea0b0, by decide⟩

/-- The value given for `MSG_MAX`, in words of 4 bytes and less one. A constant with no body. Log entry 6, safe. -/
opaque Config.msgChoice : Nat

/-- `MSG_MAX`, the size of the message buffer in bytes: an open parameter, any multiple of 4 from 4 to 61440 (R9). -/
def Config.msgMax : Nat := 4 * (Config.msgChoice % 15360 + 1)

/-- The constraint of R9 on `MSG_MAX`. -/
theorem Config.msgMax_range : 4 ≤ Config.msgMax ∧ Config.msgMax ≤ 61440 ∧ Config.msgMax % 4 = 0 := by
  unfold Config.msgMax; omega

/-- The default of R9 for `MSG_MAX` by name. -/
def Config.msgMaxDefault : Nat := 4096

/-- `CORE_ID`, the value of the ID register (R2, R9, R30). -/
def Config.coreId : Word := 0x42534501#32

/-- `H`, the 512-bit hash reached through the hash port: a total function from byte strings to 64 bytes, the same in
every command (R8, R174). It has no body, so no proof can know anything of it but that it is a function (N4); a claim
about it holds for every `H`. Log entry 10, safe. -/
opaque Config.hash : List Byte → Bytes64

end Sys2Proof
end

