-- ==== Sys2Proof/Machine/Arith.lean ====
section
/-! DEFINITION. The arithmetic of field elements (R90, R81 to R86) and scalars (R104, R96 to R99), every result the least
non-negative residue of the exact one (R10). -/

namespace Sys2Proof.Machine

/-- `n mod p` (R10). -/
def fpOf (n : Nat) : Fp := ⟨n % Config.p, Nat.mod_lt _ Config.p_pos⟩

/-- `(a + b) mod p` (R81). -/
def fpAdd (a b : Fp) : Fp := fpOf (a.val + b.val)

/-- `(a - b) mod p`, the least non-negative residue (R82). -/
def fpSub (a b : Fp) : Fp := fpOf (a.val + (Config.p - b.val))

/-- `(a · b) mod p` (R83). -/
def fpMul (a b : Fp) : Fp := fpOf (a.val * b.val)

/-- `(p - a) mod p` (R84). -/
def fpNeg (a : Fp) : Fp := fpOf (Config.p - a.val)

/-- Square and multiply over the low `fuel` bits of `e`: `acc · b^e mod p` when `e < 2^fuel`. -/
def fpPowLoop : (fuel : Nat) → (b : Fp) → (e : Nat) → (acc : Fp) → Fp
  | 0, _, _, acc => acc
  | fuel + 1, b, e, acc =>
    fpPowLoop fuel (fpMul b b) (e / 2) (if e % 2 = 1 then fpMul acc b else acc)

/-- `a^e mod p`, for an exponent of at most 256 bits (the exponents of R20 have fewer). -/
def fpPow (a : Fp) (e : Nat) : Fp := fpPowLoop 256 a e (fpOf 1)

/-- `t^(p-2) mod p`, the Fermat inverse (R85). -/
def fpInv (t : Fp) : Fp := fpPow t (Config.p - 2)

/-- `t^((p+3)/8) mod p`, the first square-root candidate (R86). -/
def fpSqrtCandidate (t : Fp) : Fp := fpPow t ((Config.p + 3) / 8)

/-- `n mod q` (R10). -/
def fqOf (n : Nat) : Fq := ⟨n % Config.q, Nat.mod_lt _ Config.q_pos⟩

/-- `(a + b) mod q` (R96). -/
def fqAdd (a b : Fq) : Fq := fqOf (a.val + b.val)

/-- `(a - b) mod q`, the least non-negative residue (R97). -/
def fqSub (a b : Fq) : Fq := fqOf (a.val + (Config.q - b.val))

/-- `(a · b) mod q` (R98). -/
def fqMul (a b : Fq) : Fq := fqOf (a.val * b.val)

/-- `h2s(D) = LE(D) mod q` (R99). -/
def h2s (d : Bytes64) : Fq := fqOf d.toNat

end Sys2Proof.Machine
end

