-- ==== Sys2Proof/Machine/State.lean ====
section
/-! DEFINITION. The state of the machine: every register of spec/10_state.md, the message buffer, the command in flight,
and what the model holds of the world outside (the host's next accesses, the entropy port's answers, the answer to the last
bus transfer). State is plain data; `State.reset` is R40. -/

namespace Sys2Proof.Machine

/-- A draw of the entropy port, a natural in `[1, q-1]` (R175). -/
structure Draw where
  val : Nat
  pos : 1 ≤ val
  lt : val < Config.q
  deriving DecidableEq, Repr

/-- A point in extended coordinates (R15, R110). The class of the quadruple is what a point register holds
architecturally (R16); which quadruple of the class stands here follows the reference formulas of R111, R112 and R119
(log entry 1). -/
structure Point where
  X : Fp
  Y : Fp
  Z : Fp
  T : Fp
  deriving DecidableEq, Repr

/-- A typed register with its valid bit (R17): `invalid` is valid bit 0. The contents of an invalid register are
unspecified and unobservable (R17, R40), so there are none here (log entry 2). -/
inductive Reg (α : Type) where
  | invalid
  | holds (v : α)
  deriving DecidableEq, Repr

/-- The valid bit (R17). -/
def Reg.valid {α : Type} : Reg α → Bool
  | .invalid => false
  | .holds _ => true

/-- `KX` and `KPFX`, written together and sharing the valid bit `KXV` (R25). -/
structure KeyPair where
  /-- the clamped secret integer, a 256-bit natural, not reduced modulo `q` (R25, R128, D23) -/
  kx : BitVec 256
  /-- the nonce prefix, 32 bytes -/
  kpfx : Bytes32
  deriving DecidableEq, Repr

/-- The issuer context of R26: the constructor is `ISTATE`, and a state carries the registers R26 calls valid in it. -/
inductive IssuerSession where
  /-- `I_IDLE` (0): `IK`, `IR` invalid -/
  | idle
  /-- `I_COMMIT` (1): `IK`, `IR` valid -/
  | commit (ik : Draw) (ir : Point)
  /-- `I_SIGNED` (2): `IR` valid, `IK` consumed -/
  | signed (ir : Point)
  deriving DecidableEq, Repr

/-- The user context of R27: the constructor is `USTATE`, and a state carries the registers R27 calls valid in it. -/
inductive UserSession where
  /-- `U_IDLE` (0): `UA`, `URP` invalid -/
  | idle
  /-- `U_BLINDED` (1): `UA`, `URP` valid -/
  | blinded (ua : Draw) (urp : Point)
  /-- `U_DONE` (2): `URP` valid, `UA` consumed -/
  | done (urp : Point)
  deriving DecidableEq, Repr

/-- The size of a bus access the host may attempt (R49). -/
inductive Width where
  | byte | half | word | burst
  deriving DecidableEq, Repr

/-- One answer of the entropy port to a request `draw()` (R175). That the port has not answered yet is the empty queue
`State.entropy`. -/
inductive PortAnswer where
  | value (v : Draw)
  | fail
  deriving DecidableEq, Repr

/-- One thing that happens next at the core's interface (R63, R159), or the core's own move. -/
inductive Event where
  /-- the core moves: it runs the command in flight, if there is one -/
  | coreRuns
  /-- the host reads at an offset of the window (R45) -/
  | read (w : Width) (off : Offset)
  /-- the host writes at an offset of the window (R45) -/
  | write (w : Width) (off : Offset) (data : Word)
  /-- the entropy port gives an answer (R175) -/
  | portAnswers (a : PortAnswer)
  /-- the reset input is asserted (R181) -/
  | reset
  deriving DecidableEq, Repr

/-- The bus port's answer to the last transfer (R45, R48). An `ERROR` carries no data word: the one a refused read returns
is unspecified and must not be used (R49, log entry 12). -/
inductive BusAnswer where
  /-- no transfer has been answered yet -/
  | none
  /-- `OKAY` to a write -/
  | okay
  /-- `OKAY` to a read, with its data word -/
  | okayData (d : Word)
  /-- `ERROR` -/
  | error
  deriving DecidableEq, Repr

/-- The machine's state. Names in capitals are the spec's. -/
structure State where
  /-- `F0..F7` with their valid bits (R13, R17) -/
  fregs : Vector (Reg Fp) 8
  /-- `S0..S7` with their valid bits (R14, R17) -/
  sregs : Vector (Reg Fq) 8
  /-- `P0..P7` with their valid bits (R15, R17) -/
  pregs : Vector (Reg Point) 8
  /-- `B0..B7` (R18) -/
  bregs : Vector Bytes32 8
  /-- `HD` (R19) -/
  hd : Bytes64
  /-- `MSG` (R38): the bytes of the message buffer that are not 0, keyed by window offset, offsets strictly rising -/
  msg : List Host.Cell
  /-- `KX`, `KPFX`, `KXV` (R25) -/
  key : Reg KeyPair
  /-- `KP`, `KPV` (R25) -/
  kp : Reg Point
  /-- `ISTATE`, `IK`, `IR` (R26) -/
  issuer : IssuerSession
  /-- `USTATE`, `UA`, `URP` (R27) -/
  user : UserSession
  /-- `STATUS.EQ` (R23) -/
  eqFlag : Bool
  /-- `STATUS.VALID` (R23) -/
  validFlag : Bool
  /-- the command word in flight; `STATUS.BUSY` is 1 exactly when there is one (R24, R31) -/
  inflight : Option Word
  /-- the draw `a` a `BBLIND` that still waits for `b` has been given: a temporary of that command (R39, R142, R188) -/
  blindA : Option Draw
  /-- `RC.CODE` (R33) -/
  rcCode : BitVec 8
  /-- `RC.RCINFO` (R33) -/
  rcInfo : BitVec 8
  /-- `ERRS` (R34) -/
  errs : Word
  /-- `MLEN` (R35) -/
  mlen : Word
  /-- `ARGLEN.KLEN` (R36) -/
  klen : BitVec 8
  /-- `ARGLEN.SLEN` (R36) -/
  slen : BitVec 8
  /-- the entropy port's answers not yet consumed, oldest first (R175); the model's own field -/
  entropy : List PortAnswer
  /-- what happens next at the interface, oldest first; the model's own field (log entry 7) -/
  events : List Event
  /-- the answer to the last bus transfer; the model's own field -/
  answer : BusAnswer
  deriving DecidableEq, Repr

/-- Why the machine could stop with a fault. There is none: every exceptional event of the core is a command error
reported in `RC`, a bus answer or a wait (R159), and each of them is a next state. -/
inductive Fault : Type
  deriving DecidableEq, Repr

/-- Why the model could give an instruction no meaning. -/
inductive Refusal where
  /-- raised by an arm of `exec` that has no meaning yet, with the row's mnemonic; safe (nothing can be proved of a run
  that stops). No arm raises it: every command of R69 has its meaning. -/
  | notModelled (mnemonic : String)
  deriving DecidableEq, Repr

/-- The machine right after reset (R40, R182). The last three fields are the model's own: the port has given no answer,
nothing is about to happen, no transfer has been answered (DESIGN CHOICE, log entries 7 and 8). -/
def State.reset : State where
  fregs := Vector.replicate 8 .invalid
  sregs := Vector.replicate 8 .invalid
  pregs := Vector.replicate 8 .invalid
  bregs := Vector.replicate 8 0
  hd := 0
  msg := []
  key := .invalid
  kp := .invalid
  issuer := .idle
  user := .idle
  eqFlag := false
  validFlag := false
  inflight := none
  blindA := none
  rcCode := 0
  rcInfo := 0
  errs := 0
  mlen := 0
  klen := 32
  slen := 64
  entropy := []
  events := []
  answer := .none

end Sys2Proof.Machine
end

