-- ==== Sys2Proof/Machine/Ops.lean ====
section
/-! DEFINITION. The named operations over byte strings, the message buffer and the registers (R11, R12, R38, R47), the
command errors with their codes (R160), and the two ends of a command (R161, R162): `complete`, and `abort`, the one
operation by which a command error is taken. There is no return from an error (R176). -/

namespace Sys2Proof.Machine

/-! ### Byte strings (R11, R47) -/

/-- `LE(b)` of a 32-byte string (R11). -/
def le (b : Bytes32) : Nat := b.toNat

/-- `ENC32(v)`, for `v < 2^256` (R11). -/
def enc32 (v : Nat) : Bytes32 := BitVec.ofNat 256 v

/-- Byte `j` of a byte string (R11). -/
def byteOf {n : Nat} (b : BitVec n) (j : Nat) : Byte := b.extractLsb' (8 * j) 8

/-- The 32 bytes of a string, byte 0 first, as the hash port receives them (R10, R174). -/
def bytes32 (b : Bytes32) : List Byte := (List.range 32).map (byteOf b)

/-- Bus word `k` of a byte string: the byte at offset `4k` in data bits 7..0, and so on (R47). -/
def getWord {n : Nat} (b : BitVec n) (k : Nat) : Word := b.extractLsb' (32 * k) 32

/-- The string with its bus word `k` replaced (R47). -/
def setWord {n : Nat} (b : BitVec n) (k : Nat) (w : Word) : BitVec n :=
  (b &&& ~~~(BitVec.ofNat n (2 ^ 32 - 1) <<< (32 * k))) ||| (w.setWidth n <<< (32 * k))

/-! ### The message buffer (R38) -/

/-- What a byte of the buffer that is not listed reads as: its reset value (R38, R40). -/
def unlisted : Byte := 0

/-- The byte at a window offset. -/
def memRead : List Host.Cell → Nat → Byte
  | [], _ => unlisted
  | (x, b) :: rest, a => if x = a then b else memRead rest a

/-- The buffer with the byte at a window offset replaced, in canonical form: writing what an unlisted byte reads as
removes the entry. -/
def memWrite : List Host.Cell → Nat → Byte → List Host.Cell
  | [], a, v => if v = unlisted then [] else [(a, v)]
  | (x, b) :: rest, a, v =>
    if a < x then (if v = unlisted then (x, b) :: rest else (a, v) :: (x, b) :: rest)
    else if a = x then (if v = unlisted then rest else (a, v) :: rest)
    else (x, b) :: memWrite rest a v

/-- The canonical form: offsets strictly rising, each at least `lo`, no listed byte equal to what an unlisted one reads
as. -/
def Memory.wfFrom : Nat → List Host.Cell → Bool
  | _, [] => true
  | lo, (x, b) :: rest => lo ≤ x && b != unlisted && Memory.wfFrom (x + 1) rest

/-- The canonical form of the message buffer. -/
def Memory.wf (m : List Host.Cell) : Bool := Memory.wfFrom 0 m

/-- The window offset of byte 0 of `MSG` (R38, R46). -/
def msgBase : Nat := 0x1000

/-- `MemRead(MSG, 0, n)`: the first `n` bytes of the message buffer (R12, R58). -/
def msgBytes (m : List Host.Cell) (n : Nat) : List Byte :=
  (List.range n).map fun i => memRead m (msgBase + i)

/-- The bus word at a window offset of the buffer (R47). -/
def memReadWord (m : List Host.Cell) (a : Nat) : Word :=
  memRead m (a + 3) ++ memRead m (a + 2) ++ memRead m (a + 1) ++ memRead m a

/-- The buffer with the bus word at a window offset replaced (R47). -/
def memWriteWord (m : List Host.Cell) (a : Nat) (w : Word) : List Host.Cell :=
  memWrite (memWrite (memWrite (memWrite m a (byteOf w 0)) (a + 1) (byteOf w 1)) (a + 2) (byteOf w 2))
    (a + 3) (byteOf w 3)

/-! ### Register writes (R12): each sets the destination's valid bit -/

/-- `F[i] <- v` (R12). -/
def State.setF (s : State) (i : RegNum) (v : Fp) : State :=
  { s with fregs := s.fregs.set i.val (.holds v) i.isLt }

/-- `S[i] <- v` (R12). -/
def State.setS (s : State) (i : RegNum) (v : Fq) : State :=
  { s with sregs := s.sregs.set i.val (.holds v) i.isLt }

/-- `P[i] <- Q` (R12). -/
def State.setP (s : State) (i : RegNum) (Q : Point) : State :=
  { s with pregs := s.pregs.set i.val (.holds Q) i.isLt }

/-- `B[i] <- b` (R12, R18). -/
def State.setB (s : State) (i : RegNum) (b : Bytes32) : State :=
  { s with bregs := s.bregs.set i.val b i.isLt }

/-- The odd member of the pair an even register number names (R18, R67). -/
def pairHigh (n : RegNum) : RegNum := ⟨(n.val + 1) % 8, Nat.mod_lt _ (by decide)⟩

/-- A pair destination: bytes 0 to 31 in the even member, bytes 32 to 63 in the odd one (R18). -/
def State.setPair (s : State) (n : RegNum) (lo hi : Bytes32) : State :=
  (s.setB n lo).setB (pairHigh n) hi

/-- `HD <- d` (R19). -/
def State.setHd (s : State) (d : Bytes64) : State := { s with hd := d }

/-- `KX <- x; KPFX <- prefix; KXV <- 1; KPV <- 0` (R129, R131). -/
def State.setKey (s : State) (k : KeyPair) : State := { s with key := .holds k, kp := .invalid }

/-- `KP <- Q; KPV <- 1` (R130). -/
def State.setKp (s : State) (Q : Point) : State := { s with kp := .holds Q }

/-- The issuer context's next state (R140). -/
def State.setIssuer (s : State) (c : IssuerSession) : State := { s with issuer := c }

/-- The user context's next state (R140). -/
def State.setUser (s : State) (c : UserSession) : State := { s with user := c }

/-! ### Command errors (R160) -/

/-- The operand a length error names (R160, code 1). -/
inductive LengthOperand where
  | seed | key | signature
  deriving DecidableEq, Repr

/-- The operand a point error names: the one of `PDEC`, or the `ra` or `rb` operand of `BBLIND` (R160, code 2). -/
inductive PointOperand where
  | sole | ra | rb
  deriving DecidableEq, Repr

/-- The register file or context an uninitialised source belongs to (R160, code 6). -/
inductive Source where
  | fRegister | sRegister | pRegister | keyContext
  deriving DecidableEq, Repr

/-- The session context in the wrong state (R160, code 7). -/
inductive Context where
  | issuer | user
  deriving DecidableEq, Repr

/-- The command errors of R160. -/
inductive CmdError where
  | invalidLength (o : LengthOperand)
  | invalidPoint (o : PointOperand)
  | invalidScalarSource
  | invertZero
  | illegalCommand (r : Illegal)
  | uninitRegister (o : Source)
  | sessionState (c : Context)
  | msgLength
  deriving DecidableEq, Repr

/-- The code of an error as a number, 1 to 8 (R160). -/
def CmdError.number : CmdError → Nat
  | .invalidLength _ => 1
  | .invalidPoint _ => 2
  | .invalidScalarSource => 3
  | .invertZero => 4
  | .illegalCommand _ => 5
  | .uninitRegister _ => 6
  | .sessionState _ => 7
  | .msgLength => 8

/-- `RC.CODE` of an error (R160). -/
def CmdError.code (e : CmdError) : BitVec 8 := BitVec.ofNat 8 e.number

/-- `RC.RCINFO` of an error (R160). -/
def CmdError.info : CmdError → BitVec 8
  | .invalidLength .seed => 1
  | .invalidLength .key => 2
  | .invalidLength .signature => 3
  | .invalidPoint .sole => 0
  | .invalidPoint .ra => 1
  | .invalidPoint .rb => 2
  | .invalidScalarSource => 0
  | .invertZero => 0
  | .illegalCommand r => r.detail
  | .uninitRegister .fRegister => 1
  | .uninitRegister .sRegister => 2
  | .uninitRegister .pRegister => 3
  | .uninitRegister .keyContext => 4
  | .sessionState .issuer => 1
  | .sessionState .user => 2
  | .msgLength => 0

/-- The bit of `ERRS` an error sets: bit `n` for code `n` (R34, R162). -/
def CmdError.errsBit (e : CmdError) : Word := 1#32 <<< e.number

/-! ### The two ends of a command (R161, R162) -/

/-- A command completes without error: its last act writes `RC = 0` and clears `BUSY` (R162). A waiting `BBLIND`'s draw
is a temporary and ends with its command (R39). -/
def complete (s : State) : State :=
  { s with inflight := none, blindA := none, rcCode := 0, rcInfo := 0 }

/-- A command aborts with an error: `RC`, `RCINFO` and the error's bit of `ERRS` are written, `BUSY` is cleared, and
nothing else changes (R161, R162). -/
def abort (e : CmdError) (s : State) : State :=
  { s with inflight := none, blindA := none, rcCode := e.code, rcInfo := e.info, errs := s.errs ||| e.errsBit }

/-- The end of a command whose checks and writes are given: all checks come before any write, so an error is taken on the
old state (R161, R165). -/
def finish (s : State) (r : Except CmdError State) : Host.Outcome State Fault Refusal :=
  match r with
  | .ok t => .next (complete t)
  | .error e => .next (abort e s)

/-- Every piece of state of R40 at its reset value, the environment's part (what happens next, the port's answers, the
bus port's last answer) as it stands (R181; log entry 15). -/
def resetAll (s : State) : State :=
  { State.reset with entropy := s.entropy, events := s.events, answer := s.answer }

end Sys2Proof.Machine
end

