-- ==== Sys2Proof/Machine/Flags.lean ====
section
/-! DEFINITION. The result flags (R23) and the control and status registers as the host reads and writes them (R29 to
R36). There are no carry, zero, overflow or sign flags (R23). -/

namespace Sys2Proof.Machine

/-- `EQ <- v` (R23, R122). -/
def State.setEq (s : State) (v : Bool) : State := { s with eqFlag := v }

/-- `VALID <- v` (R23, R132). -/
def State.setValid (s : State) (v : Bool) : State := { s with validFlag := v }

/-- `BUSY` (R24). -/
def State.busy (s : State) : Bool := s.inflight.isSome

/-- The value of `ISTATE` (R26). -/
def IssuerSession.number : IssuerSession → Nat
  | .idle => 0
  | .commit _ _ => 1
  | .signed _ => 2

/-- The value of `USTATE` (R27). -/
def UserSession.number : UserSession → Nat
  | .idle => 0
  | .blinded _ _ => 1
  | .done _ => 2

/-- The word `STATUS` (R32): BUSY in bit 0, EQ in 1, VALID in 2, ISTATE in 5:4, USTATE in 7:6, KXV in 8, KPV in 9, the
rest 0. -/
def statusWord (s : State) : Word :=
  BitVec.ofNat 32 (s.busy.toNat + 2 * s.eqFlag.toNat + 4 * s.validFlag.toNat + 16 * s.issuer.number
    + 64 * s.user.number + 256 * s.key.valid.toNat + 512 * s.kp.valid.toNat)

/-- The word `RC` (R33): CODE in bits 7:0, RCINFO in 15:8, the rest 0. -/
def rcWord (s : State) : Word := 0#16 ++ s.rcInfo ++ s.rcCode

/-- The live bits of `ERRS`: 1 to 8 and 16 (R34). -/
def errsLive : Word := 0x000101fe#32

/-- `BUSVIOL`, bit 16 of `ERRS` (R34). -/
def errsBusviol : Word := 0x00010000#32

/-- The word `ERRS`: reserved bits read 0 (R34). -/
def errsWord (s : State) : Word := s.errs &&& errsLive

/-- A host write to `ERRS`: bits written 1 are cleared, bits written 0 are unchanged (R34). -/
def State.clearErrs (s : State) (w : Word) : State := { s with errs := s.errs &&& ~~~w }

/-- The word `ARGLEN` (R36): KLEN in bits 7:0, SLEN in 15:8, the rest 0. -/
def arglenWord (s : State) : Word := 0#16 ++ s.slen ++ s.klen

/-- A host write to `ARGLEN`: bits 31:16 are ignored (R36). -/
def State.setArglen (s : State) (w : Word) : State :=
  { s with klen := w.extractLsb' 0 8, slen := w.extractLsb' 8 8 }

/-- A host write to `MLEN`: any value is stored (R35). -/
def State.setMlen (s : State) (w : Word) : State := { s with mlen := w }

end Sys2Proof.Machine
end

