-- ==== Sys2Proof/Machine/Curve.lean ====
section
/-! DEFINITION. The curve, its group law on affine points (R108, R109), the reference formulas on quadruples (R111, R112,
R119) and the functions on points (R115 to R118). Each takes the parameters of R8 it rests on as the argument `C`; the
commands apply them to `Config.curve`, the parameters of this machine. -/

namespace Sys2Proof.Machine

/-- An affine point `(x, y)`. -/
abbrev Affine := Fp × Fp

/-- The square of a field element. -/
def fpSq (a : Fp) : Fp := fpMul a a

/-- `-x² + y² = 1 + d·x²·y² (mod p)` (R108). -/
abbrev onCurve (C : Curve) (P : Affine) : Prop :=
  fpSub (fpSq P.2) (fpSq P.1) = fpAdd (fpOf 1) (fpMul C.d (fpMul (fpSq P.1) (fpSq P.2)))

/-- The neutral element `O = (0, 1)` (R108). -/
def affineNeutral : Affine := (fpOf 0, fpOf 1)

/-- The group law (R109). -/
def affineAdd (C : Curve) (P Q : Affine) : Affine :=
  let k := fpMul C.d (fpMul (fpMul P.1 Q.1) (fpMul P.2 Q.2))
  (fpMul (fpAdd (fpMul P.1 Q.2) (fpMul Q.1 P.2)) (fpInv (fpAdd (fpOf 1) k)),
   fpMul (fpAdd (fpMul P.2 Q.2) (fpMul P.1 Q.1)) (fpInv (fpSub (fpOf 1) k)))

/-- `[n]P`: `P` added to itself `n` times, `[0]P = O` (R12, R109). -/
def affineTimes (C : Curve) : Nat → Affine → Affine
  | 0, _ => affineNeutral
  | n + 1, P => affineAdd C (affineTimes C n P) P

/-- `-P = (p - x mod p, y)` (R109). -/
def affineNeg (P : Affine) : Affine := (fpNeg P.1, P.2)

/-- The class of a quadruple, the affine point `(X·Z⁻¹, Y·Z⁻¹)` (R15, R110). -/
def Point.affine (Q : Point) : Affine := (fpMul Q.X (fpInv Q.Z), fpMul Q.Y (fpInv Q.Z))

/-- The invariant of a valid point register (R15, R110). -/
abbrev Point.live (Q : Point) (C : Curve) : Prop :=
  Q.Z ≠ fpOf 0 ∧ fpMul Q.X Q.Y = fpMul Q.T Q.Z ∧ onCurve C Q.affine

/-- The neutral element `(0,1,1,0)` (R110). -/
def pointNeutral : Point := ⟨fpOf 0, fpOf 1, fpOf 1, fpOf 0⟩

/-- `G_BASE` as the quadruple `(x, y, 1, x·y)` (R8). -/
def pointBase (C : Curve) : Point := ⟨C.gX, C.gY, fpOf 1, fpMul C.gX C.gY⟩

/-- Reference addition in extended coordinates (R111). -/
def pointAdd (C : Curve) (P Q : Point) : Point :=
  let a := fpMul (fpSub P.Y P.X) (fpSub Q.Y Q.X)
  let b := fpMul (fpAdd P.Y P.X) (fpAdd Q.Y Q.X)
  let c := fpMul (fpMul P.T (fpMul (fpOf 2) C.d)) Q.T
  let d := fpMul (fpMul P.Z (fpOf 2)) Q.Z
  let e := fpSub b a
  let f := fpSub d c
  let g := fpAdd d c
  let h := fpAdd b a
  ⟨fpMul e f, fpMul g h, fpMul f g, fpMul e h⟩

/-- Reference doubling (R112). -/
def pointDouble (P : Point) : Point :=
  let a := fpSq P.X
  let b := fpSq P.Y
  let c := fpMul (fpOf 2) (fpSq P.Z)
  let h := fpAdd a b
  let e := fpSub h (fpSq (fpAdd P.X P.Y))
  let g := fpSub a b
  let f := fpAdd c g
  ⟨fpMul e f, fpMul g h, fpMul f g, fpMul e h⟩

/-- `equal(Q1, Q2)`, by cross-products (R115). -/
def pointEqual (P Q : Point) : Bool :=
  fpMul P.X Q.Z == fpMul Q.X P.Z && fpMul P.Y Q.Z == fpMul Q.Y P.Z

/-- The loop of R119 over the low `fuel` bits of `n`: it stops when no bit of `n` is left. -/
def pointMulLoop (C : Curve) : (fuel n : Nat) → (acc r : Point) → Point
  | 0, _, acc, _ => acc
  | fuel + 1, n, acc, r =>
    if n = 0 then acc
    else pointMulLoop C fuel (n / 2) (if n % 2 = 1 then pointAdd C acc r else acc) (pointDouble r)

/-- `scalarMultiply(n, Q)` for `n < 2^256` (R119). -/
def pointMul (C : Curve) (n : Nat) (Q : Point) : Point := pointMulLoop C 256 n pointNeutral Q

/-- The 32 bytes of an affine point: `ENC32(y + 2^255·(x mod 2))` (R116, R61). -/
def compressAffine (P : Affine) : Bytes32 := BitVec.ofNat 256 (P.2.val + 2 ^ 255 * (P.1.val % 2))

/-- `compress(Q)` (R116). -/
def compress (Q : Point) : Bytes32 := compressAffine Q.affine

/-- The square `x²` the curve equation forces: `(y² - 1)·(d·y² + 1)^(p-2) mod p` (R117). -/
def xSquared (C : Curve) (y : Fp) : Fp :=
  fpMul (fpSub (fpSq y) (fpOf 1)) (fpInv (fpAdd (fpMul C.d (fpSq y)) (fpOf 1)))

/-- The first candidate, corrected by `SQRT_M1` when its square is not the target (R117). -/
def rootCandidate (x2 : Fp) : Fp :=
  let x := fpSqrtCandidate x2
  if fpSq x ≠ x2 then fpMul x Config.sqrtM1 else x

/-- `recoverX(y, sign)`; `none` is failure (R117). -/
def recoverX (C : Curve) (y : Fp) (sign : Nat) : Option Fp :=
  let x2 := xSquared C y
  if x2 = fpOf 0 then
    if sign = 1 then none else some (fpOf 0)
  else
    let x := rootCandidate x2
    if fpSq x ≠ x2 then none
    else if x.val % 2 ≠ sign then some (fpNeg x)
    else some x

/-- `decompress(b)`; `none` is failure (R118). -/
def decompress (C : Curve) (b : Bytes32) : Option Point :=
  let n := b.toNat
  let sign := n / 2 ^ 255
  let y := n % 2 ^ 255
  if h : y < Config.p then
    match recoverX C ⟨y, h⟩ sign with
    | none => none
    | some x => some ⟨x, ⟨y, h⟩, fpOf 1, fpMul x ⟨y, h⟩⟩
  else none

end Sys2Proof.Machine

namespace Sys2Proof

open Sys2Proof.Machine

/-! ### The parameters of this machine (R8, R42) -/

/-- The point `G_BASE` (R8). -/
def Curve.base (C : Curve) : Affine := (C.gX, C.gY)

/-- `D_CONST` is not a square modulo `p` (R8); so it is not 0. -/
abbrev Curve.nonSquare (C : Curve) : Prop := ∀ x : Fp, fpSq x ≠ C.d

/-- `G_BASE` is on the curve and of order `q` (R8). -/
abbrev Curve.baseOk (C : Curve) : Prop :=
  onCurve C C.base ∧ affineTimes C Config.q C.base = affineNeutral ∧
    ∀ n : Fq, 0 < n.val → affineTimes C n.val C.base ≠ affineNeutral

/-- The constraints of R8 on the curve's parameters. -/
abbrev Curve.admissible (C : Curve) : Prop := C.d ≠ fpOf 0 ∧ C.nonSquare ∧ C.baseOk

/-- `D_CONST` and `G_BASE` of this machine: the values given for them where R8 admits them, else its defaults. Every
admissible value is one of its possible values, and no claim can tell which it is (log entries 4, 5). -/
def Config.curve : Curve := (Config.curveChoice.filter fun C => decide C.admissible).getD Curve.standard

end Sys2Proof
end

