-- ==== Sys2Proof/Machine/Operands.lean ====
section
/-! DEFINITION. The operand forms (R12, R58, R67, R68, R165): typed registers, byte registers, pairs, the message, the
points in byte registers, the declared lengths, the key and session contexts, the draws of the entropy port and the
constants an immediate selects. Each gives its value or the error the spec names for it. -/

namespace Sys2Proof.Machine

/-- Reading a typed register: `UninitRegister` when its valid bit is 0 (R12, R169). -/
def readReg {α : Type} (o : Source) : Reg α → Except CmdError α
  | .invalid => .error (.uninitRegister o)
  | .holds v => .ok v

/-- `F[i]` as a source (R12). -/
def readF (s : State) (i : RegNum) : Except CmdError Fp := readReg .fRegister (s.fregs.get i)

/-- `S[i]` as a source (R12). -/
def readS (s : State) (i : RegNum) : Except CmdError Fq := readReg .sRegister (s.sregs.get i)

/-- `P[i]` as a source (R12). -/
def readP (s : State) (i : RegNum) : Except CmdError Point := readReg .pRegister (s.pregs.get i)

/-- `B[i]`, always valid (R12, R18). -/
def State.b (s : State) (i : RegNum) : Bytes32 := s.bregs.get i

/-- The key context, needed valid (R169, detail 4). -/
def readKey (s : State) : Except CmdError KeyPair := readReg .keyContext s.key

/-- A pair operand: the even member and the odd one (R67). A word with an odd number is illegal (R70, test 3), so no
decoded command has one (log entry 18). -/
def pairOperand (n : RegNum) : Except CmdError RegNum :=
  if pairOk n then .ok n else .error (.illegalCommand .badRegister)

/-- The message `M` (R58). -/
def message (s : State) : Except CmdError (List Byte) :=
  if s.mlen.toNat ≤ Config.msgMax then .ok (msgBytes s.msg s.mlen.toNat) else .error .msgLength

/-- The declared length `KLEN` is 32 (R36, R166). -/
def needKlen (s : State) (o : LengthOperand) : Except CmdError Unit :=
  if s.klen = 32 then .ok () else .error (.invalidLength o)

/-- The declared length `SLEN` is 64 (R36, R166). -/
def needSlen (s : State) : Except CmdError Unit :=
  if s.slen = 64 then .ok () else .error (.invalidLength .signature)

/-- A byte register that must decode to a point (R167). -/
def pointOperand (s : State) (o : PointOperand) (i : RegNum) : Except CmdError Point :=
  match decompress Config.curve (s.b i) with
  | some Q => .ok Q
  | none => .error (.invalidPoint o)

/-- The constant `FLDC` selects (R89). A word with a larger selector is illegal (R70, test 4; log entry 18). -/
def fieldConstant (c : Imm) : Except CmdError Fp :=
  match c.toNat with
  | 0 => .ok (fpOf 0)
  | 1 => .ok (fpOf 1)
  | 2 => .ok Config.curve.d
  | 3 => .ok Config.sqrtM1
  | _ => .error (.illegalCommand .badImm)

/-- The constant `PLDC` selects (R125). A word with a larger selector is illegal (R70, test 4; log entry 18). -/
def pointConstant (c : Imm) : Except CmdError Point :=
  match c.toNat with
  | 0 => .ok pointNeutral
  | 1 => .ok (pointBase Config.curve)
  | _ => .error (.illegalCommand .badImm)

/-- A context mask of `BDISCARD`, legal values 1 to 3 (R68; log entry 18). -/
def maskOperand (m : Imm) : Except CmdError Nat :=
  if bdiscardImmOk m then .ok m.toNat else .error (.illegalCommand .badImm)

/-- `s` with `ISTATE = I_IDLE`, or `SessionState(1)` (R140). -/
def needIssuerIdle (s : State) : Except CmdError Unit :=
  match s.issuer with
  | .idle => .ok ()
  | .commit _ _ => .error (.sessionState .issuer)
  | .signed _ => .error (.sessionState .issuer)

/-- `IK` and `IR` in `I_COMMIT`, or `SessionState(1)` (R140, R26). -/
def needCommit (s : State) : Except CmdError (Draw × Point) :=
  match s.issuer with
  | .commit ik ir => .ok (ik, ir)
  | .idle => .error (.sessionState .issuer)
  | .signed _ => .error (.sessionState .issuer)

/-- `USTATE = U_IDLE`, or `SessionState(2)` (R140). -/
def needUserIdle (s : State) : Except CmdError Unit :=
  match s.user with
  | .idle => .ok ()
  | .blinded _ _ => .error (.sessionState .user)
  | .done _ => .error (.sessionState .user)

/-- `UA` and `URP` in `U_BLINDED`, or `SessionState(2)` (R140, R27). -/
def needBlinded (s : State) : Except CmdError (Draw × Point) :=
  match s.user with
  | .blinded ua urp => .ok (ua, urp)
  | .idle => .error (.sessionState .user)
  | .done _ => .error (.sessionState .user)

/-- What one request `draw()` comes to (R175): a value or a failure, with the state that has consumed the answer, or no
answer yet. -/
inductive Drawn where
  | value (v : Draw) (s : State)
  | failed (s : State)
  | waiting
  deriving DecidableEq, Repr

/-- One request to the entropy port: the answers are consumed in order, one per request (R175). -/
def draw (s : State) : Drawn :=
  match s.entropy with
  | [] => .waiting
  | .value v :: rest => .value v { s with entropy := rest }
  | .fail :: rest => .failed { s with entropy := rest }

/-- A draw as a Scalar: `1 ≤ v ≤ q - 1` (R101). -/
def Draw.toFq (v : Draw) : Fq := ⟨v.val, v.lt⟩

end Sys2Proof.Machine
end

