-- ==== Sys2Proof/Machine/Bus.lean ====
section
/-! DEFINITION. The bus port (R45 to R53) and the busy rule (R185). -/

namespace Sys2Proof.Machine

/-- What stands at an aligned offset of the window (R46). `hd k`, `b i k`: bus word `k` of the register; `msg o`: the
message bytes at window offsets `o` to `o + 3`. -/
inductive Loc where
  | id | cmd | status | rc | errs | mlen | arglen
  | hd (k : Nat)
  | b (i : RegNum) (k : Nat)
  | msg (o : Nat)
  | reserved
  deriving DecidableEq, Repr

/-- The address map (R46). -/
def locate (off : Nat) : Loc :=
  if off = 0x000 then .id
  else if off = 0x004 then .cmd
  else if off = 0x008 then .status
  else if off = 0x00c then .rc
  else if off = 0x010 then .errs
  else if off = 0x014 then .mlen
  else if off = 0x018 then .arglen
  else if 0x040 ≤ off ∧ off < 0x080 then .hd ((off - 0x040) / 4)
  else if h : 0x100 ≤ off ∧ off < 0x200 then
    .b ⟨(off - 0x100) / 32, by omega⟩ ((off - 0x100) % 32 / 4)
  else if msgBase ≤ off ∧ off < msgBase + Config.msgMax then .msg off
  else .reserved

/-- The word read at a location, or no word where a read is answered `ERROR` (R46, R52, R53). -/
def readLoc (s : State) : Loc → Option Word
  | .id => some Config.coreId
  | .cmd => none
  | .status => some (statusWord s)
  | .rc => some (rcWord s)
  | .errs => some (errsWord s)
  | .mlen => some s.mlen
  | .arglen => some (arglenWord s)
  | .hd k => some (getWord s.hd k)
  | .b i k => some (getWord (s.b i) k)
  | .msg o => some (memReadWord s.msg o)
  | .reserved => none

/-- A `CMD` write while `BUSY = 0`: the word goes in flight and `BUSY` becomes 1 (R31). -/
def startCommand (s : State) (w : Word) : State := { s with inflight := some w, blindA := none }

/-- The state after a write at a location, or none where a write is answered `ERROR` (R46, R51, R52, R53). -/
def writeLoc (s : State) (w : Word) : Loc → Option State
  | .id => none
  | .cmd => some (startCommand s w)
  | .status => none
  | .rc => none
  | .errs => some (s.clearErrs w)
  | .mlen => some (s.setMlen w)
  | .arglen => some (s.setArglen w)
  | .hd k => some (s.setHd (setWord s.hd k w))
  | .b i k => some (s.setB i (setWord (s.b i) k w))
  | .msg o => some { s with msg := memWriteWord s.msg o w }
  | .reserved => none

/-- The only access the port accepts: 32 bits at a multiple of 4 (R49). -/
def acceptable (w : Width) (off : Offset) : Bool := w == .word && off.toNat % 4 == 0

/-- An access refused because `BUSY = 1`: `ERROR`, and `ERRS.BUSVIOL` is set (R185, R34). -/
def busyRefusal (s : State) : State := { s with errs := s.errs ||| errsBusviol, answer := .error }

/-- A host read. While `BUSY = 1` only a read of `STATUS` is answered (R185; log entry 11); otherwise as the address map
says (R46, R49, R51 to R53). -/
def busRead (w : Width) (off : Offset) (s : State) : State :=
  if s.busy then
    if acceptable w off ∧ locate off.toNat = .status then { s with answer := .okayData (statusWord s) }
    else busyRefusal s
  else if acceptable w off then
    match readLoc s (locate off.toNat) with
    | some d => { s with answer := .okayData d }
    | none => { s with answer := .error }
  else { s with answer := .error }

/-- A host write. While `BUSY = 1` every write is refused (R185); otherwise as the address map says (R46, R49, R51 to
R53). -/
def busWrite (w : Width) (off : Offset) (data : Word) (s : State) : State :=
  if s.busy then busyRefusal s
  else if acceptable w off then
    match writeLoc s data (locate off.toNat) with
    | some t => { t with answer := .okay }
    | none => { s with answer := .error }
  else { s with answer := .error }

end Sys2Proof.Machine
end

