-- ==== Sys2Proof/Machine/KeySign.lean ====
section
/-! DEFINITION. The key and signature commands (R127 to R134). The challenge is `hashToScalar(compress(R) ‖ message)`,
without the public key, as the spec follows its source (C5). -/

namespace Sys2Proof.Machine

/-- `expandSecret(seed)` (R128): the hash's first half clamped, its second half the prefix. -/
def expandSecret (seed : Bytes32) : KeyPair :=
  let h := Config.hash (bytes32 seed)
  let a := le (h.extractLsb' 0 256)
  ⟨BitVec.ofNat 256 (a % 2 ^ 254 - a % 8 + 2 ^ 254), h.extractLsb' 256 256⟩

/-- `hashToScalar(b ‖ M)` (R99, R128 to R132). -/
def hashToScalar (b : Bytes32) (m : List Byte) : Fq := h2s (Config.hash (bytes32 b ++ m))

/-- `KEXPAND Ba` (R129). -/
def execKexpand (a : RegNum) (s : State) : Host.Outcome State Fault Refusal :=
  finish s do
    needKlen s .seed
    .ok (s.setKey (expandSecret (s.b a)))

/-- `KDERIVE Bd`: `KP <- [KX]G`, `B[d] <- compress(KP)` (R130). -/
def execKderive (d : RegNum) (s : State) : Host.Outcome State Fault Refusal :=
  finish s do
    let k ← readKey s
    let Q := pointMul Config.curve k.kx.toNat (pointBase Config.curve)
    .ok ((s.setKp Q).setB d (compress Q))

/-- The two halves of a signature by the expanded key `k` on `m` (R131). -/
def signature (k : KeyPair) (m : List Byte) : Bytes32 × Bytes32 :=
  let r := hashToScalar k.kpfx m
  let rb := compress (pointMul Config.curve r.val (pointBase Config.curve))
  let h := hashToScalar rb m
  (rb, enc32 ((r.val + h.val * k.kx.toNat) % Config.q))

/-- `SIGN Bd, Ba` (R131). -/
def execSign (d a : RegNum) (s : State) : Host.Outcome State Fault Refusal :=
  finish s do
    let d ← pairOperand d
    needKlen s .seed
    let m ← message s
    let k := expandSecret (s.b a)
    let sig := signature k m
    .ok ((s.setKey k).setPair d sig.1 sig.2)

/-- Whether the signature `rb ‖ sb` on `m` is accepted under the key `pk`: both points decode and
`[s]G = R + [h]A`, `s` a 256-bit natural, neither reduced nor range-checked (R132). -/
def accepts (pk rb sb : Bytes32) (m : List Byte) : Bool :=
  match decompress Config.curve pk, decompress Config.curve rb with
  | some A, some R =>
    pointEqual (pointMul Config.curve (le sb) (pointBase Config.curve))
      (pointAdd Config.curve R (pointMul Config.curve (hashToScalar rb m).val A))
  | _, _ => false

/-- `VERIFY Ba, Bb`: `VALID` is the answer; a point that does not decode gives `VALID = 0` with `RC = OK` (R132,
R180). -/
def execVerify (a b : RegNum) (s : State) : Host.Outcome State Fault Refusal :=
  finish s do
    let b ← pairOperand b
    needKlen s .key
    needSlen s
    let m ← message s
    .ok (s.setValid (accepts (s.b a) (s.b b) (s.b (pairHigh b)) m))

end Sys2Proof.Machine
end

