-- ==== Sys2Proof/Machine/Blind.lean ====
section
/-! DEFINITION. The blind-signature protocol commands (R139 to R145). -/

namespace Sys2Proof.Machine

/-- `BCOMMIT Bd` (R141). The draw comes after the state check; without an answer of the port the command waits (R188). -/
def execBcommit (d : RegNum) (s : State) : Host.Outcome State Fault Refusal :=
  match needIssuerIdle s with
  | .error e => finish s (.error e)
  | .ok _ =>
    match draw s with
    | .value k t =>
      let R := pointMul Config.curve k.val (pointBase Config.curve)
      finish t (.ok ((t.setIssuer (.commit k R)).setB d (compress R)))
    | .failed t => finish t (.error .invalidScalarSource)
    | .waiting => .next s

/-- What `BBLIND` checks before it draws: the state, the message, the two points, in the order of R165 (R142). -/
def blindOperands (a b : RegNum) (s : State) : Except CmdError (List Byte × Point × Point) := do
  needUserIdle s
  let m ← message s
  let R ← pointOperand s .ra a
  let P ← pointOperand s .rb b
  .ok (m, R, P)

/-- The draw `a` of a `BBLIND`: the one it has been given while it waited for `b`, or a new one (R142, R188). -/
def drawBlindA (s : State) : Drawn :=
  match s.blindA with
  | some v => .value v s
  | none => draw s

/-- `R' = R + [a]G + [b]P` (R142). -/
def blindedCommitment (R P : Point) (a b : Draw) : Point :=
  pointAdd Config.curve (pointAdd Config.curve R (pointMul Config.curve a.val (pointBase Config.curve)))
    (pointMul Config.curve b.val P)

/-- `BBLIND Bd, Ba, Bb` (R142). `a` is drawn first, then `b`; while the port has not given both the command waits,
keeping the `a` it has (R188); a failed draw is consumed and the command aborts (R170, R175). -/
def execBblind (d a b : RegNum) (s : State) : Host.Outcome State Fault Refusal :=
  match blindOperands a b s with
  | .error e => finish s (.error e)
  | .ok (m, R, P) =>
    match drawBlindA s with
    | .failed t => finish t (.error .invalidScalarSource)
    | .waiting => .next s
    | .value va t =>
      match draw t with
      | .failed u => finish u (.error .invalidScalarSource)
      | .waiting => .next { t with blindA := some va }
      | .value vb u =>
        let R' := blindedCommitment R P va vb
        let e := fqAdd (hashToScalar (compress R') m) vb.toFq
        finish u (.ok ((u.setUser (.blinded va R')).setB d (enc32 e.val)))

/-- `BSIGN Bd, Ba` (R143). -/
def execBsign (d a : RegNum) (s : State) : Host.Outcome State Fault Refusal :=
  finish s do
    let (ik, ir) ← needCommit s
    let k ← readKey s
    let e := le (s.b a) % Config.q
    .ok ((s.setIssuer (.signed ir)).setB d (enc32 ((ik.val + e * k.kx.toNat) % Config.q)))

/-- `BUNBLIND Bd, Ba` (R144). -/
def execBunblind (d a : RegNum) (s : State) : Host.Outcome State Fault Refusal :=
  finish s do
    let d ← pairOperand d
    let (ua, urp) ← needBlinded s
    let r := le (s.b a) % Config.q
    .ok ((s.setUser (.done urp)).setPair d (compress urp) (enc32 ((r + ua.val) % Config.q)))

/-- `BDISCARD m`: bit 0 of the mask discards the issuer context, bit 1 the user context (R145). -/
def execBdiscard (m : Imm) (s : State) : Host.Outcome State Fault Refusal :=
  finish s do
    let n ← maskOperand m
    let t := if n % 2 = 1 then s.setIssuer .idle else s
    .ok (if n / 2 % 2 = 1 then t.setUser .idle else t)

end Sys2Proof.Machine
end

