-- ==== Sys2Proof/Machine/Field.lean ====
section
/-! DEFINITION. The field commands (R80 to R90). -/

namespace Sys2Proof.Machine

/-- A command with two field sources and a field destination (R80). -/
def fieldOp2 (op : Fp → Fp → Fp) (d a b : RegNum) (s : State) : Host.Outcome State Fault Refusal :=
  finish s do
    let x ← readF s a
    let y ← readF s b
    .ok (s.setF d (op x y))

/-- A command with one field source and a field destination (R80). -/
def fieldOp1 (op : Fp → Fp) (d a : RegNum) (s : State) : Host.Outcome State Fault Refusal :=
  finish s do
    let x ← readF s a
    .ok (s.setF d (op x))

/-- `FADD Fd, Fa, Fb` (R81). -/
def execFadd (d a b : RegNum) (s : State) : Host.Outcome State Fault Refusal := fieldOp2 fpAdd d a b s

/-- `FSUB Fd, Fa, Fb` (R82). -/
def execFsub (d a b : RegNum) (s : State) : Host.Outcome State Fault Refusal := fieldOp2 fpSub d a b s

/-- `FMUL Fd, Fa, Fb` (R83). -/
def execFmul (d a b : RegNum) (s : State) : Host.Outcome State Fault Refusal := fieldOp2 fpMul d a b s

/-- `FNEG Fd, Fa` (R84). -/
def execFneg (d a : RegNum) (s : State) : Host.Outcome State Fault Refusal := fieldOp1 fpNeg d a s

/-- `FINV Fd, Fa`: `InvertZero` when the source is 0 (R85, R171). -/
def execFinv (d a : RegNum) (s : State) : Host.Outcome State Fault Refusal :=
  finish s do
    let t ← readF s a
    if t = fpOf 0 then .error .invertZero else .ok (s.setF d (fpInv t))

/-- `FSQRTC Fd, Fa`: the first candidate, no check made (R86). -/
def execFsqrtc (d a : RegNum) (s : State) : Host.Outcome State Fault Refusal := fieldOp1 fpSqrtCandidate d a s

/-- `FLD Fd, Ba`: `F[d] <- LE(B[a]) mod p` (R87). -/
def execFld (d a : RegNum) (s : State) : Host.Outcome State Fault Refusal :=
  finish s (.ok (s.setF d (fpOf (le (s.b a)))))

/-- `FST Bd, Fa`: `B[d] <- ENC32(F[a])` (R88). -/
def execFst (d a : RegNum) (s : State) : Host.Outcome State Fault Refusal :=
  finish s do
    let x ← readF s a
    .ok (s.setB d (enc32 x.val))

/-- `FLDC Fd, c` (R89). -/
def execFldc (d : RegNum) (c : Imm) (s : State) : Host.Outcome State Fault Refusal :=
  finish s do
    let v ← fieldConstant c
    .ok (s.setF d v)

end Sys2Proof.Machine
end

