-- ==== Sys2Proof/Machine/Points.lean ====
section
/-! DEFINITION. The curve point commands (R107, R113, R114, R120 to R125). -/

namespace Sys2Proof.Machine

/-- `PADD Pd, Pa, Pb`, by the reference addition (R113, R111). -/
def execPadd (d a b : RegNum) (s : State) : Host.Outcome State Fault Refusal :=
  finish s do
    let x ← readP s a
    let y ← readP s b
    .ok (s.setP d (pointAdd Config.curve x y))

/-- `PDBL Pd, Pa`, by the reference doubling (R114, R112). -/
def execPdbl (d a : RegNum) (s : State) : Host.Outcome State Fault Refusal :=
  finish s do
    let x ← readP s a
    .ok (s.setP d (pointDouble x))

/-- `PSMUL Pd, Sa, Pb`; `S[a]` is tested before `P[b]` (R120, R169). -/
def execPsmul (d a b : RegNum) (s : State) : Host.Outcome State Fault Refusal :=
  finish s do
    let n ← readS s a
    let x ← readP s b
    .ok (s.setP d (pointMul Config.curve n.val x))

/-- `PSMULG Pd, Sa` (R121). -/
def execPsmulg (d a : RegNum) (s : State) : Host.Outcome State Fault Refusal :=
  finish s do
    let n ← readS s a
    .ok (s.setP d (pointMul Config.curve n.val (pointBase Config.curve)))

/-- `PEQ Pa, Pb`: `EQ <- equal(P[a], P[b])` (R122, R115). -/
def execPeq (a b : RegNum) (s : State) : Host.Outcome State Fault Refusal :=
  finish s do
    let x ← readP s a
    let y ← readP s b
    .ok (s.setEq (pointEqual x y))

/-- `PCMP Bd, Pa`: `B[d] <- compress(P[a])` (R123, R116). -/
def execPcmp (d a : RegNum) (s : State) : Host.Outcome State Fault Refusal :=
  finish s do
    let x ← readP s a
    .ok (s.setB d (compress x))

/-- `PDEC Pd, Ba`: `P[d] <- decompress(B[a])`, or `InvalidPoint` (R124, R118). -/
def execPdec (d a : RegNum) (s : State) : Host.Outcome State Fault Refusal :=
  finish s do
    let x ← pointOperand s .sole a
    .ok (s.setP d x)

/-- `PLDC Pd, c` (R125). -/
def execPldc (d : RegNum) (c : Imm) (s : State) : Host.Outcome State Fault Refusal :=
  finish s do
    let x ← pointConstant c
    .ok (s.setP d x)

end Sys2Proof.Machine
end

