-- ==== Sys2Proof/Machine/Scalar.lean ====
section
/-! DEFINITION. The scalar commands (R95 to R104). -/

namespace Sys2Proof.Machine

/-- A command with two scalar sources and a scalar destination (R95). -/
def scalarOp2 (op : Fq → Fq → Fq) (d a b : RegNum) (s : State) : Host.Outcome State Fault Refusal :=
  finish s do
    let x ← readS s a
    let y ← readS s b
    .ok (s.setS d (op x y))

/-- `SADD Sd, Sa, Sb` (R96). -/
def execSadd (d a b : RegNum) (s : State) : Host.Outcome State Fault Refusal := scalarOp2 fqAdd d a b s

/-- `SSUB Sd, Sa, Sb` (R97). -/
def execSsub (d a b : RegNum) (s : State) : Host.Outcome State Fault Refusal := scalarOp2 fqSub d a b s

/-- `SMUL Sd, Sa, Sb` (R98). -/
def execSmul (d a b : RegNum) (s : State) : Host.Outcome State Fault Refusal := scalarOp2 fqMul d a b s

/-- `H2S Sd`: `S[d] <- LE(HD) mod q` (R100). -/
def execH2s (d : RegNum) (s : State) : Host.Outcome State Fault Refusal := finish s (.ok (s.setS d (h2s s.hd)))

/-- `RNDS Sd`: `S[d] <- draw()` (R101). Without an answer of the port the command waits: nothing changes and `BUSY`
stays 1 (R188). A failed draw is consumed and the command aborts (R170, R175). -/
def execRnds (d : RegNum) (s : State) : Host.Outcome State Fault Refusal :=
  match draw s with
  | .value v t => finish t (.ok (t.setS d v.toFq))
  | .failed t => finish t (.error .invalidScalarSource)
  | .waiting => .next s

/-- `SLD Sd, Ba`: `S[d] <- LE(B[a]) mod q` (R102). -/
def execSld (d a : RegNum) (s : State) : Host.Outcome State Fault Refusal :=
  finish s (.ok (s.setS d (fqOf (le (s.b a)))))

/-- `SST Bd, Sa`: `B[d] <- ENC32(S[a])` (R103). -/
def execSst (d a : RegNum) (s : State) : Host.Outcome State Fault Refusal :=
  finish s do
    let x ← readS s a
    .ok (s.setB d (enc32 x.val))

end Sys2Proof.Machine
end

