-- ==== Sys2Proof/Machine/System.lean ====
section
/-! DEFINITION. The system and hash commands (R151 to R155). -/

namespace Sys2Proof.Machine

/-- `NOP`: nothing but `RC <- OK` (R152). -/
def execNop (s : State) : Host.Outcome State Fault Refusal := finish s (.ok s)

/-- `ZEROIZE`: every piece of state of R40 takes its reset value, except `ERRS` (R153). -/
def execZeroize (s : State) : Host.Outcome State Fault Refusal :=
  finish s (.ok { resetAll s with errs := s.errs })

/-- `HASHB Ba`: `HD <- H(B[a])` (R154). -/
def execHashb (a : RegNum) (s : State) : Host.Outcome State Fault Refusal :=
  finish s (.ok (s.setHd (Config.hash (bytes32 (s.b a)))))

/-- `HASHBM Ba`: `HD <- H(B[a] ‖ M)` (R155). -/
def execHashbm (a : RegNum) (s : State) : Host.Outcome State Fault Refusal :=
  finish s do
    let m ← message s
    .ok (s.setHd (Config.hash (bytes32 (s.b a) ++ m)))

end Sys2Proof.Machine
end

