-- ==== Sys2Proof/Machine/Dispatch.lean ====
section
/-! DEFINITION. One arm per command of R69, each a call of its meaning. -/

namespace Sys2Proof.Machine

def exec (i : Instr) (s : State) : Host.Outcome State Fault Refusal :=
  match i with
  | .nop => Sys2Proof.Machine.execNop s
  | .zeroize => Sys2Proof.Machine.execZeroize s
  | .hashb a => Sys2Proof.Machine.execHashb a s
  | .hashbm a => Sys2Proof.Machine.execHashbm a s
  | .fadd d a b => Sys2Proof.Machine.execFadd d a b s
  | .fsub d a b => Sys2Proof.Machine.execFsub d a b s
  | .fmul d a b => Sys2Proof.Machine.execFmul d a b s
  | .fneg d a => Sys2Proof.Machine.execFneg d a s
  | .finv d a => Sys2Proof.Machine.execFinv d a s
  | .fsqrtc d a => Sys2Proof.Machine.execFsqrtc d a s
  | .fld d a => Sys2Proof.Machine.execFld d a s
  | .fst d a => Sys2Proof.Machine.execFst d a s
  | .fldc d c => Sys2Proof.Machine.execFldc d c s
  | .sadd d a b => Sys2Proof.Machine.execSadd d a b s
  | .ssub d a b => Sys2Proof.Machine.execSsub d a b s
  | .smul d a b => Sys2Proof.Machine.execSmul d a b s
  | .h2s d => Sys2Proof.Machine.execH2s d s
  | .rnds d => Sys2Proof.Machine.execRnds d s
  | .sld d a => Sys2Proof.Machine.execSld d a s
  | .sst d a => Sys2Proof.Machine.execSst d a s
  | .padd d a b => Sys2Proof.Machine.execPadd d a b s
  | .pdbl d a => Sys2Proof.Machine.execPdbl d a s
  | .psmul d a b => Sys2Proof.Machine.execPsmul d a b s
  | .psmulg d a => Sys2Proof.Machine.execPsmulg d a s
  | .peq a b => Sys2Proof.Machine.execPeq a b s
  | .pcmp d a => Sys2Proof.Machine.execPcmp d a s
  | .pdec d a => Sys2Proof.Machine.execPdec d a s
  | .pldc d c => Sys2Proof.Machine.execPldc d c s
  | .kexpand a => Sys2Proof.Machine.execKexpand a s
  | .kderive d => Sys2Proof.Machine.execKderive d s
  | .sign d a => Sys2Proof.Machine.execSign d a s
  | .verify a b => Sys2Proof.Machine.execVerify a b s
  | .bcommit d => Sys2Proof.Machine.execBcommit d s
  | .bblind d a b => Sys2Proof.Machine.execBblind d a b s
  | .bsign d a => Sys2Proof.Machine.execBsign d a s
  | .bunblind d a => Sys2Proof.Machine.execBunblind d a s
  | .bdiscard m => Sys2Proof.Machine.execBdiscard m s

end Sys2Proof.Machine
end

