-- ==== Sys2Proof/Machine/Run.lean ====
section
/-! DEFINITION. How the core runs the command in flight (R24, R31, R70, R168) and what each event does (R63, R159). The
core has no fetch (R22): the command word is the data of the `CMD` write. -/

namespace Sys2Proof.Machine

/-- The core's move: with no command in flight it does nothing; an illegal word aborts with `IllegalCommand` and the
detail of R70; a legal one is executed (R31, R168). A command runs, from the checks to `BUSY = 0`, in this one move
(R24, R185), unless it waits for the entropy port (R188). -/
def runCore (s : State) : Host.Outcome State Fault Refusal :=
  match s.inflight with
  | none => .next s
  | some w =>
    match decode w with
    | .error r => finish s (.error (.illegalCommand r))
    | .ok i => exec i s

/-- One event, already taken off the list (R63, R175, R181). -/
def handle (e : Event) (s : State) : Host.Outcome State Fault Refusal :=
  match e with
  | .coreRuns => runCore s
  | .read w off => .next (busRead w off s)
  | .write w off data => .next (busWrite w off data s)
  | .portAnswers a => .next { s with entropy := s.entropy ++ [a] }
  | .reset => .next (resetAll s)

/-- The state in which the core's next move runs the word `w`: `w` is in flight, as after an accepted `CMD` write
(R31), and the core moves before anything else happens. -/
def placeCommand (s : State) (w : Word) : State :=
  { startCommand s w with events := .coreRuns :: s.events }

end Sys2Proof.Machine
end

