-- ==== Sys2Proof/Machine/Step.lean ====
section
/-! DEFINITION. One step: the next event, or the core's own move when no event is left. -/

namespace Sys2Proof.Machine

/-- One step of the machine. -/
def step (s : State) : Host.Outcome State Fault Refusal :=
  match s.events with
  | [] => runCore s
  | e :: rest => handle e { s with events := rest }

/-- `s` with the command word `w` in flight and the core's move next (log entry 7). A command has one word of 32 bits
(R65). -/
def State.withFetchWord (s : State) (_nbits w : Nat) : State := placeCommand s (BitVec.ofNat 32 w)

end Sys2Proof.Machine
end

