-- ==== Sys2Proof/Safety.lean ====
section
/-! DEFINITION. The terms claims about the machine are stated in: the invariants of its states (R13 to R17, R25 to R27,
R34, R38), which registers a command may write, which commands draw and which codes a command may report (R164), what the
host can read (R41), which states differ only in what nothing can observe (R16) or in the secrets (R41), and the opcode
map as the tests of R70 read it. -/

namespace Sys2Proof.Machine

/-! ### Invariants -/

/-- The form of the state that every step keeps. -/
structure State.Inv (s : State) : Prop where
  /-- the message buffer is in its canonical form -/
  canonical : Memory.wf s.msg = true
  /-- only bytes of the buffer are listed (R38) -/
  inBuffer : ∀ c ∈ s.msg, msgBase ≤ c.1 ∧ c.1 < msgBase + Config.msgMax
  /-- the reserved bits of `ERRS` are 0 (R34) -/
  errsReserved : s.errs &&& ~~~errsLive = 0
  /-- `CODE` is one of the codes of R160, and `RCINFO` is 0 with code 0 (R33) -/
  code : s.rcCode.toNat ≤ 8 ∧ (s.rcCode = 0 → s.rcInfo = 0)
  /-- `KX` is clamped (R25) -/
  clamped : ∀ k, s.key = .holds k → 2 ^ 254 ≤ k.kx.toNat ∧ k.kx.toNat < 2 ^ 255 ∧ k.kx.toNat % 8 = 0
  /-- `KP` is valid only beside a valid `KX`, and is `[KX]G` (R25) -/
  publicPoint : ∀ Q, s.kp = .holds Q →
    ∃ k, s.key = .holds k ∧ Q.affine = affineTimes Config.curve k.kx.toNat Config.curve.base
  /-- `IR` is `[IK]G` while both are held (R26) -/
  commitment : ∀ k R, s.issuer = .commit k R → R.affine = affineTimes Config.curve k.val Config.curve.base
  /-- a draw is held only by a `BBLIND` in flight that has passed its checks (R39, R142, R188) -/
  waiting : ∀ v, s.blindA = some v → s.user = .idle ∧
    ∃ w d a b, s.inflight = some w ∧ decode w = .ok (.bblind d a b)

/-- A point register holds a point of the curve when it is valid (R15). -/
def Reg.live : Reg Point → Prop
  | .invalid => True
  | .holds Q => Q.live Config.curve

/-- The point the issuer context holds is on the curve (R26, R108). -/
def IssuerSession.live : IssuerSession → Prop
  | .idle => True
  | .commit _ ir => ir.live Config.curve
  | .signed ir => ir.live Config.curve

/-- The point the user context holds is on the curve (R27, R108). -/
def UserSession.live : UserSession → Prop
  | .idle => True
  | .blinded _ urp => urp.live Config.curve
  | .done urp => urp.live Config.curve

/-- "Every live point satisfies the curve equation" (R15, R108): every valid point register, `KP`, `IR`, `URP`. -/
structure State.PointsLive (s : State) : Prop where
  pregs : ∀ i : RegNum, (s.pregs.get i).live
  kp : s.kp.live
  issuer : s.issuer.live
  user : s.user.live

/-- A run has ended: the host has issued its last access and `BUSY` is 0 (R64). A run in which the entropy port never
answers has not ended. DESIGN CHOICE (log entry 24): R64 speaks of host accesses only and leaves open whether a run has
ended while port answers, moves of the core or a reset are still listed; here it has ended only when nothing is listed. -/
def State.runEnded (s : State) : Prop := s.events = [] ∧ s.inflight = none

/-! ### What a command may write and do -/

/-- The field registers a command writes (R80). -/
def writesF : Instr → List RegNum
  | .fadd d _ _ | .fsub d _ _ | .fmul d _ _ | .fneg d _ | .finv d _ | .fsqrtc d _ | .fld d _ | .fldc d _ => [d]
  | .nop | .zeroize | .hashb _ | .hashbm _ | .fst _ _ | .sadd _ _ _ | .ssub _ _ _ | .smul _ _ _ | .h2s _ | .rnds
    _ | .sld _ _ | .sst _ _ | .padd _ _ _ | .pdbl _ _ | .psmul _ _ _ | .psmulg _ _ | .peq _ _ | .pcmp _ _ | .pdec
    _ _ | .pldc _ _ | .kexpand _ | .kderive _ | .sign _ _ | .verify _ _ | .bcommit _ | .bblind _ _ _ | .bsign _ _
  | .bunblind _ _ | .bdiscard _ => []

/-- The scalar registers a command writes (R95). -/
def writesS : Instr → List RegNum
  | .sadd d _ _ | .ssub d _ _ | .smul d _ _ | .h2s d | .rnds d | .sld d _ => [d]
  | .nop | .zeroize | .hashb _ | .hashbm _ | .fadd _ _ _ | .fsub _ _ _ | .fmul _ _ _ | .fneg _ _ | .finv _ _ |
    .fsqrtc _ _ | .fld _ _ | .fst _ _ | .fldc _ _ | .sst _ _ | .padd _ _ _ | .pdbl _ _ | .psmul _ _ _ | .psmulg _
    _ | .peq _ _ | .pcmp _ _ | .pdec _ _ | .pldc _ _ | .kexpand _ | .kderive _ | .sign _ _ | .verify _ _ |
    .bcommit _ | .bblind _ _ _ | .bsign _ _ | .bunblind _ _ | .bdiscard _ => []

/-- The point registers a command writes (R107). -/
def writesP : Instr → List RegNum
  | .padd d _ _ | .pdbl d _ | .psmul d _ _ | .psmulg d _ | .pdec d _ | .pldc d _ => [d]
  | .nop | .zeroize | .hashb _ | .hashbm _ | .fadd _ _ _ | .fsub _ _ _ | .fmul _ _ _ | .fneg _ _ | .finv _ _ |
    .fsqrtc _ _ | .fld _ _ | .fst _ _ | .fldc _ _ | .sadd _ _ _ | .ssub _ _ _ | .smul _ _ _ | .h2s _ | .rnds _ |
    .sld _ _ | .sst _ _ | .peq _ _ | .pcmp _ _ | .kexpand _ | .kderive _ | .sign _ _ | .verify _ _ | .bcommit _ |
    .bblind _ _ _ | .bsign _ _ | .bunblind _ _ | .bdiscard _ => []

/-- The byte registers a command writes; a pair is its two members (R18). -/
def writesB : Instr → List RegNum
  | .fst d _ | .sst d _ | .pcmp d _ | .kderive d | .bcommit d | .bblind d _ _ | .bsign d _ => [d]
  | .sign d _ | .bunblind d _ => [d, pairHigh d]
  | .nop | .zeroize | .hashb _ | .hashbm _ | .fadd _ _ _ | .fsub _ _ _ | .fmul _ _ _ | .fneg _ _ | .finv _ _ |
    .fsqrtc _ _ | .fld _ _ | .fldc _ _ | .sadd _ _ _ | .ssub _ _ _ | .smul _ _ _ | .h2s _ | .rnds _ | .sld _ _ |
    .padd _ _ _ | .pdbl _ _ | .psmul _ _ _ | .psmulg _ _ | .peq _ _ | .pdec _ _ | .pldc _ _ | .kexpand _ | .verify
    _ _ | .bdiscard _ => []

/-- The commands that draw from the entropy port (R175). -/
def draws : Instr → Bool
  | .rnds _ | .bcommit _ | .bblind _ _ _ => true
  | .nop | .zeroize | .hashb _ | .hashbm _ | .fadd _ _ _ | .fsub _ _ _ | .fmul _ _ _ | .fneg _ _ | .finv _ _ |
    .fsqrtc _ _ | .fld _ _ | .fst _ _ | .fldc _ _ | .sadd _ _ _ | .ssub _ _ _ | .smul _ _ _ | .h2s _ | .sld _ _ |
    .sst _ _ | .padd _ _ _ | .pdbl _ _ | .psmul _ _ _ | .psmulg _ _ | .peq _ _ | .pcmp _ _ | .pdec _ _ | .pldc _ _
  | .kexpand _ | .kderive _ | .sign _ _ | .verify _ _ | .bsign _ _ | .bunblind _ _ | .bdiscard _ => false

/-- The codes other than 0 and 5 a command can report (R164). -/
def codes : Instr → List Nat
  | .nop | .zeroize | .hashb _ | .fld _ _ | .fldc _ _ | .sld _ _ | .h2s _ | .pldc _ _ | .bdiscard _ => []
  | .hashbm _ => [8]
  | .fadd _ _ _ | .fsub _ _ _ | .fmul _ _ _ | .fneg _ _ | .fsqrtc _ _ | .fst _ _ => [6]
  | .finv _ _ => [4, 6]
  | .sadd _ _ _ | .ssub _ _ _ | .smul _ _ _ | .sst _ _ => [6]
  | .rnds _ => [3]
  | .padd _ _ _ | .pdbl _ _ | .psmul _ _ _ | .psmulg _ _ | .peq _ _ | .pcmp _ _ => [6]
  | .pdec _ _ => [2]
  | .kexpand _ => [1]
  | .kderive _ => [6]
  | .sign _ _ => [1, 8]
  | .verify _ _ => [1, 8]
  | .bcommit _ => [3, 7]
  | .bblind _ _ _ => [2, 3, 7, 8]
  | .bsign _ _ => [6, 7]
  | .bunblind _ _ => [7]

/-! ### What can be observed -/

/-- The two states give the host the same readable locations (R41). -/
def sameHostView (s t : State) : Prop :=
  statusWord s = statusWord t ∧ rcWord s = rcWord t ∧ errsWord s = errsWord t ∧ s.mlen = t.mlen ∧
    arglenWord s = arglenWord t ∧ s.hd = t.hd ∧ s.bregs = t.bregs ∧ s.msg = t.msg

/-- `s` with other secrets in the same registers: another `KX` and `KPFX`, another `IK`, another `UA` (R41). Registers
that hold no secret are as they were. -/
def withSecrets (s : State) (k : KeyPair) (ik ua : Draw) : State :=
  { s with
    key := match s.key with
      | .holds _ => .holds k
      | .invalid => .invalid
    issuer := match s.issuer with
      | .commit _ ir => .commit ik ir
      | .idle => .idle
      | .signed ir => .signed ir
    user := match s.user with
      | .blinded _ urp => .blinded ua urp
      | .idle => .idle
      | .done urp => .done urp }

/-- Two quadruples of one point (R16). -/
def samePoint (P Q : Point) : Prop := P.live Config.curve ∧ Q.live Config.curve ∧ P.affine = Q.affine

/-- Two point registers, both invalid or holding one point (R16). -/
inductive samePointReg : Reg Point → Reg Point → Prop where
  | invalid : samePointReg .invalid .invalid
  | holds {P Q : Point} (h : samePoint P Q) : samePointReg (.holds P) (.holds Q)

/-- Two issuer contexts that differ at most in the representative of `IR`. -/
inductive sameIssuer : IssuerSession → IssuerSession → Prop where
  | idle : sameIssuer .idle .idle
  | commit {k : Draw} {P Q : Point} (h : samePoint P Q) : sameIssuer (.commit k P) (.commit k Q)
  | signed {P Q : Point} (h : samePoint P Q) : sameIssuer (.signed P) (.signed Q)

/-- Two user contexts that differ at most in the representative of `URP`. -/
inductive sameUser : UserSession → UserSession → Prop where
  | idle : sameUser .idle .idle
  | blinded {a : Draw} {P Q : Point} (h : samePoint P Q) : sameUser (.blinded a P) (.blinded a Q)
  | done {P Q : Point} (h : samePoint P Q) : sameUser (.done P) (.done Q)

/-- The two states differ at most in which quadruple stands for a point (R16). -/
structure sameButPoints (s t : State) : Prop where
  pregs : ∀ i : RegNum, samePointReg (s.pregs.get i) (t.pregs.get i)
  kp : samePointReg s.kp t.kp
  issuer : sameIssuer s.issuer t.issuer
  user : sameUser s.user t.user
  rest : { s with pregs := t.pregs, kp := t.kp, issuer := t.issuer, user := t.user } = t

/-! ### The opcode map, as R70 tests a word -/

/-- How a command uses a register field (R66, R67). -/
inductive Use where
  | unused | register | pair
  deriving DecidableEq, Repr

/-- One row of the opcode map (R69) with its format (R66) and, where it uses `imm`, the legal range (R68). -/
structure OpRow where
  op : Nat
  rd : Use
  ra : Use
  rb : Use
  imm : Option (Nat × Nat)
  deriving DecidableEq, Repr

/-- The opcode map (R66 to R69). -/
def opcodeMap : List OpRow :=
  [⟨0x00, .unused, .unused, .unused, none⟩, ⟨0x02, .unused, .unused, .unused, none⟩,
   ⟨0x03, .unused, .register, .unused, none⟩, ⟨0x04, .unused, .register, .unused, none⟩] ++
  [⟨0x10, .register, .register, .register, none⟩, ⟨0x11, .register, .register, .register, none⟩,
   ⟨0x12, .register, .register, .register, none⟩, ⟨0x13, .register, .register, .unused, none⟩,
   ⟨0x14, .register, .register, .unused, none⟩, ⟨0x15, .register, .register, .unused, none⟩,
   ⟨0x16, .register, .register, .unused, none⟩, ⟨0x17, .register, .register, .unused, none⟩,
   ⟨0x18, .register, .unused, .unused, some (0, 3)⟩] ++
  [⟨0x20, .register, .register, .register, none⟩, ⟨0x21, .register, .register, .register, none⟩,
   ⟨0x22, .register, .register, .register, none⟩, ⟨0x23, .register, .unused, .unused, none⟩,
   ⟨0x24, .register, .unused, .unused, none⟩, ⟨0x26, .register, .register, .unused, none⟩,
   ⟨0x27, .register, .register, .unused, none⟩] ++
  [⟨0x30, .register, .register, .register, none⟩, ⟨0x31, .register, .register, .unused, none⟩,
   ⟨0x32, .register, .register, .register, none⟩, ⟨0x33, .register, .register, .unused, none⟩,
   ⟨0x34, .unused, .register, .register, none⟩, ⟨0x35, .register, .register, .unused, none⟩,
   ⟨0x36, .register, .register, .unused, none⟩, ⟨0x38, .register, .unused, .unused, some (0, 1)⟩] ++
  [⟨0x40, .unused, .register, .unused, none⟩, ⟨0x41, .register, .unused, .unused, none⟩,
   ⟨0x42, .pair, .register, .unused, none⟩, ⟨0x43, .unused, .register, .pair, none⟩] ++
  [⟨0x50, .register, .unused, .unused, none⟩, ⟨0x51, .register, .register, .register, none⟩,
   ⟨0x52, .register, .register, .unused, none⟩, ⟨0x53, .pair, .register, .unused, none⟩,
   ⟨0x54, .unused, .unused, .unused, some (1, 3)⟩]

/-- An unused register field must be 0 (R66). -/
def Use.unusedOk (u : Use) (n : Nat) : Bool :=
  match u with
  | .unused => n == 0
  | .register => true
  | .pair => true

/-- A used register field holds 0 to 7, a pair field an even number (R67). -/
def Use.numberOk (u : Use) (n : Nat) : Bool :=
  match u with
  | .unused => true
  | .register => n ≤ 7
  | .pair => n ≤ 7 && n % 2 == 0

/-- An immediate the format uses is in its range (R68). -/
def immInRange (r : Option (Nat × Nat)) (n : Nat) : Bool :=
  match r with
  | none => true
  | some (lo, hi) => lo ≤ n && n ≤ hi

/-- The first of tests 2 to 4 of R70 that the fields of a word with a row's opcode fail, if any. -/
def rowFailure (r : OpRow) (f : Fields) : Option Illegal :=
  if ¬ (r.rd.unusedOk f.rd && r.ra.unusedOk f.ra && r.rb.unusedOk f.rb && (r.imm.isSome || f.imm == 0)) then
    some .unusedField
  else if ¬ (r.rd.numberOk f.rd && r.ra.numberOk f.ra && r.rb.numberOk f.rb) then some .badRegister
  else if ¬ immInRange r.imm f.imm then some .badImm
  else none

/-- The first of the four tests of R70 that a word fails, if any. -/
def firstFailure (w : Word) : Option Illegal :=
  match opcodeMap.find? (·.op == (fieldsOf w).op) with
  | none => some .unknownOp
  | some r => rowFailure r (fieldsOf w)

end Sys2Proof.Machine
end

