-- ==== Sys2Proof/Certificates/Slice0/Obligations.lean ====
section
/-! DEFINITION. The statements for the provers, from the numbered rules of spec/. -/

open Sys2Proof Sys2Proof.Machine

/-! ### Encoding (30_encoding.md) -/

/-- R65 to R69, R73: no bit of an encoding is dropped. -/
def Obligations.DecodeEncodeRoundTrip : Prop :=
  ∀ i : Instr, i.wf = true → decode (encode i) = .ok i

/-- R76: every word encodes exactly one command or is illegal. -/
def Obligations.EveryWordIsOneCommandOrIllegal : Prop :=
  ∀ w : Word,
    (∃ i, i.wf = true ∧ decode w = .ok i ∧ encode i = w ∧ ∀ j : Instr, j.wf = true → encode j = w → j = i) ∨
    (∃ r, decode w = .error r ∧ ∀ j : Instr, j.wf = true → encode j ≠ w)

/-- R70, R168: a word that fails one of the four tests, taken in their order on the opcode map of R66 to R69, aborts with
the detail of the first it fails, and nothing else is written; every other word runs a command. -/
def Obligations.IllegalWordsAbort : Prop :=
  ∀ (s : State) (w : Word), s.inflight = some w →
    (∀ r, firstFailure w = some r →
      runCore s = .next { s with
        inflight := none, blindA := none, rcCode := 5, rcInfo := r.detail, errs := s.errs ||| 0x20#32 }) ∧
    (firstFailure w = none → ∃ i, decode w = .ok i ∧ i.wf = true ∧ runCore s = exec i s)

/-- R73, R70: words the spec writes out, one or more of each family, and illegal ones with their details. -/
def Obligations.SampleWordsDecode : Prop :=
  decode 0x02000000#32 = .ok .zeroize ∧
  decode 0x10201000#32 = .ok (.fadd 2 0 1) ∧
  decode 0x18600002#32 = .ok (.fldc 6 2) ∧
  decode 0x27120000#32 = .ok (.sst 1 2) ∧
  decode 0x32300000#32 = .ok (.psmul 3 0 0) ∧
  decode 0x43016000#32 = .ok (.verify 1 6) ∧
  decode 0x51321000#32 = .ok (.bblind 3 2 1) ∧
  decode 0x54000003#32 = .ok (.bdiscard 3) ∧
  decode 0x25000000#32 = .error .unknownOp ∧
  decode 0x13081000#32 = .error .unusedField ∧
  decode 0x53700000#32 = .error .badRegister ∧
  decode 0x54000000#32 = .error .badImm

/-! ### The machine's step -/

/-- R22, R24, R31: when the word in flight decodes to `i` and the core moves, the step is `exec i`. The core moves when
the next event says so, the event taken off the list, and when no event is left (the model's schedule, log entry 7). -/
def Obligations.StepRunsTheCommand : Prop :=
  ∀ (s : State) (w : Word) (i : Instr), s.inflight = some w → decode w = .ok i →
    (s.events = [] → step s = exec i s) ∧
    (∀ rest, s.events = .coreRuns :: rest → step s = exec i { s with events := rest })

/-- R159: no event stops the core. -/
def Obligations.EveryStepCompletes : Prop :=
  ∀ s : State, ∃ t, step s = .next t

/-- R161, R162: a command completes with `RC` 0 and `ERRS` as it was; or it aborts, and then nothing changes but `RC`,
the code's bit of `ERRS`, `BUSY`, and the answers of the entropy port a drawing command has consumed; or it is a drawing
command that waits (R188), and nothing of the core's state changes but the draw it keeps. The rules do not say how a
command stands while it waits: that the port's answers stand in a list the core consumes is log entry 8, that a waiting
`BBLIND` keeps its first draw in a field of its own is log entry 9, both the model's choice. -/
def Obligations.AbortWritesOnlyTheResult : Prop :=
  ∀ (i : Instr) (s t : State), exec i s = .next t →
    (t.inflight = none ∧ t.rcCode = 0 ∧ t.rcInfo = 0 ∧ t.errs = s.errs) ∨
    (∃ (e : CmdError) (n : Nat), 1 ≤ e.number ∧ e.number ≤ 8 ∧ (draws i = false → n = 0) ∧
      t = { s with
        inflight := none, blindA := none, rcCode := BitVec.ofNat 8 e.number, rcInfo := e.info,
        errs := s.errs ||| (1#32 <<< e.number), entropy := s.entropy.drop n }) ∨
    (draws i = true ∧ ∃ v, t = { s with entropy := [], blindA := v })

/-- R164: the codes a legal command can report. -/
def Obligations.ReportedCodes : Prop :=
  ∀ (i : Instr) (s t : State), i.wf = true → s.inflight ≠ none → exec i s = .next t → t.inflight = none →
    t.rcCode = 0 ∨ ∃ n ∈ codes i, t.rcCode = BitVec.ofNat 8 n

/-- R13, R14, R25 to R27, R33, R34, R38: the form of the state is kept by every step. -/
def Obligations.EveryStepKeepsInvariant : Prop :=
  ∀ s t : State, s.Inv → step s = .next t → t.Inv

/-- R40: the reset state meets both invariants. -/
def Obligations.ResetMeetsInvariants : Prop :=
  State.reset.Inv ∧ State.reset.PointsLive

/-- R15, R108: "every live point satisfies the curve equation" after every step. -/
def Obligations.EveryStepKeepsPointsLive : Prop :=
  ∀ s t : State, s.PointsLive → step s = .next t → t.PointsLive

/-- R40, R182: what reset leaves. -/
def Obligations.ResetState : Prop :=
  (∀ i : RegNum, State.reset.fregs.get i = .invalid ∧ State.reset.sregs.get i = .invalid ∧
    State.reset.pregs.get i = .invalid ∧ State.reset.b i = 0) ∧
  State.reset.hd = 0 ∧ (∀ a, memRead State.reset.msg a = 0) ∧
  State.reset.key = .invalid ∧ State.reset.kp = .invalid ∧
  State.reset.issuer = .idle ∧ State.reset.user = .idle ∧
  statusWord State.reset = 0x00000000#32 ∧ rcWord State.reset = 0x00000000#32 ∧
  errsWord State.reset = 0x00000000#32 ∧ State.reset.mlen = 0 ∧ arglenWord State.reset = 0x00004020#32 ∧
  (busRead .word 0x0000 State.reset).answer = .okayData 0x42534501#32

/-- R181: the reset input, at any time and in the middle of a command. -/
def Obligations.ResetInput : Prop :=
  ∀ (s : State) (rest : List Event), s.events = .reset :: rest →
    ∃ t, step s = .next t ∧ { t with entropy := [], events := [], answer := .none } = State.reset

/-! ### The bus port (10_state.md section 6, 20_memory.md, R185) -/

/-- R31, R22: a write of `CMD` while `BUSY = 0` starts the command, one while `BUSY = 1` starts nothing, a read of `CMD`
is an error. -/
def Obligations.CommandStart : Prop :=
  ∀ (s : State) (w : Word),
    (s.inflight = none →
      busWrite .word 0x0004 w s = { s with inflight := some w, blindA := none, answer := .okay } ∧
      (statusWord (busWrite .word 0x0004 w s)).getLsbD 0 = true ∧
      busRead .word 0x0004 s = { s with answer := .error }) ∧
    (∀ v, s.inflight = some v → (busWrite .word 0x0004 w s).inflight = some v)

/-- R185: while a command runs a read of `STATUS` is answered, every other access is refused and sets `BUSVIOL`, and the
running command is not disturbed. That an access of another width or at an unaligned offset is one of the others, so that
it sets `BUSVIOL` too, is the model's reading of R185 beside R49 (log entry 11). -/
def Obligations.BusyAccesses : Prop :=
  ∀ s : State, s.inflight ≠ none →
    busRead .word 0x0008 s = { s with answer := .okayData (statusWord s) } ∧ (statusWord s).getLsbD 0 = true ∧
    (∀ w off, w ≠ .word ∨ off ≠ 0x0008#16 →
      busRead w off s = { s with answer := .error, errs := s.errs ||| 0x00010000#32 }) ∧
    (∀ w off d, busWrite w off d s = { s with answer := .error, errs := s.errs ||| 0x00010000#32 })

/-- R49, R52, R53: accesses of another width, unaligned, at a reserved offset or in the wrong direction are answered
`ERROR` and change nothing; reserved bits read 0 and ignore writes. -/
def Obligations.RefusedAccesses : Prop :=
  ∀ s : State, s.inflight = none →
    (∀ (w : Width) (off : Offset) (d : Word),
      (w ≠ .word ∨ off.toNat % 4 ≠ 0 ∨ (0x001c ≤ off.toNat ∧ off.toNat ≤ 0x003f) ∨
        (0x0080 ≤ off.toNat ∧ off.toNat ≤ 0x00ff) ∨ (0x0200 ≤ off.toNat ∧ off.toNat ≤ 0x0fff) ∨
        0x1000 + Config.msgMax ≤ off.toNat) →
      busRead w off s = { s with answer := .error } ∧ busWrite w off d s = { s with answer := .error }) ∧
    (∀ (off : Offset) (d : Word), off = 0x0000#16 ∨ off = 0x0008#16 ∨ off = 0x000c#16 →
      busWrite .word off d s = { s with answer := .error }) ∧
    busRead .word 0x0004 s = { s with answer := .error } ∧
    statusWord s &&& 0xfffffc08#32 = 0 ∧ rcWord s &&& 0xffff0000#32 = 0 ∧ errsWord s &&& 0xfffefe01#32 = 0 ∧
    arglenWord s &&& 0xffff0000#32 = 0 ∧
    (∀ d : Word, errsWord (busWrite .word 0x0010 (d &&& 0x000101fe#32) s) = errsWord (busWrite .word 0x0010 d s) ∧
      arglenWord (busWrite .word 0x0018 (d &&& 0x0000ffff#32) s) = arglenWord (busWrite .word 0x0018 d s))

/-- R51: reads have no side effects; a write to `CMD` starts a command, a write to `ERRS` clears bits, and every other
write stores its data and does nothing else. -/
def Obligations.AccessSideEffects : Prop :=
  ∀ s : State, s.inflight = none →
    (∀ w off, { busRead w off s with answer := s.answer } = s) ∧
    (∀ d, busWrite .word 0x0004 d s = { s with inflight := some d, blindA := none, answer := .okay }) ∧
    (∀ d, busWrite .word 0x0010 d s = { s with errs := s.errs &&& ~~~d, answer := .okay }) ∧
    (∀ w off d, off ≠ 0x0004#16 → off ≠ 0x0010#16 →
      { busWrite w off d s with
        mlen := s.mlen, klen := s.klen, slen := s.slen, hd := s.hd, bregs := s.bregs, msg := s.msg,
        answer := s.answer } = s)

/-- R46, R47: the words of `B0..B7` and of `HD` in the window, little-endian, read and written. -/
def Obligations.ByteRegisterWindow : Prop :=
  ∀ s : State, s.inflight = none →
    (∀ (i : RegNum) (k : Fin 8) (off : Offset), off.toNat = 0x0100 + 32 * i.val + 4 * k.val →
      (busRead .word off s).answer = .okayData ((s.b i).extractLsb' (32 * k.val) 32) ∧
      ∀ d, ∃ v : Bytes32,
        busWrite .word off d s = { s with bregs := s.bregs.set i.val v i.isLt, answer := .okay } ∧
        v.extractLsb' (32 * k.val) 32 = d ∧
        ∀ j : Fin 8, j ≠ k → v.extractLsb' (32 * j.val) 32 = (s.b i).extractLsb' (32 * j.val) 32) ∧
    (∀ (k : Fin 16) (off : Offset), off.toNat = 0x0040 + 4 * k.val →
      (busRead .word off s).answer = .okayData (s.hd.extractLsb' (32 * k.val) 32) ∧
      ∀ d, ∃ v : Bytes64,
        busWrite .word off d s = { s with hd := v, answer := .okay } ∧
        v.extractLsb' (32 * k.val) 32 = d ∧
        ∀ j : Fin 16, j ≠ k → v.extractLsb' (32 * j.val) 32 = s.hd.extractLsb' (32 * j.val) 32)

/-- R9, R38, R46, R47: the buffer has a size R9 admits (log entry 6); a word written to it reads back, byte `j` of it at
the offset plus `j`, and every other byte of the buffer is as it was. -/
def Obligations.MessageWindow : Prop :=
  (4 ≤ Config.msgMax ∧ Config.msgMax ≤ 61440 ∧ Config.msgMax % 4 = 0) ∧
  ∀ (s : State) (off : Offset) (d : Word), s.inflight = none → Memory.wf s.msg = true →
    off.toNat % 4 = 0 → 0x1000 ≤ off.toNat → off.toNat + 3 < 0x1000 + Config.msgMax →
    ∃ m, busWrite .word off d s = { s with msg := m, answer := .okay } ∧
      (busRead .word off (busWrite .word off d s)).answer = .okayData d ∧
      (∀ j : Fin 4, memRead m (off.toNat + j.val) = d.extractLsb' (8 * j.val) 8) ∧
      ∀ a, a < off.toNat ∨ off.toNat + 3 < a → memRead m a = memRead s.msg a

/-- R32: the fields of `STATUS`, read-only, all 0 at reset. -/
def Obligations.StatusRegister : Prop :=
  statusWord State.reset = 0 ∧
  (∀ (s : State) (d : Word), s.inflight = none → busWrite .word 0x0008 d s = { s with answer := .error }) ∧
  ∀ s : State,
    (busRead .word 0x0008 s).answer = .okayData (statusWord s) ∧
    (statusWord s).getLsbD 0 = s.inflight.isSome ∧ (statusWord s).getLsbD 1 = s.eqFlag ∧
    (statusWord s).getLsbD 2 = s.validFlag ∧ (statusWord s).getLsbD 3 = false ∧
    ((statusWord s).extractLsb' 4 2).toNat = s.issuer.number ∧ ((statusWord s).extractLsb' 6 2).toNat = s.user.number ∧
    (statusWord s).getLsbD 8 = s.key.valid ∧ (statusWord s).getLsbD 9 = s.kp.valid ∧
    (statusWord s).extractLsb' 10 22 = 0

/-- R34: a host write clears the bits written 1 and no other; no command clears a bit; a command that ends with `OK` sets
none, one that ends with code `n` sets bit `n` and no other, one that waits (log entry 8) sets none. -/
def Obligations.ErrsRegister : Prop :=
  (∀ (s : State) (d : Word), s.inflight = none →
    (busRead .word 0x0010 s).answer = .okayData (s.errs &&& 0x000101fe#32) ∧
    ∀ n, (busWrite .word 0x0010 d s).errs.getLsbD n = (s.errs.getLsbD n && !d.getLsbD n)) ∧
  (∀ (i : Instr) (s t : State), exec i s = .next t →
    t.errs = s.errs ∨ ∃ n, 1 ≤ n ∧ n ≤ 8 ∧ t.rcCode = BitVec.ofNat 8 n ∧ t.errs = s.errs ||| (1#32 <<< n)) ∧
  (∀ (i : Instr) (s t : State), s.inflight ≠ none → exec i s = .next t →
    (t.inflight ≠ none → t.errs = s.errs) ∧
    (t.inflight = none → t.rcCode = 0 → t.errs = s.errs) ∧
    (t.inflight = none → t.rcCode ≠ 0 → t.errs = s.errs ||| (1#32 <<< t.rcCode.toNat) ∧
      t.errs.getLsbD t.rcCode.toNat = true)) ∧
  (∀ s t : State, exec .zeroize s = .next t → t.errs = s.errs) ∧
  State.reset.errs = 0

/-- R30, R33, R35, R36: `ID`, `RC`, `MLEN` and `ARGLEN` as the host reads and writes them. -/
def Obligations.ControlRegisters : Prop :=
  ∀ (s : State) (d : Word), s.inflight = none →
    (busRead .word 0x0000 s).answer = .okayData 0x42534501#32 ∧
    (busRead .word 0x000c s).answer = .okayData (0#16 ++ s.rcInfo ++ s.rcCode) ∧
    busWrite .word 0x0014 d s = { s with mlen := d, answer := .okay } ∧
    (busRead .word 0x0014 (busWrite .word 0x0014 d s)).answer = .okayData d ∧
    busWrite .word 0x0018 d s =
      { s with klen := d.extractLsb' 0 8, slen := d.extractLsb' 8 8, answer := .okay } ∧
    (busRead .word 0x0018 (busWrite .word 0x0018 d s)).answer = .okayData (d &&& 0x0000ffff#32)

/-! ### Rules of the whole machine -/

/-- R19, R23, R25, R38, R37: which commands write the flags, the key context, `HD`, the message and the lengths. `ZEROIZE`
(R153) writes all of them. -/
def Obligations.ContextWriters : Prop :=
  ∀ (i : Instr) (s t : State), exec i s = .next t → i ≠ .zeroize →
    (t.eqFlag ≠ s.eqFlag → ∃ a b, i = .peq a b) ∧
    (t.validFlag ≠ s.validFlag → ∃ a b, i = .verify a b) ∧
    (t.key ≠ s.key → (∃ a, i = .kexpand a) ∨ ∃ d a, i = .sign d a) ∧
    (t.kp ≠ s.kp → (∃ a, i = .kexpand a) ∨ (∃ d a, i = .sign d a) ∨ ∃ d, i = .kderive d) ∧
    (t.hd ≠ s.hd → (∃ a, i = .hashb a) ∨ ∃ a, i = .hashbm a) ∧
    t.msg = s.msg ∧ t.mlen = s.mlen ∧ t.klen = s.klen ∧ t.slen = s.slen

/-- R140, R172: the state machine of the two contexts. No command but `ZEROIZE` makes another transition, and a protocol
command in a state where it is not legal aborts with `SessionState` and the detail of its context. -/
def Obligations.SessionMachine : Prop :=
  (∀ (i : Instr) (s t : State), exec i s = .next t → i ≠ .zeroize →
    (t.issuer = s.issuer ∨
      (∃ d k R, i = .bcommit d ∧ s.issuer = .idle ∧ t.issuer = .commit k R) ∨
      (∃ d a k R, i = .bsign d a ∧ s.issuer = .commit k R ∧ t.issuer = .signed R) ∨
      (∃ m, i = .bdiscard m ∧ t.issuer = .idle)) ∧
    (t.user = s.user ∨
      (∃ d a b v R, i = .bblind d a b ∧ s.user = .idle ∧ t.user = .blinded v R) ∨
      (∃ d a v R, i = .bunblind d a ∧ s.user = .blinded v R ∧ t.user = .done R) ∨
      (∃ m, i = .bdiscard m ∧ t.user = .idle))) ∧
  (∀ (d a b : RegNum) (s : State),
    (s.issuer.number ≠ 0 → exec (.bcommit d) s = .next (abort (.sessionState .issuer) s)) ∧
    (s.issuer.number ≠ 1 → exec (.bsign d a) s = .next (abort (.sessionState .issuer) s)) ∧
    (s.user.number ≠ 0 → exec (.bblind d a b) s = .next (abort (.sessionState .user) s)) ∧
    (s.user.number ≠ 1 → pairOk d = true → exec (.bunblind d a) s = .next (abort (.sessionState .user) s)) ∧
    (abort (.sessionState .issuer) s).rcCode = 7 ∧ (abort (.sessionState .issuer) s).rcInfo = 1 ∧
    (abort (.sessionState .user) s).rcCode = 7 ∧ (abort (.sessionState .user) s).rcInfo = 2)

/-- R188: a command that is still in flight after the core's move is one that draws. The port then has no answer left in
the model's list of them (log entry 8), and nothing of the core's state has changed but the draw a `BBLIND` keeps (log
entry 9): R188 says neither, both are the model's choice. -/
def Obligations.OnlyDrawingCommandsWait : Prop :=
  ∀ (i : Instr) (s t : State), s.inflight ≠ none → exec i s = .next t → t.inflight ≠ none →
    draws i = true ∧ t.entropy = [] ∧ { t with entropy := s.entropy, blindA := s.blindA } = s

/-- R188, R175: a command that has waited goes on with the port's next answer as if that answer had stood behind the
earlier ones from the start. -/
def Obligations.WaitingKeepsTheDraws : Prop :=
  ∀ (i : Instr) (s t : State) (x : PortAnswer), s.inflight ≠ none → exec i s = .next t → t.inflight ≠ none →
    exec i { t with entropy := t.entropy ++ [x] } = exec i { s with entropy := s.entropy ++ [x] }

/-- R41: what the host reads depends on the readable locations only, and no command but `KDERIVE`, `BSIGN` and
`BUNBLIND` lets a secret (`KX`, `KPFX`, `IK`, `UA`) reach them. -/
def Obligations.SecretsHaveNoReadPath : Prop :=
  (∀ (s t : State) (w : Width) (off : Offset), sameHostView s t →
    (busRead w off s).answer = (busRead w off t).answer) ∧
  (∀ (i : Instr) (s s' t' : State) (k : KeyPair) (ik ua : Draw),
    (∀ d, i ≠ .kderive d) → (∀ d a, i ≠ .bsign d a) → (∀ d a, i ≠ .bunblind d a) →
    exec i s = .next s' → exec i (withSecrets s k ik ua) = .next t' → sameHostView s' t')

/-- R16, R110: which quadruple stands for a point is observed by no step. -/
def Obligations.RepresentativesUnobservable : Prop :=
  (∀ s t : State, sameButPoints s t → sameHostView s t ∧ s.answer = t.answer) ∧
  (∀ s t s' : State, sameButPoints s t → step s = .next s' → ∃ t', step t = .next t' ∧ sameButPoints s' t')

/-! ### System and hash commands (45_system.md) -/

/-- R153: the one legal encoding, and every piece of state of R40 takes its reset value, except `ERRS`. -/
def Obligations.ZeroizeResult : Prop :=
  (∀ w : Word, decode w = .ok .zeroize ↔ w = 0x02000000#32) ∧
  ∀ s : State, ∃ t, exec .zeroize s = .next t ∧
    { t with entropy := [], events := [], answer := .none } = { State.reset with errs := s.errs }

/-- R152, R154, R155, R58, R158. -/
def Obligations.NopHashResults : Prop :=
  (∀ w : Word, decode w = .ok .nop ↔ w = 0#32) ∧
  (∀ w : Word, w.toNat / 2 ^ 24 = 0 → w ≠ 0#32 → decode w = .error .unusedField) ∧
  ∀ (s : State) (a : RegNum),
    (encode (.hashb a)).toNat = 0x03 * 2 ^ 24 + a.val * 2 ^ 16 ∧
    (encode (.hashbm a)).toNat = 0x04 * 2 ^ 24 + a.val * 2 ^ 16 ∧
    exec .nop s = .next { s with inflight := none, blindA := none, rcCode := 0, rcInfo := 0 } ∧
    exec (.hashb a) s = .next { complete s with hd := Config.hash (bytes32 (s.b a)) } ∧
    (s.mlen.toNat ≤ Config.msgMax →
      exec (.hashbm a) s =
        .next { complete s with
          hd := Config.hash (bytes32 (s.b a) ++ (List.range s.mlen.toNat).map fun j => memRead s.msg (0x1000 + j)) }) ∧
    (Config.msgMax < s.mlen.toNat → exec (.hashbm a) s = .next (abort .msgLength s))

/-! ### Field commands (40_field.md) -/

/-- R81, R82, R83. -/
def Obligations.FieldAddSubMul : Prop :=
  ∀ (s : State) (d a b : RegNum),
    (encode (.fadd d a b)).toNat = 0x10 * 2 ^ 24 + d.val * 2 ^ 20 + a.val * 2 ^ 16 + b.val * 2 ^ 12 ∧
    (encode (.fsub d a b)).toNat = 0x11 * 2 ^ 24 + d.val * 2 ^ 20 + a.val * 2 ^ 16 + b.val * 2 ^ 12 ∧
    (encode (.fmul d a b)).toNat = 0x12 * 2 ^ 24 + d.val * 2 ^ 20 + a.val * 2 ^ 16 + b.val * 2 ^ 12 ∧
    (∀ x y : Fp, s.fregs.get a = .holds x → s.fregs.get b = .holds y →
      (∃ r : Fp, (r.val : Int) = ((x.val : Int) + y.val) % Config.p ∧
        exec (.fadd d a b) s = .next { complete s with fregs := s.fregs.set d.val (.holds r) d.isLt }) ∧
      (∃ r : Fp, (r.val : Int) = ((x.val : Int) - y.val) % Config.p ∧
        exec (.fsub d a b) s = .next { complete s with fregs := s.fregs.set d.val (.holds r) d.isLt }) ∧
      (∃ r : Fp, (r.val : Int) = ((x.val : Int) * y.val) % Config.p ∧
        exec (.fmul d a b) s = .next { complete s with fregs := s.fregs.set d.val (.holds r) d.isLt })) ∧
    (s.fregs.get a = .invalid ∨ s.fregs.get b = .invalid →
      exec (.fadd d a b) s = .next (abort (.uninitRegister .fRegister) s) ∧
      exec (.fsub d a b) s = .next (abort (.uninitRegister .fRegister) s) ∧
      exec (.fmul d a b) s = .next (abort (.uninitRegister .fRegister) s))

/-- R84, R86: the negation, and the first square-root candidate with what it satisfies. -/
def Obligations.FieldNegSqrt : Prop :=
  ∀ (s : State) (d a : RegNum),
    (encode (.fneg d a)).toNat = 0x13 * 2 ^ 24 + d.val * 2 ^ 20 + a.val * 2 ^ 16 ∧
    (encode (.fsqrtc d a)).toNat = 0x15 * 2 ^ 24 + d.val * 2 ^ 20 + a.val * 2 ^ 16 ∧
    (∀ x : Fp, s.fregs.get a = .holds x →
      (∃ r : Fp, (r.val : Int) = ((Config.p : Int) - x.val) % Config.p ∧
        exec (.fneg d a) s = .next { complete s with fregs := s.fregs.set d.val (.holds r) d.isLt }) ∧
      (∃ r : Fp, r.val = x.val ^ ((Config.p + 3) / 8) % Config.p ∧
        (∀ y : Fp, y.val * y.val % Config.p = x.val →
          r.val * r.val % Config.p = x.val ∨
          (r.val * r.val + x.val) % Config.p = 0 ∧
            (r.val * Config.sqrtM1.val) ^ 2 % Config.p = x.val) ∧
        ((∀ y : Fp, y.val * y.val % Config.p ≠ x.val) →
          r.val * r.val % Config.p ≠ x.val ∧ (r.val * Config.sqrtM1.val) ^ 2 % Config.p ≠ x.val) ∧
        (x.val = 0 → r.val = 0) ∧
        exec (.fsqrtc d a) s = .next { complete s with fregs := s.fregs.set d.val (.holds r) d.isLt })) ∧
    (s.fregs.get a = .invalid →
      exec (.fneg d a) s = .next (abort (.uninitRegister .fRegister) s) ∧
      exec (.fsqrtc d a) s = .next (abort (.uninitRegister .fRegister) s))

/-- R85, R171. -/
def Obligations.FieldInvert : Prop :=
  ∀ (s : State) (d a : RegNum),
    (∀ x : Fp, s.fregs.get a = .holds x → x.val ≠ 0 →
      ∃ r : Fp, r.val = x.val ^ (Config.p - 2) % Config.p ∧ r.val * x.val % Config.p = 1 ∧
        exec (.finv d a) s = .next { complete s with fregs := s.fregs.set d.val (.holds r) d.isLt }) ∧
    (∀ x : Fp, s.fregs.get a = .holds x → x.val = 0 → exec (.finv d a) s = .next (abort .invertZero s)) ∧
    (s.fregs.get a = .invalid → exec (.finv d a) s = .next (abort (.uninitRegister .fRegister) s))

/-- R87, R88, R89, and R8 on `D_CONST`: the constant `d` is the parameter of the machine, neither 0 nor a square modulo
`p` whatever value is given, and with the defaults of R8 the number R8 gives (log entry 4). -/
def Obligations.FieldMoves : Prop :=
  (Config.curve.d.val ≠ 0 ∧ ∀ y : Fp, y.val * y.val % Config.p ≠ Config.curve.d.val) ∧
  ∀ (s : State) (d a : RegNum),
    (∃ r : Fp, r.val = (s.b a).toNat % Config.p ∧
      exec (.fld d a) s = .next { complete s with fregs := s.fregs.set d.val (.holds r) d.isLt }) ∧
    (∀ x : Fp, s.fregs.get a = .holds x →
      ∃ v : Bytes32, v.toNat = x.val ∧
        exec (.fst d a) s = .next { complete s with bregs := s.bregs.set d.val v d.isLt }) ∧
    (s.fregs.get a = .invalid → exec (.fst d a) s = .next (abort (.uninitRegister .fRegister) s)) ∧
    (∀ c : Imm, c.toNat ≤ 3 →
      ∃ r : Fp, (c = 0 → r.val = 0) ∧ (c = 1 → r.val = 1) ∧
        (c = 2 → r = Config.curve.d ∧ (Config.curve = Curve.standard →
          r.val = 0x52036cee2b6ffe738cc740797779e89800700a4d4141d8ab75eb4dca135978a3)) ∧
        (c = 3 → r.val = 0x2b8324804fc1df0b2b4d00993dfbd7a72f431806ad2fe478c4ee1b274a0ea0b0) ∧
        exec (.fldc d c) s = .next { complete s with fregs := s.fregs.set d.val (.holds r) d.isLt }) ∧
    (∀ c : Imm, 3 < c.toNat → exec (.fldc d c) s = .next (abort (.illegalCommand .badImm) s))

/-! ### Scalar commands (41_scalar.md) -/

/-- R96, R97, R98. -/
def Obligations.ScalarAddSubMul : Prop :=
  ∀ (s : State) (d a b : RegNum),
    (encode (.sadd d a b)).toNat = 0x20 * 2 ^ 24 + d.val * 2 ^ 20 + a.val * 2 ^ 16 + b.val * 2 ^ 12 ∧
    (encode (.ssub d a b)).toNat = 0x21 * 2 ^ 24 + d.val * 2 ^ 20 + a.val * 2 ^ 16 + b.val * 2 ^ 12 ∧
    (encode (.smul d a b)).toNat = 0x22 * 2 ^ 24 + d.val * 2 ^ 20 + a.val * 2 ^ 16 + b.val * 2 ^ 12 ∧
    (∀ x y : Fq, s.sregs.get a = .holds x → s.sregs.get b = .holds y →
      (∃ r : Fq, (r.val : Int) = ((x.val : Int) + y.val) % Config.q ∧
        exec (.sadd d a b) s = .next { complete s with sregs := s.sregs.set d.val (.holds r) d.isLt }) ∧
      (∃ r : Fq, (r.val : Int) = ((x.val : Int) - y.val) % Config.q ∧
        exec (.ssub d a b) s = .next { complete s with sregs := s.sregs.set d.val (.holds r) d.isLt }) ∧
      (∃ r : Fq, (r.val : Int) = ((x.val : Int) * y.val) % Config.q ∧
        exec (.smul d a b) s = .next { complete s with sregs := s.sregs.set d.val (.holds r) d.isLt })) ∧
    (s.sregs.get a = .invalid ∨ s.sregs.get b = .invalid →
      exec (.sadd d a b) s = .next (abort (.uninitRegister .sRegister) s) ∧
      exec (.ssub d a b) s = .next (abort (.uninitRegister .sRegister) s) ∧
      exec (.smul d a b) s = .next (abort (.uninitRegister .sRegister) s))

/-- R99, R100, R102, R103. -/
def Obligations.ScalarMoves : Prop :=
  ∀ (s : State) (d a : RegNum),
    (encode (.h2s d)).toNat = 0x23 * 2 ^ 24 + d.val * 2 ^ 20 ∧
    (encode (.sld d a)).toNat = 0x26 * 2 ^ 24 + d.val * 2 ^ 20 + a.val * 2 ^ 16 ∧
    (encode (.sst d a)).toNat = 0x27 * 2 ^ 24 + d.val * 2 ^ 20 + a.val * 2 ^ 16 ∧
    (∃ r : Fq, r.val = s.hd.toNat % Config.q ∧
      exec (.h2s d) s = .next { complete s with sregs := s.sregs.set d.val (.holds r) d.isLt }) ∧
    (∃ r : Fq, r.val = (s.b a).toNat % Config.q ∧
      exec (.sld d a) s = .next { complete s with sregs := s.sregs.set d.val (.holds r) d.isLt }) ∧
    (∀ x : Fq, s.sregs.get a = .holds x →
      ∃ v : Bytes32, v.toNat = x.val ∧
        exec (.sst d a) s = .next { complete s with bregs := s.bregs.set d.val v d.isLt }) ∧
    (s.sregs.get a = .invalid → exec (.sst d a) s = .next (abort (.uninitRegister .sRegister) s))

/-- R101, R170, R175, R188. -/
def Obligations.RandomScalar : Prop :=
  ∀ (s : State) (d : RegNum),
    (∀ (v : Draw) (rest : List PortAnswer), s.entropy = .value v :: rest →
      ∃ r : Fq, r.val = v.val ∧ 1 ≤ r.val ∧
        exec (.rnds d) s =
          .next { complete s with sregs := s.sregs.set d.val (.holds r) d.isLt, entropy := rest }) ∧
    (∀ rest : List PortAnswer, s.entropy = .fail :: rest →
      exec (.rnds d) s = .next (abort .invalidScalarSource { s with entropy := rest })) ∧
    (s.entropy = [] → exec (.rnds d) s = .next s)

/-! ### Point commands (42_point.md) -/

/-- R113, R114: the class of the result is the sum of the classes of the operands, in the group law of R109, which the
spec takes from general knowledge (log entry 21). -/
def Obligations.PointAddDouble : Prop :=
  ∀ (s : State) (d a b : RegNum),
    (∀ P Q : Point, s.pregs.get a = .holds P → s.pregs.get b = .holds Q → P.live Config.curve → Q.live Config.curve →
      ∃ R : Point, R.live Config.curve ∧ R.affine = affineAdd Config.curve P.affine Q.affine ∧
        exec (.padd d a b) s = .next { complete s with pregs := s.pregs.set d.val (.holds R) d.isLt }) ∧
    (∀ P : Point, s.pregs.get a = .holds P → P.live Config.curve →
      ∃ R : Point, R.live Config.curve ∧ R.affine = affineAdd Config.curve P.affine P.affine ∧
        exec (.pdbl d a) s = .next { complete s with pregs := s.pregs.set d.val (.holds R) d.isLt }) ∧
    (s.pregs.get a = .invalid ∨ s.pregs.get b = .invalid →
      exec (.padd d a b) s = .next (abort (.uninitRegister .pRegister) s)) ∧
    (s.pregs.get a = .invalid → exec (.pdbl d a) s = .next (abort (.uninitRegister .pRegister) s))

/-- R120, R121: the class of the result is the multiple of the class of the base in the group law of R109 (log entry 21),
the base `G` for `PSMULG`, whatever point R8 admits as `G` (log entry 5). -/
def Obligations.PointMultiply : Prop :=
  ∀ (s : State) (d a b : RegNum),
    (∀ (n : Fq) (P : Point), s.sregs.get a = .holds n → s.pregs.get b = .holds P → P.live Config.curve →
      ∃ R : Point, R.live Config.curve ∧ R.affine = affineTimes Config.curve n.val P.affine ∧
        exec (.psmul d a b) s = .next { complete s with pregs := s.pregs.set d.val (.holds R) d.isLt }) ∧
    (∀ n : Fq, s.sregs.get a = .holds n →
      ∃ R : Point, R.live Config.curve ∧ R.affine = affineTimes Config.curve n.val Config.curve.base ∧
        exec (.psmulg d a) s = .next { complete s with pregs := s.pregs.set d.val (.holds R) d.isLt }) ∧
    (s.sregs.get a = .invalid →
      exec (.psmul d a b) s = .next (abort (.uninitRegister .sRegister) s) ∧
      exec (.psmulg d a) s = .next (abort (.uninitRegister .sRegister) s)) ∧
    (∀ n : Fq, s.sregs.get a = .holds n → s.pregs.get b = .invalid →
      exec (.psmul d a b) s = .next (abort (.uninitRegister .pRegister) s))

/-- R115, R116, R122, R123. -/
def Obligations.PointEqualCompress : Prop :=
  ∀ (s : State) (d a b : RegNum),
    (encode (.peq a b)).toNat = 0x34 * 2 ^ 24 + a.val * 2 ^ 16 + b.val * 2 ^ 12 ∧
    (encode (.pcmp d a)).toNat = 0x35 * 2 ^ 24 + d.val * 2 ^ 20 + a.val * 2 ^ 16 ∧
    (∀ P Q : Point, s.pregs.get a = .holds P → s.pregs.get b = .holds Q → P.live Config.curve → Q.live Config.curve →
      exec (.peq a b) s = .next { complete s with eqFlag := decide (P.affine = Q.affine) }) ∧
    (s.pregs.get a = .invalid ∨ s.pregs.get b = .invalid →
      exec (.peq a b) s = .next (abort (.uninitRegister .pRegister) s)) ∧
    (∀ P : Point, s.pregs.get a = .holds P →
      ∃ v : Bytes32, v.toNat = P.affine.2.val + 2 ^ 255 * (P.affine.1.val % 2) ∧
        exec (.pcmp d a) s = .next { complete s with bregs := s.bregs.set d.val v d.isLt }) ∧
    (s.pregs.get a = .invalid → exec (.pcmp d a) s = .next (abort (.uninitRegister .pRegister) s))

/-- R124, R117, R118, R167: `PDEC` finds the point of the curve with the `y` and the sign the bytes hold, and aborts with
`InvalidPoint` when `y ≥ p` or there is none. -/
def Obligations.PointDecompress : Prop :=
  ∀ (s : State) (d a : RegNum),
    (∀ x y : Fp, onCurve Config.curve (x, y) → (s.b a).toNat % 2 ^ 255 = y.val →
      (s.b a).toNat / 2 ^ 255 = x.val % 2 →
      ∃ R : Point, R.live Config.curve ∧ R.affine = (x, y) ∧
        exec (.pdec d a) s = .next { complete s with pregs := s.pregs.set d.val (.holds R) d.isLt }) ∧
    ((∀ x y : Fp, onCurve Config.curve (x, y) → (s.b a).toNat % 2 ^ 255 = y.val →
      (s.b a).toNat / 2 ^ 255 ≠ x.val % 2) →
      exec (.pdec d a) s = .next (abort (.invalidPoint .sole) s))

/-- R125, and R8 on `G_BASE`: `G` is the parameter of the machine, on the curve and of order `q` whatever value is given,
and with the defaults of R8 the point R8 gives (log entry 5). -/
def Obligations.PointConstants : Prop :=
  ∀ (s : State) (d : RegNum),
    (∃ R : Point, R.live Config.curve ∧ R.affine = affineNeutral ∧
      exec (.pldc d 0) s = .next { complete s with pregs := s.pregs.set d.val (.holds R) d.isLt }) ∧
    (∃ R : Point, R.live Config.curve ∧ R.affine = Config.curve.base ∧
      affineTimes Config.curve Config.q R.affine = affineNeutral ∧
      (∀ n, 0 < n → n < Config.q → affineTimes Config.curve n R.affine ≠ affineNeutral) ∧
      (Config.curve = Curve.standard →
        R.affine.1.val = 0x216936d3cd6e53fec0a4e231fdd6dc5c692cc7609525a7b2c9562d608f25d51a ∧
        R.affine.2.val = 0x6666666666666666666666666666666666666666666666666666666666666658) ∧
      exec (.pldc d 1) s = .next { complete s with pregs := s.pregs.set d.val (.holds R) d.isLt }) ∧
    (∀ c : Imm, 1 < c.toNat → exec (.pldc d c) s = .next (abort (.illegalCommand .badImm) s))

/-- R126: the round-trip laws. -/
def Obligations.PointRoundTrip : Prop :=
  (∀ (s : State) (d a t : RegNum) (P : Point), s.pregs.get a = .holds P → P.live Config.curve →
    ∃ u v R, exec (.pcmp t a) s = .next u ∧ exec (.pdec d t) u = .next v ∧ v.rcCode = 0 ∧
      v.pregs.get d = .holds R ∧ R.live Config.curve ∧ R.affine = P.affine ∧
      ∃ w, exec (.peq d a) v = .next w ∧ w.rcCode = 0 ∧ w.eqFlag = true) ∧
  (∀ (s u : State) (d a t : RegNum), exec (.pdec t a) s = .next u → u.rcCode = 0 →
    ∃ v, exec (.pcmp d t) u = .next v ∧ v.rcCode = 0 ∧ v.b d = s.b a) ∧
  (∀ P Q : Point, P.live Config.curve → Q.live Config.curve → P.affine ≠ Q.affine → compress P ≠ compress Q)

/-! ### Key and signature commands (43_key_sign.md) -/

/-- R128, R129, R130, R166: with `h = H(seed)`, `KX` is the low half of `h` clamped and `KPFX` the high half; `KP` is
`[KX]G` and `B[d]` its compression. The clamp values and the group law are the spec's general knowledge (log entry 21). -/
def Obligations.KeyExpandDerive : Prop :=
  ∀ (s : State) (d a : RegNum),
    (s.klen = 32 →
      ∃ k : KeyPair,
        k.kx.toNat = ((Config.hash (bytes32 (s.b a))).toNat % 2 ^ 254
          - (Config.hash (bytes32 (s.b a))).toNat % 8 + 2 ^ 254) ∧
        k.kpfx = (Config.hash (bytes32 (s.b a))).extractLsb' 256 256 ∧
        exec (.kexpand a) s = .next { complete s with key := .holds k, kp := .invalid }) ∧
    (s.klen ≠ 32 → exec (.kexpand a) s = .next (abort (.invalidLength .seed) s)) ∧
    (∀ k : KeyPair, s.key = .holds k →
      ∃ Q : Point, Q.live Config.curve ∧ Q.affine = affineTimes Config.curve k.kx.toNat Config.curve.base ∧
        exec (.kderive d) s =
          .next { complete s with kp := .holds Q, bregs := s.bregs.set d.val (compress Q) d.isLt }) ∧
    (s.key = .invalid → exec (.kderive d) s = .next (abort (.uninitRegister .keyContext) s))

/-- R131: the two halves of the signature, the key context left as `KEXPAND` would, and the errors in their order. -/
def Obligations.SignResult : Prop :=
  ∀ (s : State) (d a : RegNum),
    (d.val % 2 = 1 → exec (.sign d a) s = .next (abort (.illegalCommand .badRegister) s)) ∧
    (d.val % 2 = 0 → s.klen = 32 → s.mlen.toNat ≤ Config.msgMax →
      ∃ (k : KeyPair) (sb : Bytes32) (M : List Byte) (r h : Nat) (rb : Bytes32),
        M = ((List.range s.mlen.toNat).map fun j => memRead s.msg (0x1000 + j)) ∧
        exec (.kexpand a) s = .next { complete s with key := .holds k, kp := .invalid } ∧
        r = (Config.hash (bytes32 k.kpfx ++ M)).toNat % Config.q ∧
        rb = compressAffine (affineTimes Config.curve r Config.curve.base) ∧
        h = (Config.hash (bytes32 rb ++ M)).toNat % Config.q ∧
        sb.toNat = (r + h * k.kx.toNat) % Config.q ∧
        exec (.sign d a) s =
          .next { complete s with
            key := .holds k, kp := .invalid,
            bregs := (s.bregs.set d.val rb d.isLt).set ((d.val + 1) % 8) sb (Nat.mod_lt _ (by decide)) }) ∧
    (d.val % 2 = 0 → s.klen ≠ 32 → exec (.sign d a) s = .next (abort (.invalidLength .seed) s)) ∧
    (d.val % 2 = 0 → s.klen = 32 → Config.msgMax < s.mlen.toNat → exec (.sign d a) s = .next (abort .msgLength s))

/-- R132, R134, R166, R180: `VALID` is 1 exactly when both points decode and the equation holds, the second half of the
signature taken as it stands; the errors in their order. -/
def Obligations.VerifyResult : Prop :=
  ∀ (s : State) (a b : RegNum),
    (b.val % 2 = 1 → exec (.verify a b) s = .next (abort (.illegalCommand .badRegister) s)) ∧
    (b.val % 2 = 0 → s.klen = 32 → s.slen = 64 → s.mlen.toNat ≤ Config.msgMax →
      ∃ v : Bool, exec (.verify a b) s = .next { complete s with validFlag := v } ∧
        (v = true ↔ ∃ A R : Point, decompress Config.curve (s.b a) = some A ∧
          decompress Config.curve (s.b b) = some R ∧
          affineTimes Config.curve (s.b (pairHigh b)).toNat Config.curve.base =
            affineAdd Config.curve R.affine
              (affineTimes Config.curve ((Config.hash (bytes32 (s.b b) ++
                (List.range s.mlen.toNat).map fun j => memRead s.msg (0x1000 + j))).toNat % Config.q) A.affine))) ∧
    (b.val % 2 = 0 → s.klen ≠ 32 → exec (.verify a b) s = .next (abort (.invalidLength .key) s)) ∧
    (b.val % 2 = 0 → s.klen = 32 → s.slen ≠ 64 →
      exec (.verify a b) s = .next (abort (.invalidLength .signature) s)) ∧
    (b.val % 2 = 0 → s.klen = 32 → s.slen = 64 → Config.msgMax < s.mlen.toNat →
      exec (.verify a b) s = .next (abort .msgLength s))

/-- R135, its first property: what `SIGN` leaves, `VERIFY` accepts under the key `KDERIVE` then leaves, for every seed,
message and hash. -/
def Obligations.SignatureAccepted : Prop :=
  ∀ (s t u : State) (d a e : RegNum), d.val % 2 = 0 → e ≠ d → e ≠ pairHigh d →
    s.klen = 32 → s.slen = 64 → s.mlen.toNat ≤ Config.msgMax →
    exec (.sign d a) s = .next t → exec (.kderive e) t = .next u →
    ∃ v, exec (.verify e d) u = .next v ∧ v.rcCode = 0 ∧ v.validFlag = true

/-- R135, R132 (93_implementation_defined.md U6): of an accepted signature, another second half is accepted exactly when
it is the same residue modulo `q`. The two states hold one key, one first half and one message; a key in the register of
the second half is the same key in both only if the second halves are equal. -/
def Obligations.ScalarHalfDecides : Prop :=
  ∀ (s s' t : State) (a b : RegNum), b.val % 2 = 0 →
    s'.b a = s.b a → s'.b b = s.b b → s'.mlen = s.mlen → s'.msg = s.msg →
    s.klen = 32 → s.slen = 64 → s'.klen = 32 → s'.slen = 64 → s.mlen.toNat ≤ Config.msgMax →
    exec (.verify a b) s = .next t → t.validFlag = true →
    ∃ u, exec (.verify a b) s' = .next u ∧
      u.rcCode = 0 ∧ (u.validFlag = true ↔ (s'.b (pairHigh b)).toNat % Config.q = (s.b (pairHigh b)).toNat % Config.q)

/-! ### Blind-signature commands (44_blind.md) -/

/-- R141. -/
def Obligations.CommitResult : Prop :=
  ∀ (s : State) (d : RegNum), s.issuer = .idle →
    (∀ (k : Draw) (rest : List PortAnswer), s.entropy = .value k :: rest →
      ∃ R : Point, R.live Config.curve ∧ R.affine = affineTimes Config.curve k.val Config.curve.base ∧
        exec (.bcommit d) s =
          .next { complete s with
            entropy := rest, issuer := .commit k R, bregs := s.bregs.set d.val (compress R) d.isLt }) ∧
    (∀ rest : List PortAnswer, s.entropy = .fail :: rest →
      exec (.bcommit d) s = .next (abort .invalidScalarSource { s with entropy := rest })) ∧
    (s.entropy = [] → exec (.bcommit d) s = .next s)

/-- R142: the result of a `BBLIND` whose checks pass, `a` drawn first and then `b`. -/
def Obligations.BlindResult : Prop :=
  ∀ (s : State) (d a b : RegNum) (R P : Point), s.user = .idle → s.mlen.toNat ≤ Config.msgMax →
    decompress Config.curve (s.b a) = some R → decompress Config.curve (s.b b) = some P →
    (∀ (va vb : Draw) (rest : List PortAnswer), s.blindA = none → s.entropy = .value va :: .value vb :: rest →
      ∃ (R' : Point) (e : Bytes32), R'.live Config.curve ∧
        R'.affine = affineAdd Config.curve
          (affineAdd Config.curve R.affine (affineTimes Config.curve va.val Config.curve.base))
          (affineTimes Config.curve vb.val P.affine) ∧
        e.toNat = ((Config.hash (bytes32 (compress R') ++
          (List.range s.mlen.toNat).map fun j => memRead s.msg (0x1000 + j))).toNat % Config.q + vb.val) % Config.q ∧
        exec (.bblind d a b) s =
          .next { complete s with
            entropy := rest, user := .blinded va R', bregs := s.bregs.set d.val e d.isLt }) ∧
    (∀ rest : List PortAnswer, s.blindA = none → s.entropy = .fail :: rest →
      exec (.bblind d a b) s = .next (abort .invalidScalarSource { s with entropy := rest })) ∧
    (∀ (va : Draw) (rest : List PortAnswer), s.blindA = none → s.entropy = .value va :: .fail :: rest →
      exec (.bblind d a b) s = .next (abort .invalidScalarSource { s with entropy := rest }))

/-- R142, R165: the checks of `BBLIND` in their order, none of which draws. -/
def Obligations.BlindErrors : Prop :=
  ∀ (s : State) (d a b : RegNum),
    (s.user ≠ .idle → exec (.bblind d a b) s = .next (abort (.sessionState .user) s)) ∧
    (s.user = .idle → Config.msgMax < s.mlen.toNat → exec (.bblind d a b) s = .next (abort .msgLength s)) ∧
    (s.user = .idle → s.mlen.toNat ≤ Config.msgMax → decompress Config.curve (s.b a) = none →
      exec (.bblind d a b) s = .next (abort (.invalidPoint .ra) s)) ∧
    (∀ R, s.user = .idle → s.mlen.toNat ≤ Config.msgMax → decompress Config.curve (s.b a) = some R →
      decompress Config.curve (s.b b) = none →
      exec (.bblind d a b) s = .next (abort (.invalidPoint .rb) s))

/-- R143. -/
def Obligations.BlindSignResult : Prop :=
  ∀ (s : State) (d a : RegNum) (ik : Draw) (ir : Point), s.issuer = .commit ik ir →
    (∀ k : KeyPair, s.key = .holds k →
      ∃ v : Bytes32, v.toNat = (ik.val + (s.b a).toNat % Config.q * k.kx.toNat) % Config.q ∧
        exec (.bsign d a) s =
          .next { complete s with issuer := .signed ir, bregs := s.bregs.set d.val v d.isLt }) ∧
    (s.key = .invalid → exec (.bsign d a) s = .next (abort (.uninitRegister .keyContext) s))

/-- R144, R145; a pair named by its odd member and a mask out of range are illegal. -/
def Obligations.UnblindDiscard : Prop :=
  (∀ (s : State) (d a : RegNum) (ua : Draw) (urp : Point), d.val % 2 = 0 → s.user = .blinded ua urp →
    ∃ v : Bytes32, v.toNat = ((s.b a).toNat % Config.q + ua.val) % Config.q ∧
      exec (.bunblind d a) s =
        .next { complete s with
          user := .done urp,
          bregs := (s.bregs.set d.val (compress urp) d.isLt).set ((d.val + 1) % 8) v (Nat.mod_lt _ (by decide)) }) ∧
  (∀ s : State,
    exec (.bdiscard 1) s = .next { complete s with issuer := .idle } ∧
    exec (.bdiscard 2) s = .next { complete s with user := .idle } ∧
    exec (.bdiscard 3) s = .next { complete s with issuer := .idle, user := .idle } ∧
    ∀ m : Imm, m = 0 ∨ 3 < m.toNat → exec (.bdiscard m) s = .next (abort (.illegalCommand .badImm) s)) ∧
  (∀ (s : State) (d a : RegNum), d.val % 2 = 1 →
    exec (.bunblind d a) s = .next (abort (.illegalCommand .badRegister) s)) ∧
  (∀ (s : State) (d a : RegNum), d.val % 2 = 0 → s.user.number ≠ 1 →
    exec (.bunblind d a) s = .next (abort (.sessionState .user) s)) ∧
  (∀ d a : RegNum, (encode (.bunblind d a)).toNat = 0x53 * 2 ^ 24 + d.val * 2 ^ 20 + a.val * 2 ^ 16) ∧
  (∀ m : Imm, (encode (.bdiscard m)).toNat = 0x54 * 2 ^ 24 + m.toNat)

/-- R146: correctness of the protocol. The four commands complete in order, on an issuer's core (states `i`) and a user's
(states `u`), `R`, `e` and `s` carried unchanged, the key of `BSIGN` being the one whose public key `BBLIND` was given;
then `VERIFY` accepts what `BUNBLIND` leaves, under that public key and the message of `BBLIND`, on any core. -/
def Obligations.BlindProtocolAccepted : Prop :=
  ∀ (i0 i1 i2 i3 u0 u1 u2 u3 v : State) (k : KeyPair) (cd bd ba bb sd sa ud ua pk sg : RegNum),
    i0.inflight ≠ none → exec (.bcommit cd) i0 = .next i1 → i1.inflight = none → i1.rcCode = 0 →
    u0.inflight ≠ none → u0.b ba = i1.b cd →
    u0.b bb = compressAffine (affineTimes Config.curve k.kx.toNat Config.curve.base) →
    exec (.bblind bd ba bb) u0 = .next u1 → u1.inflight = none → u1.rcCode = 0 →
    i2.issuer = i1.issuer → i2.key = .holds k → i2.b sa = u1.b bd →
    exec (.bsign sd sa) i2 = .next i3 → i3.rcCode = 0 →
    u2.user = u1.user → u2.b ua = i3.b sd →
    ud.val % 2 = 0 → exec (.bunblind ud ua) u2 = .next u3 → u3.rcCode = 0 →
    sg.val % 2 = 0 → v.b pk = u0.b bb → v.b sg = u3.b ud → v.b (pairHigh sg) = u3.b (pairHigh ud) →
    v.klen = 32 → v.slen = 64 → v.mlen = u0.mlen → v.msg = u0.msg →
    ∃ w, exec (.verify pk sg) v = .next w ∧ w.rcCode = 0 ∧ w.validFlag = true

/-! ### Frames: what each family leaves unchanged when it comes to a next state -/

/-- R80: field commands. -/
def Obligations.FieldFrame : Prop :=
  ∀ (i : Instr) (s t : State), i.family = .field → exec i s = .next t →
    (∀ r : RegNum, r ∉ writesF i → t.fregs.get r = s.fregs.get r) ∧
    (∀ r : RegNum, r ∉ writesB i → t.b r = s.b r) ∧
    (∀ a, memRead t.msg a = memRead s.msg a) ∧
    { t with fregs := s.fregs, bregs := s.bregs, inflight := s.inflight, blindA := s.blindA, rcCode := s.rcCode,
             rcInfo := s.rcInfo, errs := s.errs } = s

/-- R95: scalar commands. -/
def Obligations.ScalarFrame : Prop :=
  ∀ (i : Instr) (s t : State), i.family = .scalar → exec i s = .next t →
    (∀ r : RegNum, r ∉ writesS i → t.sregs.get r = s.sregs.get r) ∧
    (∀ r : RegNum, r ∉ writesB i → t.b r = s.b r) ∧
    (∀ a, memRead t.msg a = memRead s.msg a) ∧
    (draws i = false → t.entropy = s.entropy) ∧
    { t with sregs := s.sregs, bregs := s.bregs, inflight := s.inflight, blindA := s.blindA, rcCode := s.rcCode,
             rcInfo := s.rcInfo, errs := s.errs, entropy := s.entropy } = s

/-- R107: point commands. -/
def Obligations.PointFrame : Prop :=
  ∀ (i : Instr) (s t : State), i.family = .point → exec i s = .next t →
    (∀ r : RegNum, r ∉ writesP i → t.pregs.get r = s.pregs.get r) ∧
    (∀ r : RegNum, r ∉ writesB i → t.b r = s.b r) ∧
    (∀ a, memRead t.msg a = memRead s.msg a) ∧
    ((∀ a b, i ≠ .peq a b) → t.eqFlag = s.eqFlag) ∧
    { t with pregs := s.pregs, bregs := s.bregs, eqFlag := s.eqFlag, inflight := s.inflight, blindA := s.blindA,
             rcCode := s.rcCode, rcInfo := s.rcInfo, errs := s.errs } = s

/-- R127: key and signature commands. -/
def Obligations.KeySignFrame : Prop :=
  ∀ (i : Instr) (s t : State), i.family = .keySign → exec i s = .next t →
    (∀ r : RegNum, r ∉ writesB i → t.b r = s.b r) ∧
    (∀ a, memRead t.msg a = memRead s.msg a) ∧
    ((∀ a b, i ≠ .verify a b) → t.validFlag = s.validFlag) ∧
    ((∀ a b, i = .verify a b → t.key = s.key ∧ t.kp = s.kp) ∧ (∀ d, i = .kderive d → t.key = s.key)) ∧
    { t with bregs := s.bregs, validFlag := s.validFlag, key := s.key, kp := s.kp, inflight := s.inflight,
             blindA := s.blindA, rcCode := s.rcCode, rcInfo := s.rcInfo, errs := s.errs } = s

/-- R139: blind-signature commands; the two contexts are independent. -/
def Obligations.BlindFrame : Prop :=
  ∀ (i : Instr) (s t : State), i.family = .blind → exec i s = .next t →
    (∀ r : RegNum, r ∉ writesB i → t.b r = s.b r) ∧
    (∀ a, memRead t.msg a = memRead s.msg a) ∧
    (draws i = false → t.entropy = s.entropy) ∧
    (∀ d, i = .bcommit d → t.user = s.user) ∧ (∀ d a, i = .bsign d a → t.user = s.user) ∧
    (∀ d a b, i = .bblind d a b → t.issuer = s.issuer) ∧ (∀ d a, i = .bunblind d a → t.issuer = s.issuer) ∧
    { t with bregs := s.bregs, issuer := s.issuer, user := s.user, inflight := s.inflight, blindA := s.blindA,
             rcCode := s.rcCode, rcInfo := s.rcInfo, errs := s.errs, entropy := s.entropy } = s

/-- R151: the system and hash commands other than `ZEROIZE`. -/
def Obligations.SystemFrame : Prop :=
  ∀ (i : Instr) (s t : State), i.family = .system → i ≠ .zeroize → exec i s = .next t →
    (∀ a, memRead t.msg a = memRead s.msg a) ∧
    (i = .nop → t.hd = s.hd) ∧
    { t with hd := s.hd, inflight := s.inflight, blindA := s.blindA, rcCode := s.rcCode, rcInfo := s.rcInfo,
             errs := s.errs } = s
end

