-- ==== Sys2Proof/Laws/Prime.lean ====
section
/-! SUPPORT. `p` is prime (R6), by Pratt certificates checked in the kernel, and `F` registers' arithmetic read in the
field `ZMod p`. -/

namespace Sys2Proof.Machine

/-- `acc · b^e mod m` over the low `fuel` bits of `e`. -/
def powModLoop (m : Nat) : (fuel b e acc : Nat) → Nat
  | 0, _, _, acc => acc
  | fuel + 1, b, e, acc => powModLoop m fuel (b * b % m) (e / 2) (if e % 2 = 1 then acc * b % m else acc)

theorem powModLoop_cast (m fuel b e acc : Nat) (he : e < 2 ^ fuel) :
    ((powModLoop m fuel b e acc : Nat) : ZMod m) = acc * (b : ZMod m) ^ e := by
  induction fuel generalizing b e acc with
  | zero => simp at he; simp [powModLoop, he]
  | succ fuel ih =>
    have h2 : e / 2 < 2 ^ fuel := by omega
    rw [powModLoop, ih _ _ _ h2]
    have hb : (((b * b % m : Nat)) : ZMod m) = (b : ZMod m) ^ 2 := by
      rw [ZMod.natCast_mod]; push_cast; ring
    rw [hb, ← pow_mul]
    rcases Nat.mod_two_eq_zero_or_one e with h | h
    · rw [if_neg (by omega)]
      congr 2; omega
    · rw [if_pos h, ZMod.natCast_mod]
      push_cast
      rw [mul_assoc, ← pow_succ']
      congr 2; omega

/-- Lucas's test with a factorisation of `n - 1` into the powers `fs`. -/
theorem prime_of_pratt (n a : Nat) (fs : List (Nat × Nat)) (h0 : n < 2 ^ 256)
    (hf : (fs.map fun f => f.1 ^ f.2).prod = n - 1) (hp : ∀ f ∈ fs, f.1.Prime)
    (h1 : powModLoop n 256 a (n - 1) 1 % n = 1 % n)
    (h2 : ∀ f ∈ fs, powModLoop n 256 a ((n - 1) / f.1) 1 % n ≠ 1 % n) : n.Prime := by
  have key : ∀ e, e < 2 ^ 256 → (powModLoop n 256 a e 1 % n = 1 % n ↔ ((a : ZMod n)) ^ e = 1) := by
    intro e he
    have h := powModLoop_cast n 256 a e 1 he
    push_cast at h
    rw [one_mul] at h
    rw [← h]
    constructor
    · intro hh
      have := (ZMod.natCast_eq_natCast_iff _ _ _).2 hh
      simpa using this
    · intro hh
      apply (ZMod.natCast_eq_natCast_iff _ _ _).1
      simpa using hh
  apply lucas_primality n (a : ZMod n) ((key _ (by omega)).1 h1)
  intro q hq hd
  rw [← hf, Prime.dvd_prod_iff hq.prime] at hd
  obtain ⟨x, hx, hqx⟩ := hd
  obtain ⟨f, hfm, rfl⟩ := List.mem_map.1 hx
  have : q = f.1 := (Nat.prime_dvd_prime_iff_eq hq (hp f hfm)).1 (hq.dvd_of_dvd_pow hqx)
  subst this
  intro h
  exact h2 f hfm ((key _ (lt_of_le_of_lt (Nat.div_le_self _ _) (by omega))).2 h)

theorem prime_31757755568855353 : Nat.Prime 31757755568855353 := by
  refine prime_of_pratt 31757755568855353 10 [(2, 3), (3, 1), (31, 1), (107, 1), (223, 1), (4153, 1), (430751, 1)] (by decide +kernel) (by decide +kernel) ?_ (by decide +kernel) (by decide +kernel)
  simp only [List.forall_mem_cons, List.not_mem_nil, false_implies, implies_true, and_true]
  exact ⟨by norm_num, by norm_num, by norm_num, by norm_num, by norm_num, by norm_num, by norm_num⟩

theorem prime_2773320623 : Nat.Prime 2773320623 := by
  refine prime_of_pratt 2773320623 5 [(2, 1), (2437, 1), (569003, 1)] (by decide +kernel) (by decide +kernel) ?_ (by decide +kernel) (by decide +kernel)
  simp only [List.forall_mem_cons, List.not_mem_nil, false_implies, implies_true, and_true]
  exact ⟨by norm_num, by norm_num, by norm_num⟩

theorem prime_72106336199 : Nat.Prime 72106336199 := by
  refine prime_of_pratt 72106336199 7 [(2, 1), (13, 1), (2773320623, 1)] (by decide +kernel) (by decide +kernel) ?_ (by decide +kernel) (by decide +kernel)
  simp only [List.forall_mem_cons, List.not_mem_nil, false_implies, implies_true, and_true]
  exact ⟨by norm_num, by norm_num, prime_2773320623⟩

theorem prime_1919519569386763 : Nat.Prime 1919519569386763 := by
  refine prime_of_pratt 1919519569386763 2 [(2, 1), (3, 1), (7, 1), (19, 1), (47, 2), (127, 1), (8574133, 1)] (by decide +kernel) (by decide +kernel) ?_ (by decide +kernel) (by decide +kernel)
  simp only [List.forall_mem_cons, List.not_mem_nil, false_implies, implies_true, and_true]
  exact ⟨by norm_num, by norm_num, by norm_num, by norm_num, by norm_num, by norm_num, by norm_num⟩

theorem prime_factor2 : Nat.Prime 75445702479781427272750846543864801 := by
  refine prime_of_pratt 75445702479781427272750846543864801 7 [(2, 5), (3, 2), (5, 2), (75707, 1), (72106336199, 1), (1919519569386763, 1)] (by decide +kernel) (by decide +kernel) ?_ (by decide +kernel) (by decide +kernel)
  simp only [List.forall_mem_cons, List.not_mem_nil, false_implies, implies_true, and_true]
  exact ⟨by norm_num, by norm_num, by norm_num, by norm_num, prime_72106336199, prime_1919519569386763⟩

theorem prime_factor1 : Nat.Prime 74058212732561358302231226437062788676166966415465897661863160754340907 := by
  refine prime_of_pratt 74058212732561358302231226437062788676166966415465897661863160754340907 2 [(2, 1), (3, 1), (353, 1), (57467, 1), (132049, 1), (1923133, 1), (31757755568855353, 1), (75445702479781427272750846543864801, 1)] (by decide +kernel) (by decide +kernel) ?_ (by decide +kernel) (by decide +kernel)
  simp only [List.forall_mem_cons, List.not_mem_nil, false_implies, implies_true, and_true]
  exact ⟨by norm_num, by norm_num, by norm_num, by norm_num, by norm_num, by norm_num, prime_31757755568855353, prime_factor2⟩

theorem p_prime : Nat.Prime Config.p := by
  refine prime_of_pratt Config.p 2 [(2, 2), (3, 1), (65147, 1), (74058212732561358302231226437062788676166966415465897661863160754340907, 1)] (by decide +kernel) (by decide +kernel) ?_ (by decide +kernel) (by decide +kernel)
  simp only [List.forall_mem_cons, List.not_mem_nil, false_implies, implies_true, and_true]
  exact ⟨by norm_num, by norm_num, by norm_num, prime_factor1⟩


end Sys2Proof.Machine
end

