-- ==== Sys2Proof/Laws/Arith.lean ====
section
/-! SUPPORT. The arithmetic functions read in the ring `ZMod p`: each names the residue it computes, and equality of
field elements is equality there. -/

namespace Sys2Proof.Machine

/-- A field element in the field `ZMod p`. -/
def fpCast (x : Fp) : ZMod Config.p := (x.val : ZMod Config.p)

theorem fpCast_inj {x y : Fp} : fpCast x = fpCast y ↔ x = y := by
  constructor
  · intro h
    have h := (ZMod.natCast_eq_natCast_iff _ _ _).1 h
    exact Fin.ext (by simpa [Nat.ModEq, Nat.mod_eq_of_lt x.isLt, Nat.mod_eq_of_lt y.isLt] using h)
  · rintro rfl; rfl

@[simp] theorem fpOf_val (n : Nat) : (fpOf n).val = n % Config.p := rfl

@[simp] theorem fqOf_val (n : Nat) : (fqOf n).val = n % Config.q := rfl

@[simp] theorem fpCast_fpOf (n : Nat) : fpCast (fpOf n) = (n : ZMod Config.p) := by
  simp [fpCast, ZMod.natCast_mod]

@[simp] theorem fpCast_add (a b : Fp) : fpCast (fpAdd a b) = fpCast a + fpCast b := by
  simp [fpAdd, fpCast]

@[simp] theorem fpCast_mul (a b : Fp) : fpCast (fpMul a b) = fpCast a * fpCast b := by
  simp [fpMul, fpCast]

@[simp] theorem fpCast_sub (a b : Fp) : fpCast (fpSub a b) = fpCast a - fpCast b := by
  rw [fpSub, fpCast_fpOf, Nat.cast_add, Nat.cast_sub b.isLt.le]
  simp [fpCast, sub_eq_add_neg]

@[simp] theorem fpCast_neg (a : Fp) : fpCast (fpNeg a) = - fpCast a := by
  rw [fpNeg, fpCast_fpOf, Nat.cast_sub a.isLt.le]
  simp [fpCast]

theorem fpCast_powLoop (fuel : Nat) (b : Fp) (e : Nat) (acc : Fp) (he : e < 2 ^ fuel) :
    fpCast (fpPowLoop fuel b e acc) = fpCast acc * fpCast b ^ e := by
  induction fuel generalizing b e acc with
  | zero => simp at he; simp [fpPowLoop, he]
  | succ fuel ih =>
    rw [fpPowLoop, ih _ _ _ (by omega), fpCast_mul, ← pow_two, ← pow_mul]
    rcases Nat.mod_two_eq_zero_or_one e with h | h
    · rw [if_neg (by omega)]; congr 2; omega
    · rw [if_pos h, fpCast_mul, mul_assoc, ← pow_succ']; congr 2; omega

/-- `fpPow` is the power of the spec, for every exponent of at most 256 bits. -/
theorem fpCast_pow (a : Fp) (e : Nat) (he : e < 2 ^ 256) : fpCast (fpPow a e) = fpCast a ^ e := by
  simp [fpPow, fpCast_powLoop _ _ _ _ he]

/-- `fpPow` as a residue of a natural power. -/
theorem fpPow_val (a : Fp) (e : Nat) (he : e < 2 ^ 256) : (fpPow a e).val = a.val ^ e % Config.p := by
  have h := fpCast_pow a e he
  rw [fpCast, fpCast, ← Nat.cast_pow, ZMod.natCast_eq_natCast_iff, Nat.ModEq,
    Nat.mod_eq_of_lt (fpPow a e).isLt] at h
  exact h

theorem fact_p_prime : Fact Config.p.Prime := ⟨p_prime⟩

/-- `fpInv` is the inverse of the field, 0 at 0. -/
@[simp] theorem fpCast_inv (a : Fp) : fpCast (fpInv a) = (fpCast a)⁻¹ := by
  have := fact_p_prime
  rw [fpInv, fpCast_pow _ _ (by decide)]
  by_cases h : fpCast a = 0
  · rw [h, inv_zero, zero_pow (by decide)]
  · apply eq_inv_of_mul_eq_one_left
    rw [← pow_succ]
    exact ZMod.pow_card_sub_one_eq_one h

@[simp] theorem fpCast_zero : fpCast (fpOf 0) = 0 := by simp

@[simp] theorem fpCast_one : fpCast (fpOf 1) = 1 := by simp

theorem fpCast_eq_zero {a : Fp} : fpCast a = 0 ↔ a = fpOf 0 := by
  rw [← fpCast_zero, fpCast_inj]

/-- `SQRT_M1 = 2^((p-1)/4) mod p` (R20). -/
theorem sqrtM1_eq : Config.sqrtM1 = fpPow (fpOf 2) ((Config.p - 1) / 4) := by decide +kernel

/-- `SQRT_M1` squares to `p - 1` (R20). -/
theorem sqrtM1_sq : fpMul Config.sqrtM1 Config.sqrtM1 = fpNeg (fpOf 1) := by decide +kernel

end Sys2Proof.Machine
end

