-- ==== Sys2Proof/Laws/Memory.lean ====
section
/-! SUPPORT. The laws of the message buffer: a byte read after a write, the canonical form kept by every write, and where
listed offsets can stand. -/

namespace Sys2Proof.Machine

theorem memRead_memWrite_same (m : List Host.Cell) (a : Nat) (v : Byte) (h : Memory.wf m = true) :
    memRead (memWrite m a v) a = v := by
  suffices H : ∀ lo, Memory.wfFrom lo m = true → memRead (memWrite m a v) a = v from H 0 h
  clear h
  induction m with
  | nil => intro lo _; by_cases hv : v = unlisted <;> simp [memWrite, memRead, hv]
  | cons c rest ih =>
    obtain ⟨x, b⟩ := c
    intro lo hw
    simp only [Memory.wfFrom, Bool.and_eq_true, decide_eq_true_eq] at hw
    have absent : ∀ (l : List Host.Cell) (k : Nat), a < k → Memory.wfFrom k l = true → memRead l a = unlisted := by
      intro l
      induction l with
      | nil => intros; rfl
      | cons d l ihl =>
        obtain ⟨y, e⟩ := d
        intro k hk hl
        simp only [Memory.wfFrom, Bool.and_eq_true, decide_eq_true_eq] at hl
        have : y ≠ a := by omega
        simp only [memRead, if_neg this]
        exact ihl (y + 1) (by omega) hl.2
    unfold memWrite
    split
    · rename_i hlt
      split
      · rename_i hv
        have hx : x ≠ a := by omega
        simp only [memRead, if_neg hx, hv]
        exact absent rest (x + 1) (by omega) hw.2
      · simp [memRead]
    · split
      · rename_i hge heq
        split
        · rename_i hv
          rw [hv]; exact absent rest (x + 1) (by omega) hw.2
        · simp [memRead]
      · rename_i hge hne
        have hx : x ≠ a := by omega
        simp only [memRead, if_neg hx]
        exact ih (x + 1) hw.2

theorem memRead_memWrite_other (m : List Host.Cell) (a a' : Nat) (v : Byte) (h : a' ≠ a) :
    memRead (memWrite m a v) a' = memRead m a' := by
  induction m with
  | nil => by_cases hv : v = unlisted <;> simp [memWrite, memRead, hv, h.symm]
  | cons c rest ih =>
    obtain ⟨x, b⟩ := c
    unfold memWrite
    split
    · split <;> simp [memRead, h.symm]
    · split
      · rename_i heq
        have hx : x ≠ a' := by omega
        split <;> simp [memRead, h.symm, hx]
      · simp only [memRead, ih]

theorem memWrite_wfFrom (m : List Host.Cell) (a lo : Nat) (v : Byte) (hlo : lo ≤ a)
    (h : Memory.wfFrom lo m = true) : Memory.wfFrom lo (memWrite m a v) = true := by
  induction m generalizing lo with
  | nil => by_cases hv : v = unlisted <;> simp [memWrite, Memory.wfFrom, hv, hlo]
  | cons c rest ih =>
    obtain ⟨x, b⟩ := c
    have hw := h
    simp only [Memory.wfFrom, Bool.and_eq_true, decide_eq_true_eq] at hw
    unfold memWrite
    split
    · split
      · exact h
      · rename_i hlt hv
        simp only [Memory.wfFrom, Bool.and_eq_true, decide_eq_true_eq, bne_iff_ne, ne_eq]
        exact ⟨⟨hlo, hv⟩, ⟨⟨hlt, by simpa using hw.1.2⟩, hw.2⟩⟩
    · split
      · rename_i heq
        split
        · exact wfFrom_mono rest (x + 1) lo (by omega) hw.2
        · rename_i hv
          subst heq
          simp only [Memory.wfFrom, Bool.and_eq_true, decide_eq_true_eq, bne_iff_ne, ne_eq]
          exact ⟨⟨hlo, hv⟩, hw.2⟩
      · simp only [Memory.wfFrom, Bool.and_eq_true, decide_eq_true_eq]
        exact ⟨hw.1, ih (x + 1) (by omega) hw.2⟩
where
  wfFrom_mono (l : List Host.Cell) (k k' : Nat) (hk : k' ≤ k) (hl : Memory.wfFrom k l = true) :
      Memory.wfFrom k' l = true := by
    cases l with
    | nil => rfl
    | cons d l =>
      obtain ⟨y, e⟩ := d
      simp only [Memory.wfFrom, Bool.and_eq_true, decide_eq_true_eq] at hl ⊢
      exact ⟨⟨by omega, hl.1.2⟩, hl.2⟩

/-- Every byte write keeps the canonical form. -/
theorem memWrite_wf (m : List Host.Cell) (a : Nat) (v : Byte) (h : Memory.wf m = true) :
    Memory.wf (memWrite m a v) = true := memWrite_wfFrom m a 0 v (Nat.zero_le _) h

/-- Every word write keeps the canonical form. -/
theorem memWriteWord_wf (m : List Host.Cell) (a : Nat) (w : Word) (h : Memory.wf m = true) :
    Memory.wf (memWriteWord m a w) = true :=
  memWrite_wf _ _ _ (memWrite_wf _ _ _ (memWrite_wf _ _ _ (memWrite_wf _ _ _ h)))

/-- The buffer after reset is canonical. -/
theorem reset_memory_wf : Memory.wf State.reset.msg = true := rfl

/-- A write lists no offset but its own. -/
theorem mem_memWrite (m : List Host.Cell) (a : Nat) (v : Byte) (c : Host.Cell) (h : c ∈ memWrite m a v) :
    c.1 = a ∨ c ∈ m := by
  induction m with
  | nil => by_cases hv : v = unlisted <;> simp_all [memWrite]
  | cons d rest ih =>
    obtain ⟨x, b⟩ := d
    unfold memWrite at h
    split at h
    · split at h
      · exact .inr h
      · rcases List.mem_cons.1 h with rfl | h
        · exact .inl rfl
        · exact .inr h
    · split at h
      · split at h
        · exact .inr (List.mem_cons_of_mem _ h)
        · rcases List.mem_cons.1 h with rfl | h
          · exact .inl rfl
          · exact .inr (List.mem_cons_of_mem _ h)
      · rcases List.mem_cons.1 h with rfl | h
        · exact .inr (by simp)
        · exact (ih h).imp_right (List.mem_cons_of_mem _)

/-- A word write lists no offset but its own four. -/
theorem mem_memWriteWord (m : List Host.Cell) (a : Nat) (w : Word) (c : Host.Cell) (h : c ∈ memWriteWord m a w) :
    (a ≤ c.1 ∧ c.1 < a + 4) ∨ c ∈ m := by
  rcases mem_memWrite _ _ _ _ h with h | h
  · omega
  rcases mem_memWrite _ _ _ _ h with h | h
  · omega
  rcases mem_memWrite _ _ _ _ h with h | h
  · omega
  rcases mem_memWrite _ _ _ _ h with h | h
  · omega
  · exact .inr h

/-- What the buffer holds after a word write. -/
theorem memRead_memWriteWord (m : List Host.Cell) (a a' : Nat) (w : Word) (h : Memory.wf m = true) :
    memRead (memWriteWord m a w) a' =
      if a ≤ a' ∧ a' < a + 4 then byteOf w (a' - a) else memRead m a' := by
  unfold memWriteWord
  have w1 := memWrite_wf m a (byteOf w 0) h
  have w2 := memWrite_wf _ (a + 1) (byteOf w 1) w1
  have w3 := memWrite_wf _ (a + 2) (byteOf w 2) w2
  by_cases h3 : a' = a + 3
  · subst h3; rw [memRead_memWrite_same _ _ _ w3, if_pos (by omega)]; congr 1; omega
  rw [memRead_memWrite_other _ _ _ _ h3]
  by_cases h2 : a' = a + 2
  · subst h2; rw [memRead_memWrite_same _ _ _ w2, if_pos (by omega)]; congr 1; omega
  rw [memRead_memWrite_other _ _ _ _ h2]
  by_cases h1 : a' = a + 1
  · subst h1; rw [memRead_memWrite_same _ _ _ w1, if_pos (by omega)]; congr 1; omega
  rw [memRead_memWrite_other _ _ _ _ h1]
  by_cases h0 : a' = a
  · subst h0; rw [memRead_memWrite_same _ _ _ h, if_pos (by omega)]; congr 1; omega
  rw [memRead_memWrite_other _ _ _ _ h0, if_neg (by omega)]

end Sys2Proof.Machine
end

