-- ==== Sys2Proof/Laws/State.lean ====
section
/-! SUPPORT. One lemma per field per named update of the state, and what the register files hold after a write. -/

namespace Sys2Proof.Machine

/-! ### `State.setF` -/

@[simp] theorem State.setF_fregs (s : State) (i : RegNum) (v : Fp) : (s.setF i v).fregs = s.fregs.set i.val (.holds v) i.isLt := rfl
@[simp] theorem State.setF_sregs (s : State) (i : RegNum) (v : Fp) : (s.setF i v).sregs = s.sregs := rfl
@[simp] theorem State.setF_pregs (s : State) (i : RegNum) (v : Fp) : (s.setF i v).pregs = s.pregs := rfl
@[simp] theorem State.setF_bregs (s : State) (i : RegNum) (v : Fp) : (s.setF i v).bregs = s.bregs := rfl
@[simp] theorem State.setF_hd (s : State) (i : RegNum) (v : Fp) : (s.setF i v).hd = s.hd := rfl
@[simp] theorem State.setF_msg (s : State) (i : RegNum) (v : Fp) : (s.setF i v).msg = s.msg := rfl
@[simp] theorem State.setF_key (s : State) (i : RegNum) (v : Fp) : (s.setF i v).key = s.key := rfl
@[simp] theorem State.setF_kp (s : State) (i : RegNum) (v : Fp) : (s.setF i v).kp = s.kp := rfl
@[simp] theorem State.setF_issuer (s : State) (i : RegNum) (v : Fp) : (s.setF i v).issuer = s.issuer := rfl
@[simp] theorem State.setF_user (s : State) (i : RegNum) (v : Fp) : (s.setF i v).user = s.user := rfl
@[simp] theorem State.setF_eqFlag (s : State) (i : RegNum) (v : Fp) : (s.setF i v).eqFlag = s.eqFlag := rfl
@[simp] theorem State.setF_validFlag (s : State) (i : RegNum) (v : Fp) : (s.setF i v).validFlag = s.validFlag := rfl
@[simp] theorem State.setF_inflight (s : State) (i : RegNum) (v : Fp) : (s.setF i v).inflight = s.inflight := rfl
@[simp] theorem State.setF_blindA (s : State) (i : RegNum) (v : Fp) : (s.setF i v).blindA = s.blindA := rfl
@[simp] theorem State.setF_rcCode (s : State) (i : RegNum) (v : Fp) : (s.setF i v).rcCode = s.rcCode := rfl
@[simp] theorem State.setF_rcInfo (s : State) (i : RegNum) (v : Fp) : (s.setF i v).rcInfo = s.rcInfo := rfl
@[simp] theorem State.setF_errs (s : State) (i : RegNum) (v : Fp) : (s.setF i v).errs = s.errs := rfl
@[simp] theorem State.setF_mlen (s : State) (i : RegNum) (v : Fp) : (s.setF i v).mlen = s.mlen := rfl
@[simp] theorem State.setF_klen (s : State) (i : RegNum) (v : Fp) : (s.setF i v).klen = s.klen := rfl
@[simp] theorem State.setF_slen (s : State) (i : RegNum) (v : Fp) : (s.setF i v).slen = s.slen := rfl
@[simp] theorem State.setF_entropy (s : State) (i : RegNum) (v : Fp) : (s.setF i v).entropy = s.entropy := rfl
@[simp] theorem State.setF_events (s : State) (i : RegNum) (v : Fp) : (s.setF i v).events = s.events := rfl
@[simp] theorem State.setF_answer (s : State) (i : RegNum) (v : Fp) : (s.setF i v).answer = s.answer := rfl

/-! ### `State.setS` -/

@[simp] theorem State.setS_fregs (s : State) (i : RegNum) (v : Fq) : (s.setS i v).fregs = s.fregs := rfl
@[simp] theorem State.setS_sregs (s : State) (i : RegNum) (v : Fq) : (s.setS i v).sregs = s.sregs.set i.val (.holds v) i.isLt := rfl
@[simp] theorem State.setS_pregs (s : State) (i : RegNum) (v : Fq) : (s.setS i v).pregs = s.pregs := rfl
@[simp] theorem State.setS_bregs (s : State) (i : RegNum) (v : Fq) : (s.setS i v).bregs = s.bregs := rfl
@[simp] theorem State.setS_hd (s : State) (i : RegNum) (v : Fq) : (s.setS i v).hd = s.hd := rfl
@[simp] theorem State.setS_msg (s : State) (i : RegNum) (v : Fq) : (s.setS i v).msg = s.msg := rfl
@[simp] theorem State.setS_key (s : State) (i : RegNum) (v : Fq) : (s.setS i v).key = s.key := rfl
@[simp] theorem State.setS_kp (s : State) (i : RegNum) (v : Fq) : (s.setS i v).kp = s.kp := rfl
@[simp] theorem State.setS_issuer (s : State) (i : RegNum) (v : Fq) : (s.setS i v).issuer = s.issuer := rfl
@[simp] theorem State.setS_user (s : State) (i : RegNum) (v : Fq) : (s.setS i v).user = s.user := rfl
@[simp] theorem State.setS_eqFlag (s : State) (i : RegNum) (v : Fq) : (s.setS i v).eqFlag = s.eqFlag := rfl
@[simp] theorem State.setS_validFlag (s : State) (i : RegNum) (v : Fq) : (s.setS i v).validFlag = s.validFlag := rfl
@[simp] theorem State.setS_inflight (s : State) (i : RegNum) (v : Fq) : (s.setS i v).inflight = s.inflight := rfl
@[simp] theorem State.setS_blindA (s : State) (i : RegNum) (v : Fq) : (s.setS i v).blindA = s.blindA := rfl
@[simp] theorem State.setS_rcCode (s : State) (i : RegNum) (v : Fq) : (s.setS i v).rcCode = s.rcCode := rfl
@[simp] theorem State.setS_rcInfo (s : State) (i : RegNum) (v : Fq) : (s.setS i v).rcInfo = s.rcInfo := rfl
@[simp] theorem State.setS_errs (s : State) (i : RegNum) (v : Fq) : (s.setS i v).errs = s.errs := rfl
@[simp] theorem State.setS_mlen (s : State) (i : RegNum) (v : Fq) : (s.setS i v).mlen = s.mlen := rfl
@[simp] theorem State.setS_klen (s : State) (i : RegNum) (v : Fq) : (s.setS i v).klen = s.klen := rfl
@[simp] theorem State.setS_slen (s : State) (i : RegNum) (v : Fq) : (s.setS i v).slen = s.slen := rfl
@[simp] theorem State.setS_entropy (s : State) (i : RegNum) (v : Fq) : (s.setS i v).entropy = s.entropy := rfl
@[simp] theorem State.setS_events (s : State) (i : RegNum) (v : Fq) : (s.setS i v).events = s.events := rfl
@[simp] theorem State.setS_answer (s : State) (i : RegNum) (v : Fq) : (s.setS i v).answer = s.answer := rfl

/-! ### `State.setP` -/

@[simp] theorem State.setP_fregs (s : State) (i : RegNum) (Q : Point) : (s.setP i Q).fregs = s.fregs := rfl
@[simp] theorem State.setP_sregs (s : State) (i : RegNum) (Q : Point) : (s.setP i Q).sregs = s.sregs := rfl
@[simp] theorem State.setP_pregs (s : State) (i : RegNum) (Q : Point) : (s.setP i Q).pregs = s.pregs.set i.val (.holds Q) i.isLt := rfl
@[simp] theorem State.setP_bregs (s : State) (i : RegNum) (Q : Point) : (s.setP i Q).bregs = s.bregs := rfl
@[simp] theorem State.setP_hd (s : State) (i : RegNum) (Q : Point) : (s.setP i Q).hd = s.hd := rfl
@[simp] theorem State.setP_msg (s : State) (i : RegNum) (Q : Point) : (s.setP i Q).msg = s.msg := rfl
@[simp] theorem State.setP_key (s : State) (i : RegNum) (Q : Point) : (s.setP i Q).key = s.key := rfl
@[simp] theorem State.setP_kp (s : State) (i : RegNum) (Q : Point) : (s.setP i Q).kp = s.kp := rfl
@[simp] theorem State.setP_issuer (s : State) (i : RegNum) (Q : Point) : (s.setP i Q).issuer = s.issuer := rfl
@[simp] theorem State.setP_user (s : State) (i : RegNum) (Q : Point) : (s.setP i Q).user = s.user := rfl
@[simp] theorem State.setP_eqFlag (s : State) (i : RegNum) (Q : Point) : (s.setP i Q).eqFlag = s.eqFlag := rfl
@[simp] theorem State.setP_validFlag (s : State) (i : RegNum) (Q : Point) : (s.setP i Q).validFlag = s.validFlag := rfl
@[simp] theorem State.setP_inflight (s : State) (i : RegNum) (Q : Point) : (s.setP i Q).inflight = s.inflight := rfl
@[simp] theorem State.setP_blindA (s : State) (i : RegNum) (Q : Point) : (s.setP i Q).blindA = s.blindA := rfl
@[simp] theorem State.setP_rcCode (s : State) (i : RegNum) (Q : Point) : (s.setP i Q).rcCode = s.rcCode := rfl
@[simp] theorem State.setP_rcInfo (s : State) (i : RegNum) (Q : Point) : (s.setP i Q).rcInfo = s.rcInfo := rfl
@[simp] theorem State.setP_errs (s : State) (i : RegNum) (Q : Point) : (s.setP i Q).errs = s.errs := rfl
@[simp] theorem State.setP_mlen (s : State) (i : RegNum) (Q : Point) : (s.setP i Q).mlen = s.mlen := rfl
@[simp] theorem State.setP_klen (s : State) (i : RegNum) (Q : Point) : (s.setP i Q).klen = s.klen := rfl
@[simp] theorem State.setP_slen (s : State) (i : RegNum) (Q : Point) : (s.setP i Q).slen = s.slen := rfl
@[simp] theorem State.setP_entropy (s : State) (i : RegNum) (Q : Point) : (s.setP i Q).entropy = s.entropy := rfl
@[simp] theorem State.setP_events (s : State) (i : RegNum) (Q : Point) : (s.setP i Q).events = s.events := rfl
@[simp] theorem State.setP_answer (s : State) (i : RegNum) (Q : Point) : (s.setP i Q).answer = s.answer := rfl

/-! ### `State.setB` -/

@[simp] theorem State.setB_fregs (s : State) (i : RegNum) (b : Bytes32) : (s.setB i b).fregs = s.fregs := rfl
@[simp] theorem State.setB_sregs (s : State) (i : RegNum) (b : Bytes32) : (s.setB i b).sregs = s.sregs := rfl
@[simp] theorem State.setB_pregs (s : State) (i : RegNum) (b : Bytes32) : (s.setB i b).pregs = s.pregs := rfl
@[simp] theorem State.setB_bregs (s : State) (i : RegNum) (b : Bytes32) : (s.setB i b).bregs = s.bregs.set i.val b i.isLt := rfl
@[simp] theorem State.setB_hd (s : State) (i : RegNum) (b : Bytes32) : (s.setB i b).hd = s.hd := rfl
@[simp] theorem State.setB_msg (s : State) (i : RegNum) (b : Bytes32) : (s.setB i b).msg = s.msg := rfl
@[simp] theorem State.setB_key (s : State) (i : RegNum) (b : Bytes32) : (s.setB i b).key = s.key := rfl
@[simp] theorem State.setB_kp (s : State) (i : RegNum) (b : Bytes32) : (s.setB i b).kp = s.kp := rfl
@[simp] theorem State.setB_issuer (s : State) (i : RegNum) (b : Bytes32) : (s.setB i b).issuer = s.issuer := rfl
@[simp] theorem State.setB_user (s : State) (i : RegNum) (b : Bytes32) : (s.setB i b).user = s.user := rfl
@[simp] theorem State.setB_eqFlag (s : State) (i : RegNum) (b : Bytes32) : (s.setB i b).eqFlag = s.eqFlag := rfl
@[simp] theorem State.setB_validFlag (s : State) (i : RegNum) (b : Bytes32) : (s.setB i b).validFlag = s.validFlag := rfl
@[simp] theorem State.setB_inflight (s : State) (i : RegNum) (b : Bytes32) : (s.setB i b).inflight = s.inflight := rfl
@[simp] theorem State.setB_blindA (s : State) (i : RegNum) (b : Bytes32) : (s.setB i b).blindA = s.blindA := rfl
@[simp] theorem State.setB_rcCode (s : State) (i : RegNum) (b : Bytes32) : (s.setB i b).rcCode = s.rcCode := rfl
@[simp] theorem State.setB_rcInfo (s : State) (i : RegNum) (b : Bytes32) : (s.setB i b).rcInfo = s.rcInfo := rfl
@[simp] theorem State.setB_errs (s : State) (i : RegNum) (b : Bytes32) : (s.setB i b).errs = s.errs := rfl
@[simp] theorem State.setB_mlen (s : State) (i : RegNum) (b : Bytes32) : (s.setB i b).mlen = s.mlen := rfl
@[simp] theorem State.setB_klen (s : State) (i : RegNum) (b : Bytes32) : (s.setB i b).klen = s.klen := rfl
@[simp] theorem State.setB_slen (s : State) (i : RegNum) (b : Bytes32) : (s.setB i b).slen = s.slen := rfl
@[simp] theorem State.setB_entropy (s : State) (i : RegNum) (b : Bytes32) : (s.setB i b).entropy = s.entropy := rfl
@[simp] theorem State.setB_events (s : State) (i : RegNum) (b : Bytes32) : (s.setB i b).events = s.events := rfl
@[simp] theorem State.setB_answer (s : State) (i : RegNum) (b : Bytes32) : (s.setB i b).answer = s.answer := rfl

/-! ### `State.setPair` -/

@[simp] theorem State.setPair_fregs (s : State) (n : RegNum) (lo hi : Bytes32) : (s.setPair n lo hi).fregs = s.fregs := rfl
@[simp] theorem State.setPair_sregs (s : State) (n : RegNum) (lo hi : Bytes32) : (s.setPair n lo hi).sregs = s.sregs := rfl
@[simp] theorem State.setPair_pregs (s : State) (n : RegNum) (lo hi : Bytes32) : (s.setPair n lo hi).pregs = s.pregs := rfl
@[simp] theorem State.setPair_bregs (s : State) (n : RegNum) (lo hi : Bytes32) : (s.setPair n lo hi).bregs = (s.bregs.set n.val lo n.isLt).set (pairHigh n).val hi (pairHigh n).isLt := rfl
@[simp] theorem State.setPair_hd (s : State) (n : RegNum) (lo hi : Bytes32) : (s.setPair n lo hi).hd = s.hd := rfl
@[simp] theorem State.setPair_msg (s : State) (n : RegNum) (lo hi : Bytes32) : (s.setPair n lo hi).msg = s.msg := rfl
@[simp] theorem State.setPair_key (s : State) (n : RegNum) (lo hi : Bytes32) : (s.setPair n lo hi).key = s.key := rfl
@[simp] theorem State.setPair_kp (s : State) (n : RegNum) (lo hi : Bytes32) : (s.setPair n lo hi).kp = s.kp := rfl
@[simp] theorem State.setPair_issuer (s : State) (n : RegNum) (lo hi : Bytes32) : (s.setPair n lo hi).issuer = s.issuer := rfl
@[simp] theorem State.setPair_user (s : State) (n : RegNum) (lo hi : Bytes32) : (s.setPair n lo hi).user = s.user := rfl
@[simp] theorem State.setPair_eqFlag (s : State) (n : RegNum) (lo hi : Bytes32) : (s.setPair n lo hi).eqFlag = s.eqFlag := rfl
@[simp] theorem State.setPair_validFlag (s : State) (n : RegNum) (lo hi : Bytes32) : (s.setPair n lo hi).validFlag = s.validFlag := rfl
@[simp] theorem State.setPair_inflight (s : State) (n : RegNum) (lo hi : Bytes32) : (s.setPair n lo hi).inflight = s.inflight := rfl
@[simp] theorem State.setPair_blindA (s : State) (n : RegNum) (lo hi : Bytes32) : (s.setPair n lo hi).blindA = s.blindA := rfl
@[simp] theorem State.setPair_rcCode (s : State) (n : RegNum) (lo hi : Bytes32) : (s.setPair n lo hi).rcCode = s.rcCode := rfl
@[simp] theorem State.setPair_rcInfo (s : State) (n : RegNum) (lo hi : Bytes32) : (s.setPair n lo hi).rcInfo = s.rcInfo := rfl
@[simp] theorem State.setPair_errs (s : State) (n : RegNum) (lo hi : Bytes32) : (s.setPair n lo hi).errs = s.errs := rfl
@[simp] theorem State.setPair_mlen (s : State) (n : RegNum) (lo hi : Bytes32) : (s.setPair n lo hi).mlen = s.mlen := rfl
@[simp] theorem State.setPair_klen (s : State) (n : RegNum) (lo hi : Bytes32) : (s.setPair n lo hi).klen = s.klen := rfl
@[simp] theorem State.setPair_slen (s : State) (n : RegNum) (lo hi : Bytes32) : (s.setPair n lo hi).slen = s.slen := rfl
@[simp] theorem State.setPair_entropy (s : State) (n : RegNum) (lo hi : Bytes32) : (s.setPair n lo hi).entropy = s.entropy := rfl
@[simp] theorem State.setPair_events (s : State) (n : RegNum) (lo hi : Bytes32) : (s.setPair n lo hi).events = s.events := rfl
@[simp] theorem State.setPair_answer (s : State) (n : RegNum) (lo hi : Bytes32) : (s.setPair n lo hi).answer = s.answer := rfl

/-! ### `State.setHd` -/

@[simp] theorem State.setHd_fregs (s : State) (d : Bytes64) : (s.setHd d).fregs = s.fregs := rfl
@[simp] theorem State.setHd_sregs (s : State) (d : Bytes64) : (s.setHd d).sregs = s.sregs := rfl
@[simp] theorem State.setHd_pregs (s : State) (d : Bytes64) : (s.setHd d).pregs = s.pregs := rfl
@[simp] theorem State.setHd_bregs (s : State) (d : Bytes64) : (s.setHd d).bregs = s.bregs := rfl
@[simp] theorem State.setHd_hd (s : State) (d : Bytes64) : (s.setHd d).hd = d := rfl
@[simp] theorem State.setHd_msg (s : State) (d : Bytes64) : (s.setHd d).msg = s.msg := rfl
@[simp] theorem State.setHd_key (s : State) (d : Bytes64) : (s.setHd d).key = s.key := rfl
@[simp] theorem State.setHd_kp (s : State) (d : Bytes64) : (s.setHd d).kp = s.kp := rfl
@[simp] theorem State.setHd_issuer (s : State) (d : Bytes64) : (s.setHd d).issuer = s.issuer := rfl
@[simp] theorem State.setHd_user (s : State) (d : Bytes64) : (s.setHd d).user = s.user := rfl
@[simp] theorem State.setHd_eqFlag (s : State) (d : Bytes64) : (s.setHd d).eqFlag = s.eqFlag := rfl
@[simp] theorem State.setHd_validFlag (s : State) (d : Bytes64) : (s.setHd d).validFlag = s.validFlag := rfl
@[simp] theorem State.setHd_inflight (s : State) (d : Bytes64) : (s.setHd d).inflight = s.inflight := rfl
@[simp] theorem State.setHd_blindA (s : State) (d : Bytes64) : (s.setHd d).blindA = s.blindA := rfl
@[simp] theorem State.setHd_rcCode (s : State) (d : Bytes64) : (s.setHd d).rcCode = s.rcCode := rfl
@[simp] theorem State.setHd_rcInfo (s : State) (d : Bytes64) : (s.setHd d).rcInfo = s.rcInfo := rfl
@[simp] theorem State.setHd_errs (s : State) (d : Bytes64) : (s.setHd d).errs = s.errs := rfl
@[simp] theorem State.setHd_mlen (s : State) (d : Bytes64) : (s.setHd d).mlen = s.mlen := rfl
@[simp] theorem State.setHd_klen (s : State) (d : Bytes64) : (s.setHd d).klen = s.klen := rfl
@[simp] theorem State.setHd_slen (s : State) (d : Bytes64) : (s.setHd d).slen = s.slen := rfl
@[simp] theorem State.setHd_entropy (s : State) (d : Bytes64) : (s.setHd d).entropy = s.entropy := rfl
@[simp] theorem State.setHd_events (s : State) (d : Bytes64) : (s.setHd d).events = s.events := rfl
@[simp] theorem State.setHd_answer (s : State) (d : Bytes64) : (s.setHd d).answer = s.answer := rfl

/-! ### `State.setKey` -/

@[simp] theorem State.setKey_fregs (s : State) (k : KeyPair) : (s.setKey k).fregs = s.fregs := rfl
@[simp] theorem State.setKey_sregs (s : State) (k : KeyPair) : (s.setKey k).sregs = s.sregs := rfl
@[simp] theorem State.setKey_pregs (s : State) (k : KeyPair) : (s.setKey k).pregs = s.pregs := rfl
@[simp] theorem State.setKey_bregs (s : State) (k : KeyPair) : (s.setKey k).bregs = s.bregs := rfl
@[simp] theorem State.setKey_hd (s : State) (k : KeyPair) : (s.setKey k).hd = s.hd := rfl
@[simp] theorem State.setKey_msg (s : State) (k : KeyPair) : (s.setKey k).msg = s.msg := rfl
@[simp] theorem State.setKey_key (s : State) (k : KeyPair) : (s.setKey k).key = .holds k := rfl
@[simp] theorem State.setKey_kp (s : State) (k : KeyPair) : (s.setKey k).kp = .invalid := rfl
@[simp] theorem State.setKey_issuer (s : State) (k : KeyPair) : (s.setKey k).issuer = s.issuer := rfl
@[simp] theorem State.setKey_user (s : State) (k : KeyPair) : (s.setKey k).user = s.user := rfl
@[simp] theorem State.setKey_eqFlag (s : State) (k : KeyPair) : (s.setKey k).eqFlag = s.eqFlag := rfl
@[simp] theorem State.setKey_validFlag (s : State) (k : KeyPair) : (s.setKey k).validFlag = s.validFlag := rfl
@[simp] theorem State.setKey_inflight (s : State) (k : KeyPair) : (s.setKey k).inflight = s.inflight := rfl
@[simp] theorem State.setKey_blindA (s : State) (k : KeyPair) : (s.setKey k).blindA = s.blindA := rfl
@[simp] theorem State.setKey_rcCode (s : State) (k : KeyPair) : (s.setKey k).rcCode = s.rcCode := rfl
@[simp] theorem State.setKey_rcInfo (s : State) (k : KeyPair) : (s.setKey k).rcInfo = s.rcInfo := rfl
@[simp] theorem State.setKey_errs (s : State) (k : KeyPair) : (s.setKey k).errs = s.errs := rfl
@[simp] theorem State.setKey_mlen (s : State) (k : KeyPair) : (s.setKey k).mlen = s.mlen := rfl
@[simp] theorem State.setKey_klen (s : State) (k : KeyPair) : (s.setKey k).klen = s.klen := rfl
@[simp] theorem State.setKey_slen (s : State) (k : KeyPair) : (s.setKey k).slen = s.slen := rfl
@[simp] theorem State.setKey_entropy (s : State) (k : KeyPair) : (s.setKey k).entropy = s.entropy := rfl
@[simp] theorem State.setKey_events (s : State) (k : KeyPair) : (s.setKey k).events = s.events := rfl
@[simp] theorem State.setKey_answer (s : State) (k : KeyPair) : (s.setKey k).answer = s.answer := rfl

/-! ### `State.setKp` -/

@[simp] theorem State.setKp_fregs (s : State) (Q : Point) : (s.setKp Q).fregs = s.fregs := rfl
@[simp] theorem State.setKp_sregs (s : State) (Q : Point) : (s.setKp Q).sregs = s.sregs := rfl
@[simp] theorem State.setKp_pregs (s : State) (Q : Point) : (s.setKp Q).pregs = s.pregs := rfl
@[simp] theorem State.setKp_bregs (s : State) (Q : Point) : (s.setKp Q).bregs = s.bregs := rfl
@[simp] theorem State.setKp_hd (s : State) (Q : Point) : (s.setKp Q).hd = s.hd := rfl
@[simp] theorem State.setKp_msg (s : State) (Q : Point) : (s.setKp Q).msg = s.msg := rfl
@[simp] theorem State.setKp_key (s : State) (Q : Point) : (s.setKp Q).key = s.key := rfl
@[simp] theorem State.setKp_kp (s : State) (Q : Point) : (s.setKp Q).kp = .holds Q := rfl
@[simp] theorem State.setKp_issuer (s : State) (Q : Point) : (s.setKp Q).issuer = s.issuer := rfl
@[simp] theorem State.setKp_user (s : State) (Q : Point) : (s.setKp Q).user = s.user := rfl
@[simp] theorem State.setKp_eqFlag (s : State) (Q : Point) : (s.setKp Q).eqFlag = s.eqFlag := rfl
@[simp] theorem State.setKp_validFlag (s : State) (Q : Point) : (s.setKp Q).validFlag = s.validFlag := rfl
@[simp] theorem State.setKp_inflight (s : State) (Q : Point) : (s.setKp Q).inflight = s.inflight := rfl
@[simp] theorem State.setKp_blindA (s : State) (Q : Point) : (s.setKp Q).blindA = s.blindA := rfl
@[simp] theorem State.setKp_rcCode (s : State) (Q : Point) : (s.setKp Q).rcCode = s.rcCode := rfl
@[simp] theorem State.setKp_rcInfo (s : State) (Q : Point) : (s.setKp Q).rcInfo = s.rcInfo := rfl
@[simp] theorem State.setKp_errs (s : State) (Q : Point) : (s.setKp Q).errs = s.errs := rfl
@[simp] theorem State.setKp_mlen (s : State) (Q : Point) : (s.setKp Q).mlen = s.mlen := rfl
@[simp] theorem State.setKp_klen (s : State) (Q : Point) : (s.setKp Q).klen = s.klen := rfl
@[simp] theorem State.setKp_slen (s : State) (Q : Point) : (s.setKp Q).slen = s.slen := rfl
@[simp] theorem State.setKp_entropy (s : State) (Q : Point) : (s.setKp Q).entropy = s.entropy := rfl
@[simp] theorem State.setKp_events (s : State) (Q : Point) : (s.setKp Q).events = s.events := rfl
@[simp] theorem State.setKp_answer (s : State) (Q : Point) : (s.setKp Q).answer = s.answer := rfl

/-! ### `State.setIssuer` -/

@[simp] theorem State.setIssuer_fregs (s : State) (c : IssuerSession) : (s.setIssuer c).fregs = s.fregs := rfl
@[simp] theorem State.setIssuer_sregs (s : State) (c : IssuerSession) : (s.setIssuer c).sregs = s.sregs := rfl
@[simp] theorem State.setIssuer_pregs (s : State) (c : IssuerSession) : (s.setIssuer c).pregs = s.pregs := rfl
@[simp] theorem State.setIssuer_bregs (s : State) (c : IssuerSession) : (s.setIssuer c).bregs = s.bregs := rfl
@[simp] theorem State.setIssuer_hd (s : State) (c : IssuerSession) : (s.setIssuer c).hd = s.hd := rfl
@[simp] theorem State.setIssuer_msg (s : State) (c : IssuerSession) : (s.setIssuer c).msg = s.msg := rfl
@[simp] theorem State.setIssuer_key (s : State) (c : IssuerSession) : (s.setIssuer c).key = s.key := rfl
@[simp] theorem State.setIssuer_kp (s : State) (c : IssuerSession) : (s.setIssuer c).kp = s.kp := rfl
@[simp] theorem State.setIssuer_issuer (s : State) (c : IssuerSession) : (s.setIssuer c).issuer = c := rfl
@[simp] theorem State.setIssuer_user (s : State) (c : IssuerSession) : (s.setIssuer c).user = s.user := rfl
@[simp] theorem State.setIssuer_eqFlag (s : State) (c : IssuerSession) : (s.setIssuer c).eqFlag = s.eqFlag := rfl
@[simp] theorem State.setIssuer_validFlag (s : State) (c : IssuerSession) : (s.setIssuer c).validFlag = s.validFlag := rfl
@[simp] theorem State.setIssuer_inflight (s : State) (c : IssuerSession) : (s.setIssuer c).inflight = s.inflight := rfl
@[simp] theorem State.setIssuer_blindA (s : State) (c : IssuerSession) : (s.setIssuer c).blindA = s.blindA := rfl
@[simp] theorem State.setIssuer_rcCode (s : State) (c : IssuerSession) : (s.setIssuer c).rcCode = s.rcCode := rfl
@[simp] theorem State.setIssuer_rcInfo (s : State) (c : IssuerSession) : (s.setIssuer c).rcInfo = s.rcInfo := rfl
@[simp] theorem State.setIssuer_errs (s : State) (c : IssuerSession) : (s.setIssuer c).errs = s.errs := rfl
@[simp] theorem State.setIssuer_mlen (s : State) (c : IssuerSession) : (s.setIssuer c).mlen = s.mlen := rfl
@[simp] theorem State.setIssuer_klen (s : State) (c : IssuerSession) : (s.setIssuer c).klen = s.klen := rfl
@[simp] theorem State.setIssuer_slen (s : State) (c : IssuerSession) : (s.setIssuer c).slen = s.slen := rfl
@[simp] theorem State.setIssuer_entropy (s : State) (c : IssuerSession) : (s.setIssuer c).entropy = s.entropy := rfl
@[simp] theorem State.setIssuer_events (s : State) (c : IssuerSession) : (s.setIssuer c).events = s.events := rfl
@[simp] theorem State.setIssuer_answer (s : State) (c : IssuerSession) : (s.setIssuer c).answer = s.answer := rfl

/-! ### `State.setUser` -/

@[simp] theorem State.setUser_fregs (s : State) (c : UserSession) : (s.setUser c).fregs = s.fregs := rfl
@[simp] theorem State.setUser_sregs (s : State) (c : UserSession) : (s.setUser c).sregs = s.sregs := rfl
@[simp] theorem State.setUser_pregs (s : State) (c : UserSession) : (s.setUser c).pregs = s.pregs := rfl
@[simp] theorem State.setUser_bregs (s : State) (c : UserSession) : (s.setUser c).bregs = s.bregs := rfl
@[simp] theorem State.setUser_hd (s : State) (c : UserSession) : (s.setUser c).hd = s.hd := rfl
@[simp] theorem State.setUser_msg (s : State) (c : UserSession) : (s.setUser c).msg = s.msg := rfl
@[simp] theorem State.setUser_key (s : State) (c : UserSession) : (s.setUser c).key = s.key := rfl
@[simp] theorem State.setUser_kp (s : State) (c : UserSession) : (s.setUser c).kp = s.kp := rfl
@[simp] theorem State.setUser_issuer (s : State) (c : UserSession) : (s.setUser c).issuer = s.issuer := rfl
@[simp] theorem State.setUser_user (s : State) (c : UserSession) : (s.setUser c).user = c := rfl
@[simp] theorem State.setUser_eqFlag (s : State) (c : UserSession) : (s.setUser c).eqFlag = s.eqFlag := rfl
@[simp] theorem State.setUser_validFlag (s : State) (c : UserSession) : (s.setUser c).validFlag = s.validFlag := rfl
@[simp] theorem State.setUser_inflight (s : State) (c : UserSession) : (s.setUser c).inflight = s.inflight := rfl
@[simp] theorem State.setUser_blindA (s : State) (c : UserSession) : (s.setUser c).blindA = s.blindA := rfl
@[simp] theorem State.setUser_rcCode (s : State) (c : UserSession) : (s.setUser c).rcCode = s.rcCode := rfl
@[simp] theorem State.setUser_rcInfo (s : State) (c : UserSession) : (s.setUser c).rcInfo = s.rcInfo := rfl
@[simp] theorem State.setUser_errs (s : State) (c : UserSession) : (s.setUser c).errs = s.errs := rfl
@[simp] theorem State.setUser_mlen (s : State) (c : UserSession) : (s.setUser c).mlen = s.mlen := rfl
@[simp] theorem State.setUser_klen (s : State) (c : UserSession) : (s.setUser c).klen = s.klen := rfl
@[simp] theorem State.setUser_slen (s : State) (c : UserSession) : (s.setUser c).slen = s.slen := rfl
@[simp] theorem State.setUser_entropy (s : State) (c : UserSession) : (s.setUser c).entropy = s.entropy := rfl
@[simp] theorem State.setUser_events (s : State) (c : UserSession) : (s.setUser c).events = s.events := rfl
@[simp] theorem State.setUser_answer (s : State) (c : UserSession) : (s.setUser c).answer = s.answer := rfl

/-! ### `State.setEq` -/

@[simp] theorem State.setEq_fregs (s : State) (v : Bool) : (s.setEq v).fregs = s.fregs := rfl
@[simp] theorem State.setEq_sregs (s : State) (v : Bool) : (s.setEq v).sregs = s.sregs := rfl
@[simp] theorem State.setEq_pregs (s : State) (v : Bool) : (s.setEq v).pregs = s.pregs := rfl
@[simp] theorem State.setEq_bregs (s : State) (v : Bool) : (s.setEq v).bregs = s.bregs := rfl
@[simp] theorem State.setEq_hd (s : State) (v : Bool) : (s.setEq v).hd = s.hd := rfl
@[simp] theorem State.setEq_msg (s : State) (v : Bool) : (s.setEq v).msg = s.msg := rfl
@[simp] theorem State.setEq_key (s : State) (v : Bool) : (s.setEq v).key = s.key := rfl
@[simp] theorem State.setEq_kp (s : State) (v : Bool) : (s.setEq v).kp = s.kp := rfl
@[simp] theorem State.setEq_issuer (s : State) (v : Bool) : (s.setEq v).issuer = s.issuer := rfl
@[simp] theorem State.setEq_user (s : State) (v : Bool) : (s.setEq v).user = s.user := rfl
@[simp] theorem State.setEq_eqFlag (s : State) (v : Bool) : (s.setEq v).eqFlag = v := rfl
@[simp] theorem State.setEq_validFlag (s : State) (v : Bool) : (s.setEq v).validFlag = s.validFlag := rfl
@[simp] theorem State.setEq_inflight (s : State) (v : Bool) : (s.setEq v).inflight = s.inflight := rfl
@[simp] theorem State.setEq_blindA (s : State) (v : Bool) : (s.setEq v).blindA = s.blindA := rfl
@[simp] theorem State.setEq_rcCode (s : State) (v : Bool) : (s.setEq v).rcCode = s.rcCode := rfl
@[simp] theorem State.setEq_rcInfo (s : State) (v : Bool) : (s.setEq v).rcInfo = s.rcInfo := rfl
@[simp] theorem State.setEq_errs (s : State) (v : Bool) : (s.setEq v).errs = s.errs := rfl
@[simp] theorem State.setEq_mlen (s : State) (v : Bool) : (s.setEq v).mlen = s.mlen := rfl
@[simp] theorem State.setEq_klen (s : State) (v : Bool) : (s.setEq v).klen = s.klen := rfl
@[simp] theorem State.setEq_slen (s : State) (v : Bool) : (s.setEq v).slen = s.slen := rfl
@[simp] theorem State.setEq_entropy (s : State) (v : Bool) : (s.setEq v).entropy = s.entropy := rfl
@[simp] theorem State.setEq_events (s : State) (v : Bool) : (s.setEq v).events = s.events := rfl
@[simp] theorem State.setEq_answer (s : State) (v : Bool) : (s.setEq v).answer = s.answer := rfl

/-! ### `State.setValid` -/

@[simp] theorem State.setValid_fregs (s : State) (v : Bool) : (s.setValid v).fregs = s.fregs := rfl
@[simp] theorem State.setValid_sregs (s : State) (v : Bool) : (s.setValid v).sregs = s.sregs := rfl
@[simp] theorem State.setValid_pregs (s : State) (v : Bool) : (s.setValid v).pregs = s.pregs := rfl
@[simp] theorem State.setValid_bregs (s : State) (v : Bool) : (s.setValid v).bregs = s.bregs := rfl
@[simp] theorem State.setValid_hd (s : State) (v : Bool) : (s.setValid v).hd = s.hd := rfl
@[simp] theorem State.setValid_msg (s : State) (v : Bool) : (s.setValid v).msg = s.msg := rfl
@[simp] theorem State.setValid_key (s : State) (v : Bool) : (s.setValid v).key = s.key := rfl
@[simp] theorem State.setValid_kp (s : State) (v : Bool) : (s.setValid v).kp = s.kp := rfl
@[simp] theorem State.setValid_issuer (s : State) (v : Bool) : (s.setValid v).issuer = s.issuer := rfl
@[simp] theorem State.setValid_user (s : State) (v : Bool) : (s.setValid v).user = s.user := rfl
@[simp] theorem State.setValid_eqFlag (s : State) (v : Bool) : (s.setValid v).eqFlag = s.eqFlag := rfl
@[simp] theorem State.setValid_validFlag (s : State) (v : Bool) : (s.setValid v).validFlag = v := rfl
@[simp] theorem State.setValid_inflight (s : State) (v : Bool) : (s.setValid v).inflight = s.inflight := rfl
@[simp] theorem State.setValid_blindA (s : State) (v : Bool) : (s.setValid v).blindA = s.blindA := rfl
@[simp] theorem State.setValid_rcCode (s : State) (v : Bool) : (s.setValid v).rcCode = s.rcCode := rfl
@[simp] theorem State.setValid_rcInfo (s : State) (v : Bool) : (s.setValid v).rcInfo = s.rcInfo := rfl
@[simp] theorem State.setValid_errs (s : State) (v : Bool) : (s.setValid v).errs = s.errs := rfl
@[simp] theorem State.setValid_mlen (s : State) (v : Bool) : (s.setValid v).mlen = s.mlen := rfl
@[simp] theorem State.setValid_klen (s : State) (v : Bool) : (s.setValid v).klen = s.klen := rfl
@[simp] theorem State.setValid_slen (s : State) (v : Bool) : (s.setValid v).slen = s.slen := rfl
@[simp] theorem State.setValid_entropy (s : State) (v : Bool) : (s.setValid v).entropy = s.entropy := rfl
@[simp] theorem State.setValid_events (s : State) (v : Bool) : (s.setValid v).events = s.events := rfl
@[simp] theorem State.setValid_answer (s : State) (v : Bool) : (s.setValid v).answer = s.answer := rfl

/-! ### `State.clearErrs` -/

@[simp] theorem State.clearErrs_fregs (s : State) (w : Word) : (s.clearErrs w).fregs = s.fregs := rfl
@[simp] theorem State.clearErrs_sregs (s : State) (w : Word) : (s.clearErrs w).sregs = s.sregs := rfl
@[simp] theorem State.clearErrs_pregs (s : State) (w : Word) : (s.clearErrs w).pregs = s.pregs := rfl
@[simp] theorem State.clearErrs_bregs (s : State) (w : Word) : (s.clearErrs w).bregs = s.bregs := rfl
@[simp] theorem State.clearErrs_hd (s : State) (w : Word) : (s.clearErrs w).hd = s.hd := rfl
@[simp] theorem State.clearErrs_msg (s : State) (w : Word) : (s.clearErrs w).msg = s.msg := rfl
@[simp] theorem State.clearErrs_key (s : State) (w : Word) : (s.clearErrs w).key = s.key := rfl
@[simp] theorem State.clearErrs_kp (s : State) (w : Word) : (s.clearErrs w).kp = s.kp := rfl
@[simp] theorem State.clearErrs_issuer (s : State) (w : Word) : (s.clearErrs w).issuer = s.issuer := rfl
@[simp] theorem State.clearErrs_user (s : State) (w : Word) : (s.clearErrs w).user = s.user := rfl
@[simp] theorem State.clearErrs_eqFlag (s : State) (w : Word) : (s.clearErrs w).eqFlag = s.eqFlag := rfl
@[simp] theorem State.clearErrs_validFlag (s : State) (w : Word) : (s.clearErrs w).validFlag = s.validFlag := rfl
@[simp] theorem State.clearErrs_inflight (s : State) (w : Word) : (s.clearErrs w).inflight = s.inflight := rfl
@[simp] theorem State.clearErrs_blindA (s : State) (w : Word) : (s.clearErrs w).blindA = s.blindA := rfl
@[simp] theorem State.clearErrs_rcCode (s : State) (w : Word) : (s.clearErrs w).rcCode = s.rcCode := rfl
@[simp] theorem State.clearErrs_rcInfo (s : State) (w : Word) : (s.clearErrs w).rcInfo = s.rcInfo := rfl
@[simp] theorem State.clearErrs_errs (s : State) (w : Word) : (s.clearErrs w).errs = s.errs &&& ~~~w := rfl
@[simp] theorem State.clearErrs_mlen (s : State) (w : Word) : (s.clearErrs w).mlen = s.mlen := rfl
@[simp] theorem State.clearErrs_klen (s : State) (w : Word) : (s.clearErrs w).klen = s.klen := rfl
@[simp] theorem State.clearErrs_slen (s : State) (w : Word) : (s.clearErrs w).slen = s.slen := rfl
@[simp] theorem State.clearErrs_entropy (s : State) (w : Word) : (s.clearErrs w).entropy = s.entropy := rfl
@[simp] theorem State.clearErrs_events (s : State) (w : Word) : (s.clearErrs w).events = s.events := rfl
@[simp] theorem State.clearErrs_answer (s : State) (w : Word) : (s.clearErrs w).answer = s.answer := rfl

/-! ### `State.setMlen` -/

@[simp] theorem State.setMlen_fregs (s : State) (w : Word) : (s.setMlen w).fregs = s.fregs := rfl
@[simp] theorem State.setMlen_sregs (s : State) (w : Word) : (s.setMlen w).sregs = s.sregs := rfl
@[simp] theorem State.setMlen_pregs (s : State) (w : Word) : (s.setMlen w).pregs = s.pregs := rfl
@[simp] theorem State.setMlen_bregs (s : State) (w : Word) : (s.setMlen w).bregs = s.bregs := rfl
@[simp] theorem State.setMlen_hd (s : State) (w : Word) : (s.setMlen w).hd = s.hd := rfl
@[simp] theorem State.setMlen_msg (s : State) (w : Word) : (s.setMlen w).msg = s.msg := rfl
@[simp] theorem State.setMlen_key (s : State) (w : Word) : (s.setMlen w).key = s.key := rfl
@[simp] theorem State.setMlen_kp (s : State) (w : Word) : (s.setMlen w).kp = s.kp := rfl
@[simp] theorem State.setMlen_issuer (s : State) (w : Word) : (s.setMlen w).issuer = s.issuer := rfl
@[simp] theorem State.setMlen_user (s : State) (w : Word) : (s.setMlen w).user = s.user := rfl
@[simp] theorem State.setMlen_eqFlag (s : State) (w : Word) : (s.setMlen w).eqFlag = s.eqFlag := rfl
@[simp] theorem State.setMlen_validFlag (s : State) (w : Word) : (s.setMlen w).validFlag = s.validFlag := rfl
@[simp] theorem State.setMlen_inflight (s : State) (w : Word) : (s.setMlen w).inflight = s.inflight := rfl
@[simp] theorem State.setMlen_blindA (s : State) (w : Word) : (s.setMlen w).blindA = s.blindA := rfl
@[simp] theorem State.setMlen_rcCode (s : State) (w : Word) : (s.setMlen w).rcCode = s.rcCode := rfl
@[simp] theorem State.setMlen_rcInfo (s : State) (w : Word) : (s.setMlen w).rcInfo = s.rcInfo := rfl
@[simp] theorem State.setMlen_errs (s : State) (w : Word) : (s.setMlen w).errs = s.errs := rfl
@[simp] theorem State.setMlen_mlen (s : State) (w : Word) : (s.setMlen w).mlen = w := rfl
@[simp] theorem State.setMlen_klen (s : State) (w : Word) : (s.setMlen w).klen = s.klen := rfl
@[simp] theorem State.setMlen_slen (s : State) (w : Word) : (s.setMlen w).slen = s.slen := rfl
@[simp] theorem State.setMlen_entropy (s : State) (w : Word) : (s.setMlen w).entropy = s.entropy := rfl
@[simp] theorem State.setMlen_events (s : State) (w : Word) : (s.setMlen w).events = s.events := rfl
@[simp] theorem State.setMlen_answer (s : State) (w : Word) : (s.setMlen w).answer = s.answer := rfl

/-! ### `State.setArglen` -/

@[simp] theorem State.setArglen_fregs (s : State) (w : Word) : (s.setArglen w).fregs = s.fregs := rfl
@[simp] theorem State.setArglen_sregs (s : State) (w : Word) : (s.setArglen w).sregs = s.sregs := rfl
@[simp] theorem State.setArglen_pregs (s : State) (w : Word) : (s.setArglen w).pregs = s.pregs := rfl
@[simp] theorem State.setArglen_bregs (s : State) (w : Word) : (s.setArglen w).bregs = s.bregs := rfl
@[simp] theorem State.setArglen_hd (s : State) (w : Word) : (s.setArglen w).hd = s.hd := rfl
@[simp] theorem State.setArglen_msg (s : State) (w : Word) : (s.setArglen w).msg = s.msg := rfl
@[simp] theorem State.setArglen_key (s : State) (w : Word) : (s.setArglen w).key = s.key := rfl
@[simp] theorem State.setArglen_kp (s : State) (w : Word) : (s.setArglen w).kp = s.kp := rfl
@[simp] theorem State.setArglen_issuer (s : State) (w : Word) : (s.setArglen w).issuer = s.issuer := rfl
@[simp] theorem State.setArglen_user (s : State) (w : Word) : (s.setArglen w).user = s.user := rfl
@[simp] theorem State.setArglen_eqFlag (s : State) (w : Word) : (s.setArglen w).eqFlag = s.eqFlag := rfl
@[simp] theorem State.setArglen_validFlag (s : State) (w : Word) : (s.setArglen w).validFlag = s.validFlag := rfl
@[simp] theorem State.setArglen_inflight (s : State) (w : Word) : (s.setArglen w).inflight = s.inflight := rfl
@[simp] theorem State.setArglen_blindA (s : State) (w : Word) : (s.setArglen w).blindA = s.blindA := rfl
@[simp] theorem State.setArglen_rcCode (s : State) (w : Word) : (s.setArglen w).rcCode = s.rcCode := rfl
@[simp] theorem State.setArglen_rcInfo (s : State) (w : Word) : (s.setArglen w).rcInfo = s.rcInfo := rfl
@[simp] theorem State.setArglen_errs (s : State) (w : Word) : (s.setArglen w).errs = s.errs := rfl
@[simp] theorem State.setArglen_mlen (s : State) (w : Word) : (s.setArglen w).mlen = s.mlen := rfl
@[simp] theorem State.setArglen_klen (s : State) (w : Word) : (s.setArglen w).klen = w.extractLsb' 0 8 := rfl
@[simp] theorem State.setArglen_slen (s : State) (w : Word) : (s.setArglen w).slen = w.extractLsb' 8 8 := rfl
@[simp] theorem State.setArglen_entropy (s : State) (w : Word) : (s.setArglen w).entropy = s.entropy := rfl
@[simp] theorem State.setArglen_events (s : State) (w : Word) : (s.setArglen w).events = s.events := rfl
@[simp] theorem State.setArglen_answer (s : State) (w : Word) : (s.setArglen w).answer = s.answer := rfl

/-! ### `complete` -/

@[simp] theorem complete_fregs (s : State) : (complete s).fregs = s.fregs := rfl
@[simp] theorem complete_sregs (s : State) : (complete s).sregs = s.sregs := rfl
@[simp] theorem complete_pregs (s : State) : (complete s).pregs = s.pregs := rfl
@[simp] theorem complete_bregs (s : State) : (complete s).bregs = s.bregs := rfl
@[simp] theorem complete_hd (s : State) : (complete s).hd = s.hd := rfl
@[simp] theorem complete_msg (s : State) : (complete s).msg = s.msg := rfl
@[simp] theorem complete_key (s : State) : (complete s).key = s.key := rfl
@[simp] theorem complete_kp (s : State) : (complete s).kp = s.kp := rfl
@[simp] theorem complete_issuer (s : State) : (complete s).issuer = s.issuer := rfl
@[simp] theorem complete_user (s : State) : (complete s).user = s.user := rfl
@[simp] theorem complete_eqFlag (s : State) : (complete s).eqFlag = s.eqFlag := rfl
@[simp] theorem complete_validFlag (s : State) : (complete s).validFlag = s.validFlag := rfl
@[simp] theorem complete_inflight (s : State) : (complete s).inflight = none := rfl
@[simp] theorem complete_blindA (s : State) : (complete s).blindA = none := rfl
@[simp] theorem complete_rcCode (s : State) : (complete s).rcCode = 0 := rfl
@[simp] theorem complete_rcInfo (s : State) : (complete s).rcInfo = 0 := rfl
@[simp] theorem complete_errs (s : State) : (complete s).errs = s.errs := rfl
@[simp] theorem complete_mlen (s : State) : (complete s).mlen = s.mlen := rfl
@[simp] theorem complete_klen (s : State) : (complete s).klen = s.klen := rfl
@[simp] theorem complete_slen (s : State) : (complete s).slen = s.slen := rfl
@[simp] theorem complete_entropy (s : State) : (complete s).entropy = s.entropy := rfl
@[simp] theorem complete_events (s : State) : (complete s).events = s.events := rfl
@[simp] theorem complete_answer (s : State) : (complete s).answer = s.answer := rfl

/-! ### `abort` -/

@[simp] theorem abort_fregs (e : CmdError) (s : State) : (abort e s).fregs = s.fregs := rfl
@[simp] theorem abort_sregs (e : CmdError) (s : State) : (abort e s).sregs = s.sregs := rfl
@[simp] theorem abort_pregs (e : CmdError) (s : State) : (abort e s).pregs = s.pregs := rfl
@[simp] theorem abort_bregs (e : CmdError) (s : State) : (abort e s).bregs = s.bregs := rfl
@[simp] theorem abort_hd (e : CmdError) (s : State) : (abort e s).hd = s.hd := rfl
@[simp] theorem abort_msg (e : CmdError) (s : State) : (abort e s).msg = s.msg := rfl
@[simp] theorem abort_key (e : CmdError) (s : State) : (abort e s).key = s.key := rfl
@[simp] theorem abort_kp (e : CmdError) (s : State) : (abort e s).kp = s.kp := rfl
@[simp] theorem abort_issuer (e : CmdError) (s : State) : (abort e s).issuer = s.issuer := rfl
@[simp] theorem abort_user (e : CmdError) (s : State) : (abort e s).user = s.user := rfl
@[simp] theorem abort_eqFlag (e : CmdError) (s : State) : (abort e s).eqFlag = s.eqFlag := rfl
@[simp] theorem abort_validFlag (e : CmdError) (s : State) : (abort e s).validFlag = s.validFlag := rfl
@[simp] theorem abort_inflight (e : CmdError) (s : State) : (abort e s).inflight = none := rfl
@[simp] theorem abort_blindA (e : CmdError) (s : State) : (abort e s).blindA = none := rfl
@[simp] theorem abort_rcCode (e : CmdError) (s : State) : (abort e s).rcCode = e.code := rfl
@[simp] theorem abort_rcInfo (e : CmdError) (s : State) : (abort e s).rcInfo = e.info := rfl
@[simp] theorem abort_errs (e : CmdError) (s : State) : (abort e s).errs = s.errs ||| e.errsBit := rfl
@[simp] theorem abort_mlen (e : CmdError) (s : State) : (abort e s).mlen = s.mlen := rfl
@[simp] theorem abort_klen (e : CmdError) (s : State) : (abort e s).klen = s.klen := rfl
@[simp] theorem abort_slen (e : CmdError) (s : State) : (abort e s).slen = s.slen := rfl
@[simp] theorem abort_entropy (e : CmdError) (s : State) : (abort e s).entropy = s.entropy := rfl
@[simp] theorem abort_events (e : CmdError) (s : State) : (abort e s).events = s.events := rfl
@[simp] theorem abort_answer (e : CmdError) (s : State) : (abort e s).answer = s.answer := rfl

/-! ### `startCommand` -/

@[simp] theorem startCommand_fregs (s : State) (w : Word) : (startCommand s w).fregs = s.fregs := rfl
@[simp] theorem startCommand_sregs (s : State) (w : Word) : (startCommand s w).sregs = s.sregs := rfl
@[simp] theorem startCommand_pregs (s : State) (w : Word) : (startCommand s w).pregs = s.pregs := rfl
@[simp] theorem startCommand_bregs (s : State) (w : Word) : (startCommand s w).bregs = s.bregs := rfl
@[simp] theorem startCommand_hd (s : State) (w : Word) : (startCommand s w).hd = s.hd := rfl
@[simp] theorem startCommand_msg (s : State) (w : Word) : (startCommand s w).msg = s.msg := rfl
@[simp] theorem startCommand_key (s : State) (w : Word) : (startCommand s w).key = s.key := rfl
@[simp] theorem startCommand_kp (s : State) (w : Word) : (startCommand s w).kp = s.kp := rfl
@[simp] theorem startCommand_issuer (s : State) (w : Word) : (startCommand s w).issuer = s.issuer := rfl
@[simp] theorem startCommand_user (s : State) (w : Word) : (startCommand s w).user = s.user := rfl
@[simp] theorem startCommand_eqFlag (s : State) (w : Word) : (startCommand s w).eqFlag = s.eqFlag := rfl
@[simp] theorem startCommand_validFlag (s : State) (w : Word) : (startCommand s w).validFlag = s.validFlag := rfl
@[simp] theorem startCommand_inflight (s : State) (w : Word) : (startCommand s w).inflight = some w := rfl
@[simp] theorem startCommand_blindA (s : State) (w : Word) : (startCommand s w).blindA = none := rfl
@[simp] theorem startCommand_rcCode (s : State) (w : Word) : (startCommand s w).rcCode = s.rcCode := rfl
@[simp] theorem startCommand_rcInfo (s : State) (w : Word) : (startCommand s w).rcInfo = s.rcInfo := rfl
@[simp] theorem startCommand_errs (s : State) (w : Word) : (startCommand s w).errs = s.errs := rfl
@[simp] theorem startCommand_mlen (s : State) (w : Word) : (startCommand s w).mlen = s.mlen := rfl
@[simp] theorem startCommand_klen (s : State) (w : Word) : (startCommand s w).klen = s.klen := rfl
@[simp] theorem startCommand_slen (s : State) (w : Word) : (startCommand s w).slen = s.slen := rfl
@[simp] theorem startCommand_entropy (s : State) (w : Word) : (startCommand s w).entropy = s.entropy := rfl
@[simp] theorem startCommand_events (s : State) (w : Word) : (startCommand s w).events = s.events := rfl
@[simp] theorem startCommand_answer (s : State) (w : Word) : (startCommand s w).answer = s.answer := rfl

/-! ### `busyRefusal` -/

@[simp] theorem busyRefusal_fregs (s : State) : (busyRefusal s).fregs = s.fregs := rfl
@[simp] theorem busyRefusal_sregs (s : State) : (busyRefusal s).sregs = s.sregs := rfl
@[simp] theorem busyRefusal_pregs (s : State) : (busyRefusal s).pregs = s.pregs := rfl
@[simp] theorem busyRefusal_bregs (s : State) : (busyRefusal s).bregs = s.bregs := rfl
@[simp] theorem busyRefusal_hd (s : State) : (busyRefusal s).hd = s.hd := rfl
@[simp] theorem busyRefusal_msg (s : State) : (busyRefusal s).msg = s.msg := rfl
@[simp] theorem busyRefusal_key (s : State) : (busyRefusal s).key = s.key := rfl
@[simp] theorem busyRefusal_kp (s : State) : (busyRefusal s).kp = s.kp := rfl
@[simp] theorem busyRefusal_issuer (s : State) : (busyRefusal s).issuer = s.issuer := rfl
@[simp] theorem busyRefusal_user (s : State) : (busyRefusal s).user = s.user := rfl
@[simp] theorem busyRefusal_eqFlag (s : State) : (busyRefusal s).eqFlag = s.eqFlag := rfl
@[simp] theorem busyRefusal_validFlag (s : State) : (busyRefusal s).validFlag = s.validFlag := rfl
@[simp] theorem busyRefusal_inflight (s : State) : (busyRefusal s).inflight = s.inflight := rfl
@[simp] theorem busyRefusal_blindA (s : State) : (busyRefusal s).blindA = s.blindA := rfl
@[simp] theorem busyRefusal_rcCode (s : State) : (busyRefusal s).rcCode = s.rcCode := rfl
@[simp] theorem busyRefusal_rcInfo (s : State) : (busyRefusal s).rcInfo = s.rcInfo := rfl
@[simp] theorem busyRefusal_errs (s : State) : (busyRefusal s).errs = s.errs ||| errsBusviol := rfl
@[simp] theorem busyRefusal_mlen (s : State) : (busyRefusal s).mlen = s.mlen := rfl
@[simp] theorem busyRefusal_klen (s : State) : (busyRefusal s).klen = s.klen := rfl
@[simp] theorem busyRefusal_slen (s : State) : (busyRefusal s).slen = s.slen := rfl
@[simp] theorem busyRefusal_entropy (s : State) : (busyRefusal s).entropy = s.entropy := rfl
@[simp] theorem busyRefusal_events (s : State) : (busyRefusal s).events = s.events := rfl
@[simp] theorem busyRefusal_answer (s : State) : (busyRefusal s).answer = .error := rfl

/-! ### Register files after a write -/

theorem vector_get_set {α : Type} (v : Vector α 8) (i j : RegNum) (x : α) :
    (v.set i.val x i.isLt).get j = if i = j then x else v.get j := by
  simp only [Vector.get_eq_getElem, Vector.getElem_set]
  by_cases h : i = j
  · simp [h]
  · rw [if_neg h, if_neg (fun h' => h (Fin.ext h'))]

theorem State.setF_get (s : State) (i j : RegNum) (v : Fp) :
    (s.setF i v).fregs.get j = if i = j then .holds v else s.fregs.get j := vector_get_set ..

theorem State.setS_get (s : State) (i j : RegNum) (v : Fq) :
    (s.setS i v).sregs.get j = if i = j then .holds v else s.sregs.get j := vector_get_set ..

theorem State.setP_get (s : State) (i j : RegNum) (Q : Point) :
    (s.setP i Q).pregs.get j = if i = j then .holds Q else s.pregs.get j := vector_get_set ..

theorem State.setB_get (s : State) (i j : RegNum) (b : Bytes32) :
    (s.setB i b).b j = if i = j then b else s.b j := vector_get_set ..

theorem pairHigh_ne (n : RegNum) : pairHigh n ≠ n := by
  revert n; decide

theorem State.setPair_get (s : State) (n j : RegNum) (lo hi : Bytes32) :
    (s.setPair n lo hi).b j = if pairHigh n = j then hi else if n = j then lo else s.b j := by
  simp only [State.setPair, State.setB_get]

end Sys2Proof.Machine
end

