-- ==== Sys2Proof/Laws/Exec.lean ====
section
/-! SUPPORT. What each shared operation and each command can do, said once: the operand forms' answers, and the three ways
a command goes: it completes with the effect of its rule (`Effect`), it aborts (`Failure`), or it waits for the entropy
port (`Waits`). -/

namespace Sys2Proof.Machine

/-! ### Sequencing and the ends of a command -/

theorem except_bind_ok {ε α β : Type} {x : Except ε α} {f : α → Except ε β} {r : β} :
    (x >>= f) = .ok r ↔ ∃ a, x = .ok a ∧ f a = .ok r := by
  cases x <;> simp [bind, Except.bind]

theorem except_bind_error {ε α β : Type} {x : Except ε α} {f : α → Except ε β} {e : ε} :
    (x >>= f) = .error e ↔ x = .error e ∨ ∃ a, x = .ok a ∧ f a = .error e := by
  cases x <;> simp [bind, Except.bind]

@[simp] theorem except_ok_bind {ε α β : Type} (a : α) (f : α → Except ε β) : ((Except.ok a : Except ε α) >>= f) = f a :=
  rfl

@[simp] theorem except_error_bind {ε α β : Type} (e : ε) (f : α → Except ε β) :
    ((Except.error e : Except ε α) >>= f) = .error e := rfl

/-- The two ends of a command. -/
theorem finish_next {s t : State} {r : Except CmdError State} (h : finish s r = .next t) :
    (∃ u, r = .ok u ∧ t = complete u) ∨ (∃ e, r = .error e ∧ t = abort e s) := by
  cases r with
  | ok u => exact .inl ⟨u, rfl, by simpa [finish] using h.symm⟩
  | error e => exact .inr ⟨e, rfl, by simpa [finish] using h.symm⟩

/-! ### Operand forms -/

theorem readReg_ok {α : Type} {o : Source} {r : Reg α} {v : α} : readReg o r = .ok v ↔ r = .holds v := by
  cases r <;> simp [readReg]

theorem readReg_error {α : Type} {o : Source} {r : Reg α} {e : CmdError} :
    readReg o r = .error e ↔ r = .invalid ∧ e = .uninitRegister o := by
  cases r <;> simp [readReg, eq_comm]

theorem message_ok {s : State} {m : List Byte} :
    message s = .ok m ↔ s.mlen.toNat ≤ Config.msgMax ∧ msgBytes s.msg s.mlen.toNat = m := by
  unfold message; split <;> simp_all

theorem message_error {s : State} {e : CmdError} :
    message s = .error e ↔ ¬ s.mlen.toNat ≤ Config.msgMax ∧ e = .msgLength := by
  unfold message; split <;> simp_all [eq_comm]

theorem needKlen_ok {s : State} {o : LengthOperand} {u : Unit} : needKlen s o = .ok u ↔ s.klen = 32 := by
  unfold needKlen; split <;> simp_all

theorem needKlen_error {s : State} {o : LengthOperand} {e : CmdError} :
    needKlen s o = .error e ↔ s.klen ≠ 32 ∧ e = .invalidLength o := by
  unfold needKlen; split <;> simp_all [eq_comm]

theorem needSlen_ok {s : State} {u : Unit} : needSlen s = .ok u ↔ s.slen = 64 := by
  unfold needSlen; split <;> simp_all

theorem needSlen_error {s : State} {e : CmdError} :
    needSlen s = .error e ↔ s.slen ≠ 64 ∧ e = .invalidLength .signature := by
  unfold needSlen; split <;> simp_all [eq_comm]

theorem pairOperand_ok {n m : RegNum} : pairOperand n = .ok m ↔ pairOk n = true ∧ n = m := by
  unfold pairOperand; split <;> simp_all

theorem pairOperand_error {n : RegNum} {e : CmdError} :
    pairOperand n = .error e ↔ pairOk n = false ∧ e = .illegalCommand .badRegister := by
  unfold pairOperand
  cases pairOk n <;> simp [eq_comm]

theorem pointOperand_ok {s : State} {o : PointOperand} {i : RegNum} {Q : Point} :
    pointOperand s o i = .ok Q ↔ decompress Config.curve (s.b i) = some Q := by
  unfold pointOperand; split <;> simp_all

theorem pointOperand_error {s : State} {o : PointOperand} {i : RegNum} {e : CmdError} :
    pointOperand s o i = .error e ↔ decompress Config.curve (s.b i) = none ∧ e = .invalidPoint o := by
  unfold pointOperand
  cases decompress Config.curve (s.b i) <;> simp [eq_comm]

theorem fieldConstant_error {c : Imm} {e : CmdError} (h : fieldConstant c = .error e) :
    fldcImmOk c = false ∧ e = .illegalCommand .badImm := by
  unfold fieldConstant at h
  split at h <;> cases h
  simp_all [fldcImmOk]
  rename_i h0 h1 h2 h3
  omega

theorem pointConstant_error {c : Imm} {e : CmdError} (h : pointConstant c = .error e) :
    pldcImmOk c = false ∧ e = .illegalCommand .badImm := by
  unfold pointConstant at h
  split at h <;> cases h
  simp_all [pldcImmOk]
  rename_i h0 h1
  omega

theorem pointConstant_ok {c : Imm} {Q : Point} (h : pointConstant c = .ok Q) : 
    Q = pointNeutral ∨ Q = pointBase Config.curve := by
  unfold pointConstant at h
  split at h <;> cases h <;> simp

theorem maskOperand_ok {m : Imm} {n : Nat} : maskOperand m = .ok n ↔ bdiscardImmOk m = true ∧ m.toNat = n := by
  unfold maskOperand; split <;> simp_all

theorem maskOperand_error {m : Imm} {e : CmdError} :
    maskOperand m = .error e ↔ bdiscardImmOk m = false ∧ e = .illegalCommand .badImm := by
  unfold maskOperand
  cases bdiscardImmOk m <;> simp [eq_comm]

theorem needIssuerIdle_ok {s : State} {u : Unit} : needIssuerIdle s = .ok u ↔ s.issuer = .idle := by
  unfold needIssuerIdle; split <;> simp_all

theorem needIssuerIdle_error {s : State} {e : CmdError} :
    needIssuerIdle s = .error e ↔ s.issuer ≠ .idle ∧ e = .sessionState .issuer := by
  unfold needIssuerIdle; split <;> simp_all [eq_comm]

theorem needCommit_ok {s : State} {k : Draw} {R : Point} : needCommit s = .ok (k, R) ↔ s.issuer = .commit k R := by
  unfold needCommit; split <;> simp_all

theorem needCommit_error {s : State} {e : CmdError} (h : needCommit s = .error e) : e = .sessionState .issuer := by
  unfold needCommit at h; split at h <;> simp_all

theorem needUserIdle_ok {s : State} {u : Unit} : needUserIdle s = .ok u ↔ s.user = .idle := by
  unfold needUserIdle; split <;> simp_all

theorem needUserIdle_error {s : State} {e : CmdError} :
    needUserIdle s = .error e ↔ s.user ≠ .idle ∧ e = .sessionState .user := by
  unfold needUserIdle; split <;> simp_all [eq_comm]

theorem needBlinded_ok {s : State} {a : Draw} {R : Point} : needBlinded s = .ok (a, R) ↔ s.user = .blinded a R := by
  unfold needBlinded; split <;> simp_all

theorem needBlinded_error {s : State} {e : CmdError} (h : needBlinded s = .error e) : e = .sessionState .user := by
  unfold needBlinded at h; split at h <;> simp_all

/-- One request to the entropy port. -/
theorem draw_cases (s : State) :
    (s.entropy = [] ∧ draw s = .waiting) ∨
    (∃ v rest, s.entropy = .value v :: rest ∧ draw s = .value v { s with entropy := rest }) ∨
    (∃ rest, s.entropy = .fail :: rest ∧ draw s = .failed { s with entropy := rest }) := by
  unfold draw
  split <;> simp_all

theorem draw_value {s t : State} {v : Draw} (h : draw s = .value v t) :
    ∃ rest, s.entropy = .value v :: rest ∧ t = { s with entropy := rest } := by
  rcases draw_cases s with ⟨-, d⟩ | ⟨v', rest, e, d⟩ | ⟨rest, -, d⟩ <;> rw [d] at h <;> cases h
  exact ⟨rest, e, rfl⟩

theorem draw_failed {s t : State} (h : draw s = .failed t) :
    ∃ rest, s.entropy = .fail :: rest ∧ t = { s with entropy := rest } := by
  rcases draw_cases s with ⟨-, d⟩ | ⟨v', rest, -, d⟩ | ⟨rest, e, d⟩ <;> rw [d] at h <;> cases h
  exact ⟨rest, e, rfl⟩

theorem draw_waiting {s : State} (h : draw s = .waiting) : s.entropy = [] := by
  rcases draw_cases s with ⟨e, -⟩ | ⟨v', rest, -, d⟩ | ⟨rest, -, d⟩
  · exact e
  · rw [d] at h; cases h
  · rw [d] at h; cases h

theorem blindOperands_ok {s : State} {a b : RegNum} {m : List Byte} {R P : Point} :
    blindOperands a b s = .ok (m, R, P) ↔
      s.user = .idle ∧ message s = .ok m ∧ decompress Config.curve (s.b a) = some R ∧
        decompress Config.curve (s.b b) = some P := by
  unfold blindOperands
  simp only [except_bind_ok, needUserIdle_ok, pointOperand_ok, Except.ok.injEq, Prod.mk.injEq]
  constructor
  · rintro ⟨-, hu, m', hm, R', hR, P', hP, rfl, rfl, rfl⟩; exact ⟨hu, hm, hR, hP⟩
  · rintro ⟨hu, hm, hR, hP⟩; exact ⟨(), hu, m, hm, R, hR, P, hP, rfl, rfl, rfl⟩

theorem blindOperands_error {s : State} {a b : RegNum} {e : CmdError} (h : blindOperands a b s = .error e) :
    e = .sessionState .user ∨ e = .msgLength ∨ e = .invalidPoint .ra ∨ e = .invalidPoint .rb := by
  unfold blindOperands at h
  simp only [except_bind_error, needUserIdle_error, message_error, pointOperand_error] at h
  rcases h with ⟨-, rfl⟩ | ⟨-, -, ⟨-, rfl⟩ | ⟨m, -, ⟨-, rfl⟩ | ⟨R, -, ⟨-, rfl⟩ | ⟨P, -, h⟩⟩⟩⟩
  · exact .inl rfl
  · exact .inr (.inl rfl)
  · exact .inr (.inr (.inl rfl))
  · exact .inr (.inr (.inr rfl))
  · cases h

/-! ### What a command does -/

/-- The state after the writes of a command that completes, by its rule: `Effect i s u`. -/
inductive Effect : Instr → State → State → Prop where
  | nop {s} : Effect .nop s s
  | zeroize {s} : Effect .zeroize s { resetAll s with errs := s.errs }
  | hashb {s a} : Effect (.hashb a) s (s.setHd (Config.hash (bytes32 (s.b a))))
  | hashbm {s a m} : message s = .ok m → Effect (.hashbm a) s (s.setHd (Config.hash (bytes32 (s.b a) ++ m)))
  | fadd {s d a b x y} : s.fregs.get a = .holds x → s.fregs.get b = .holds y →
      Effect (.fadd d a b) s (s.setF d (fpAdd x y))
  | fsub {s d a b x y} : s.fregs.get a = .holds x → s.fregs.get b = .holds y →
      Effect (.fsub d a b) s (s.setF d (fpSub x y))
  | fmul {s d a b x y} : s.fregs.get a = .holds x → s.fregs.get b = .holds y →
      Effect (.fmul d a b) s (s.setF d (fpMul x y))
  | fneg {s d a x} : s.fregs.get a = .holds x → Effect (.fneg d a) s (s.setF d (fpNeg x))
  | finv {s d a x} : s.fregs.get a = .holds x → x ≠ fpOf 0 → Effect (.finv d a) s (s.setF d (fpInv x))
  | fsqrtc {s d a x} : s.fregs.get a = .holds x → Effect (.fsqrtc d a) s (s.setF d (fpSqrtCandidate x))
  | fld {s d a} : Effect (.fld d a) s (s.setF d (fpOf (le (s.b a))))
  | fst {s d a x} : s.fregs.get a = .holds x → Effect (.fst d a) s (s.setB d (enc32 x.val))
  | fldc {s d c v} : fieldConstant c = .ok v → Effect (.fldc d c) s (s.setF d v)
  | sadd {s d a b x y} : s.sregs.get a = .holds x → s.sregs.get b = .holds y →
      Effect (.sadd d a b) s (s.setS d (fqAdd x y))
  | ssub {s d a b x y} : s.sregs.get a = .holds x → s.sregs.get b = .holds y →
      Effect (.ssub d a b) s (s.setS d (fqSub x y))
  | smul {s d a b x y} : s.sregs.get a = .holds x → s.sregs.get b = .holds y →
      Effect (.smul d a b) s (s.setS d (fqMul x y))
  | h2s {s d} : Effect (.h2s d) s (s.setS d (h2s s.hd))
  | rnds {s d v rest} : s.entropy = .value v :: rest →
      Effect (.rnds d) s (State.setS { s with entropy := rest } d v.toFq)
  | sld {s d a} : Effect (.sld d a) s (s.setS d (fqOf (le (s.b a))))
  | sst {s d a x} : s.sregs.get a = .holds x → Effect (.sst d a) s (s.setB d (enc32 x.val))
  | padd {s d a b x y} : s.pregs.get a = .holds x → s.pregs.get b = .holds y →
      Effect (.padd d a b) s (s.setP d (pointAdd Config.curve x y))
  | pdbl {s d a x} : s.pregs.get a = .holds x → Effect (.pdbl d a) s (s.setP d (pointDouble x))
  | psmul {s d a b n x} : s.sregs.get a = .holds n → s.pregs.get b = .holds x →
      Effect (.psmul d a b) s (s.setP d (pointMul Config.curve n.val x))
  | psmulg {s d a n} : s.sregs.get a = .holds n →
      Effect (.psmulg d a) s (s.setP d (pointMul Config.curve n.val (pointBase Config.curve)))
  | peq {s a b x y} : s.pregs.get a = .holds x → s.pregs.get b = .holds y →
      Effect (.peq a b) s (s.setEq (pointEqual x y))
  | pcmp {s d a x} : s.pregs.get a = .holds x → Effect (.pcmp d a) s (s.setB d (compress x))
  | pdec {s d a x} : decompress Config.curve (s.b a) = some x → Effect (.pdec d a) s (s.setP d x)
  | pldc {s d c x} : pointConstant c = .ok x → Effect (.pldc d c) s (s.setP d x)
  | kexpand {s a} : s.klen = 32 → Effect (.kexpand a) s (s.setKey (expandSecret (s.b a)))
  | kderive {s d k} : s.key = .holds k →
      Effect (.kderive d) s ((s.setKp (pointMul Config.curve k.kx.toNat (pointBase Config.curve))).setB d
        (compress (pointMul Config.curve k.kx.toNat (pointBase Config.curve))))
  | sign {s d a m} : pairOk d = true → s.klen = 32 → message s = .ok m →
      Effect (.sign d a) s ((s.setKey (expandSecret (s.b a))).setPair d
        (signature (expandSecret (s.b a)) m).1 (signature (expandSecret (s.b a)) m).2)
  | verify {s a b m} : pairOk b = true → s.klen = 32 → s.slen = 64 → message s = .ok m →
      Effect (.verify a b) s (s.setValid (accepts (s.b a) (s.b b) (s.b (pairHigh b)) m))
  | bcommit {s d k rest} : s.issuer = .idle → s.entropy = .value k :: rest →
      Effect (.bcommit d) s ((State.setIssuer { s with entropy := rest }
        (.commit k (pointMul Config.curve k.val (pointBase Config.curve)))).setB d
        (compress (pointMul Config.curve k.val (pointBase Config.curve))))
  | bblind {s d a b m R P va vb rest} : s.user = .idle → message s = .ok m → decompress Config.curve (s.b a) = some R →
      decompress Config.curve (s.b b) = some P →
      s.blindA = some va ∧ s.entropy = .value vb :: rest ∨
        s.blindA = none ∧ s.entropy = .value va :: .value vb :: rest →
      Effect (.bblind d a b) s
        ((State.setUser { s with entropy := rest } (.blinded va (blindedCommitment R P va vb))).setB d
          (enc32 (fqAdd (hashToScalar (compress (blindedCommitment R P va vb)) m) vb.toFq).val))
  | bsign {s d a ik ir k} : s.issuer = .commit ik ir → s.key = .holds k →
      Effect (.bsign d a) s ((s.setIssuer (.signed ir)).setB d
        (enc32 ((ik.val + le (s.b a) % Config.q * k.kx.toNat) % Config.q)))
  | bunblind {s d a ua urp} : pairOk d = true → s.user = .blinded ua urp →
      Effect (.bunblind d a) s ((s.setUser (.done urp)).setPair d (compress urp)
        (enc32 ((le (s.b a) % Config.q + ua.val) % Config.q)))
  | bdiscard {s m} : bdiscardImmOk m = true →
      Effect (.bdiscard m) s { s with
        issuer := if m.toNat % 2 = 1 then .idle else s.issuer
        user := if m.toNat / 2 % 2 = 1 then .idle else s.user }

/-- An error a command can raise, with the state it is taken on: the old one, but for answers of the entropy port already
consumed (R161). -/
def Failure (i : Instr) (s : State) (e : CmdError) (v : State) : Prop :=
  (e.number = 5 ∧ i.wf = false ∨ e.number ∈ codes i) ∧
    (v = s ∨ draws i = true ∧ ∃ n, v = { s with entropy := s.entropy.drop n, blindA := v.blindA })

/-- A drawing command that waits for the entropy port (R188): nothing changes but the answers consumed, and the draw a
`BBLIND` has been given. -/
def Waits (i : Instr) (s t : State) : Prop :=
  draws i = true ∧ (s.entropy = [] ∧ t = s ∨
    ∃ d a b v m R P, i = .bblind d a b ∧ s.user = .idle ∧ message s = .ok m ∧
      decompress Config.curve (s.b a) = some R ∧
      decompress Config.curve (s.b b) = some P ∧ t = { s with entropy := [], blindA := some v })

theorem fail_of_code {i : Instr} {s : State} {e : CmdError} (h : e.number ∈ codes i) : Failure i s e s :=
  ⟨.inr h, .inl rfl⟩

theorem fail_of_wf {i : Instr} {s : State} {r : Illegal} (h : i.wf = false) : Failure i s (.illegalCommand r) s :=
  ⟨.inl ⟨rfl, h⟩, .inl rfl⟩

theorem fail_of_draw {i : Instr} {s : State} {rest : List PortAnswer} {a : PortAnswer} (hd : draws i = true)
    (hc : 3 ∈ codes i) (he : s.entropy = a :: rest) : Failure i s .invalidScalarSource { s with entropy := rest } :=
  ⟨.inr hc, .inr ⟨hd, 1, by rw [he]; rfl⟩⟩

/-- The three ways a command goes, as `exec_cases` says for every command. -/
def Ways (i : Instr) (s t : State) : Prop :=
  (∃ u, Effect i s u ∧ t = complete u) ∨ (∃ e v, Failure i s e v ∧ t = abort e v) ∨ Waits i s t

theorem fieldOp2_cases {i : Instr} {op : Fp → Fp → Fp} {d a b : RegNum} {s t : State}
    (eff : ∀ {x y}, s.fregs.get a = .holds x → s.fregs.get b = .holds y → Effect i s (s.setF d (op x y)))
    (hc : 6 ∈ codes i) (h : fieldOp2 op d a b s = .next t) : Ways i s t := by
  rcases finish_next h with ⟨u, r, ht⟩ | ⟨e, r, ht⟩
  · obtain ⟨x, hx, r⟩ := except_bind_ok.1 r
    obtain ⟨y, hy, r⟩ := except_bind_ok.1 r
    cases r
    exact .inl ⟨_, eff (readReg_ok.1 hx) (readReg_ok.1 hy), ht⟩
  · rcases except_bind_error.1 r with r | ⟨x, -, r⟩
    · obtain ⟨-, rfl⟩ := readReg_error.1 r
      exact .inr (.inl ⟨_, _, fail_of_code (e := .uninitRegister _) hc, ht⟩)
    · rcases except_bind_error.1 r with r | ⟨x, -, r⟩
      · obtain ⟨-, rfl⟩ := readReg_error.1 r
        exact .inr (.inl ⟨_, _, fail_of_code (e := .uninitRegister _) hc, ht⟩)
      · cases r

theorem fieldOp1_cases {i : Instr} {op : Fp → Fp} {d a : RegNum} {s t : State}
    (eff : ∀ {x}, s.fregs.get a = .holds x → Effect i s (s.setF d (op x)))
    (hc : 6 ∈ codes i) (h : fieldOp1 op d a s = .next t) : Ways i s t := by
  rcases finish_next h with ⟨u, r, ht⟩ | ⟨e, r, ht⟩
  · obtain ⟨x, hx, r⟩ := except_bind_ok.1 r
    cases r
    exact .inl ⟨_, eff (readReg_ok.1 hx), ht⟩
  · rcases except_bind_error.1 r with r | ⟨x, -, r⟩
    · obtain ⟨-, rfl⟩ := readReg_error.1 r
      exact .inr (.inl ⟨_, _, fail_of_code (e := .uninitRegister _) hc, ht⟩)
    · cases r

theorem scalarOp2_cases {i : Instr} {op : Fq → Fq → Fq} {d a b : RegNum} {s t : State}
    (eff : ∀ {x y}, s.sregs.get a = .holds x → s.sregs.get b = .holds y → Effect i s (s.setS d (op x y)))
    (hc : 6 ∈ codes i) (h : scalarOp2 op d a b s = .next t) : Ways i s t := by
  rcases finish_next h with ⟨u, r, ht⟩ | ⟨e, r, ht⟩
  · obtain ⟨x, hx, r⟩ := except_bind_ok.1 r
    obtain ⟨y, hy, r⟩ := except_bind_ok.1 r
    cases r
    exact .inl ⟨_, eff (readReg_ok.1 hx) (readReg_ok.1 hy), ht⟩
  · rcases except_bind_error.1 r with r | ⟨x, -, r⟩
    · obtain ⟨-, rfl⟩ := readReg_error.1 r
      exact .inr (.inl ⟨_, _, fail_of_code (e := .uninitRegister _) hc, ht⟩)
    · rcases except_bind_error.1 r with r | ⟨x, -, r⟩
      · obtain ⟨-, rfl⟩ := readReg_error.1 r
        exact .inr (.inl ⟨_, _, fail_of_code (e := .uninitRegister _) hc, ht⟩)
      · cases r

/-- The first draw of a `BBLIND`: the one it keeps, or one answer of the port. -/
theorem drawBlindA_cases (s : State) :
    (s.blindA = none ∧ s.entropy = [] ∧ drawBlindA s = .waiting) ∨
    (∃ v, s.blindA = some v ∧ drawBlindA s = .value v s) ∨
    (∃ v rest, s.blindA = none ∧ s.entropy = .value v :: rest ∧
      drawBlindA s = .value v { s with entropy := rest }) ∨
    (∃ rest, s.blindA = none ∧ s.entropy = .fail :: rest ∧ drawBlindA s = .failed { s with entropy := rest }) := by
  unfold drawBlindA
  split
  · rename_i v hv
    exact .inr (.inl ⟨v, hv, rfl⟩)
  · rename_i hv
    rcases draw_cases s with ⟨he, hd⟩ | ⟨v, rest, he, hd⟩ | ⟨rest, he, hd⟩
    · exact .inl ⟨hv, he, hd⟩
    · exact .inr (.inr (.inl ⟨v, rest, hv, he, hd⟩))
    · exact .inr (.inr (.inr ⟨rest, hv, he, hd⟩))

/-- After the first draw of a `BBLIND` the state is the old one, but for an answer consumed. -/
theorem drawBlindA_value {s t : State} {v : Draw} (h : drawBlindA s = .value v t) :
    s.blindA = some v ∧ t = s ∨
      ∃ rest, s.blindA = none ∧ s.entropy = .value v :: rest ∧ t = { s with entropy := rest } := by
  rcases drawBlindA_cases s with ⟨-, -, d⟩ | ⟨v', hb, d⟩ | ⟨v', rest, hb, e, d⟩ | ⟨rest, -, -, d⟩ <;> rw [d] at h <;>
    cases h
  · exact .inl ⟨hb, rfl⟩
  · exact .inr ⟨rest, hb, e, rfl⟩

theorem bblind_cases {d a b : RegNum} {s t : State} (h : execBblind d a b s = .next t) :
    Ways (.bblind d a b) s t := by
  unfold execBblind at h
  split at h
  · rename_i e he
    rcases finish_next h with ⟨u, r, ht⟩ | ⟨e, r, ht⟩ <;> cases r
    refine .inr (.inl ⟨_, _, fail_of_code ?_, ht⟩)
    rcases blindOperands_error he with rfl | rfl | rfl | rfl <;> simp [codes, CmdError.number]
  · rename_i m R P ho
    obtain ⟨hu, hm, hR, hP⟩ := blindOperands_ok.1 ho
    split at h
    · rename_i v hv
      rcases finish_next h with ⟨u, r, ht⟩ | ⟨e, r, ht⟩ <;> cases r
      rcases drawBlindA_cases s with ⟨-, -, d⟩ | ⟨v', -, d⟩ | ⟨v', rest, -, -, d⟩ | ⟨rest, -, e, d⟩ <;>
        rw [d] at hv <;> cases hv
      exact .inr (.inl ⟨_, _, fail_of_draw rfl (by simp [codes]) e, ht⟩)
    · rename_i hv
      cases h
      rcases drawBlindA_cases s with ⟨-, e, d⟩ | ⟨v', -, d⟩ | ⟨v', rest, -, -, d⟩ | ⟨rest, -, e, d⟩ <;>
        rw [d] at hv <;> cases hv
      exact .inr (.inr ⟨rfl, .inl ⟨e, rfl⟩⟩)
    · rename_i va v hv
      split at h
      · rename_i u hu'
        obtain ⟨rest, e, rfl⟩ := draw_failed hu'
        rcases finish_next h with ⟨u, r, ht⟩ | ⟨e, r, ht⟩ <;> cases r
        rcases drawBlindA_value hv with ⟨-, rfl⟩ | ⟨rest', -, e', rfl⟩
        · exact .inr (.inl ⟨_, _, fail_of_draw rfl (by simp [codes]) e, ht⟩)
        · simp only at e
          refine .inr (.inl ⟨_, _, ⟨.inr (by simp [codes, CmdError.number]), .inr ⟨rfl, 2, ?_⟩⟩, ht⟩)
          rw [e', e]; rfl
      · rename_i hw
        cases h
        have e := draw_waiting hw
        refine .inr (.inr ⟨rfl, .inr ⟨d, a, b, va, m, R, P, rfl, hu, hm, hR, hP, ?_⟩⟩)
        rcases drawBlindA_value hv with ⟨-, rfl⟩ | ⟨rest', -, -, rfl⟩
        · rw [← e]
        · rw [show rest' = [] from e]
      · rename_i vb u hu'
        obtain ⟨rest, e, rfl⟩ := draw_value hu'
        rcases finish_next h with ⟨u, r, ht⟩ | ⟨e, r, ht⟩
        · have e' := Except.ok.inj r
          subst e'
          rcases drawBlindA_value hv with ⟨hb, rfl⟩ | ⟨rest', hb, e', rfl⟩
          · exact .inl ⟨_, .bblind hu hm hR hP (.inl ⟨hb, e⟩), ht⟩
          · exact .inl ⟨_, .bblind hu hm hR hP (.inr ⟨hb, by rw [e']; simp only at e; rw [e]⟩), ht⟩
        · cases r

/-- The three ways a command goes. -/
theorem exec_cases {i : Instr} {s t : State} (h : exec i s = .next t) :
    (∃ u, Effect i s u ∧ t = complete u) ∨ (∃ e v, Failure i s e v ∧ t = abort e v) ∨ Waits i s t := by
  show Ways i s t
  have done {u : State} (he : Effect i s u) (ht : t = complete u) : Ways i s t := .inl ⟨u, he, ht⟩
  have bad {e : CmdError} {v : State} (hf : Failure i s e v) (ht : t = abort e v) : Ways i s t :=
    .inr (.inl ⟨e, v, hf, ht⟩)
  cases i
  case nop =>
    change execNop s = _ at h
    unfold execNop at h
    rcases finish_next h with ⟨u, r, ht⟩ | ⟨e, r, ht⟩ <;> cases r
    exact done .nop ht
  case zeroize =>
    change execZeroize s = _ at h
    unfold execZeroize at h
    rcases finish_next h with ⟨u, r, ht⟩ | ⟨e, r, ht⟩ <;> cases r
    exact done .zeroize ht
  case hashb a =>
    change execHashb a s = _ at h
    unfold execHashb at h
    rcases finish_next h with ⟨u, r, ht⟩ | ⟨e, r, ht⟩ <;> cases r
    exact done .hashb ht
  case hashbm a =>
    rcases finish_next h with ⟨u, r, ht⟩ | ⟨e, r, ht⟩
    · obtain ⟨m, hm, r⟩ := except_bind_ok.1 r
      cases r
      exact done (.hashbm hm) ht
    · rcases except_bind_error.1 r with r | ⟨m, -, r⟩
      · obtain ⟨-, rfl⟩ := message_error.1 r
        exact bad (fail_of_code (by simp [codes, CmdError.number])) ht
      · cases r
  case fadd d a b => exact fieldOp2_cases .fadd (by simp [codes]) h
  case fsub d a b => exact fieldOp2_cases .fsub (by simp [codes]) h
  case fmul d a b => exact fieldOp2_cases .fmul (by simp [codes]) h
  case fneg d a => exact fieldOp1_cases .fneg (by simp [codes]) h
  case fsqrtc d a => exact fieldOp1_cases .fsqrtc (by simp [codes]) h
  case sadd d a b => exact scalarOp2_cases .sadd (by simp [codes]) h
  case ssub d a b => exact scalarOp2_cases .ssub (by simp [codes]) h
  case smul d a b => exact scalarOp2_cases .smul (by simp [codes]) h
  case finv d a =>
    rcases finish_next h with ⟨u, r, ht⟩ | ⟨e, r, ht⟩
    · obtain ⟨x, hx, r⟩ := except_bind_ok.1 r
      split at r <;> cases r
      rename_i h0
      exact done (.finv (readReg_ok.1 hx) h0) ht
    · rcases except_bind_error.1 r with r | ⟨x, -, r⟩
      · obtain ⟨-, rfl⟩ := readReg_error.1 r
        exact bad (fail_of_code (by simp [codes, CmdError.number])) ht
      · split at r <;> cases r
        exact bad (fail_of_code (by simp [codes, CmdError.number])) ht
  case fld d a =>
    change execFld d a s = _ at h
    unfold execFld at h
    rcases finish_next h with ⟨u, r, ht⟩ | ⟨e, r, ht⟩ <;> cases r
    exact done .fld ht
  case fst d a =>
    rcases finish_next h with ⟨u, r, ht⟩ | ⟨e, r, ht⟩
    · obtain ⟨x, hx, r⟩ := except_bind_ok.1 r
      cases r
      exact done (.fst (readReg_ok.1 hx)) ht
    · rcases except_bind_error.1 r with r | ⟨x, -, r⟩
      · obtain ⟨-, rfl⟩ := readReg_error.1 r
        exact bad (fail_of_code (by simp [codes, CmdError.number])) ht
      · cases r
  case fldc d c =>
    rcases finish_next h with ⟨u, r, ht⟩ | ⟨e, r, ht⟩
    · obtain ⟨x, hx, r⟩ := except_bind_ok.1 r
      cases r
      exact done (.fldc hx) ht
    · rcases except_bind_error.1 r with r | ⟨x, -, r⟩
      · obtain ⟨hw, rfl⟩ := fieldConstant_error r
        exact bad (fail_of_wf hw) ht
      · cases r
  case h2s d =>
    change execH2s d s = _ at h
    unfold execH2s at h
    rcases finish_next h with ⟨u, r, ht⟩ | ⟨e, r, ht⟩ <;> cases r
    exact done .h2s ht
  case rnds d =>
    change (match draw s with
      | .value v t => finish t (.ok (t.setS d v.toFq))
      | .failed t => finish t (.error .invalidScalarSource)
      | .waiting => .next s) = _ at h
    rcases draw_cases s with ⟨he, hd⟩ | ⟨v, rest, he, hd⟩ | ⟨rest, he, hd⟩ <;> rw [hd] at h
    · cases h
      exact .inr (.inr ⟨rfl, .inl ⟨he, rfl⟩⟩)
    · rcases finish_next h with ⟨u, r, ht⟩ | ⟨e, r, ht⟩ <;> cases r
      exact done (.rnds he) ht
    · rcases finish_next h with ⟨u, r, ht⟩ | ⟨e, r, ht⟩ <;> cases r
      exact bad (fail_of_draw rfl (by simp [codes]) he) ht
  case sld d a =>
    change execSld d a s = _ at h
    unfold execSld at h
    rcases finish_next h with ⟨u, r, ht⟩ | ⟨e, r, ht⟩ <;> cases r
    exact done .sld ht
  case sst d a =>
    rcases finish_next h with ⟨u, r, ht⟩ | ⟨e, r, ht⟩
    · obtain ⟨x, hx, r⟩ := except_bind_ok.1 r
      cases r
      exact done (.sst (readReg_ok.1 hx)) ht
    · rcases except_bind_error.1 r with r | ⟨x, -, r⟩
      · obtain ⟨-, rfl⟩ := readReg_error.1 r
        exact bad (fail_of_code (by simp [codes, CmdError.number])) ht
      · cases r
  case padd d a b =>
    rcases finish_next h with ⟨u, r, ht⟩ | ⟨e, r, ht⟩
    · obtain ⟨x, hx, r⟩ := except_bind_ok.1 r
      obtain ⟨y, hy, r⟩ := except_bind_ok.1 r
      cases r
      exact done (.padd (readReg_ok.1 hx) (readReg_ok.1 hy)) ht
    · rcases except_bind_error.1 r with r | ⟨x, -, r⟩
      · obtain ⟨-, rfl⟩ := readReg_error.1 r
        exact bad (fail_of_code (by simp [codes, CmdError.number])) ht
      · rcases except_bind_error.1 r with r | ⟨x, -, r⟩
        · obtain ⟨-, rfl⟩ := readReg_error.1 r
          exact bad (fail_of_code (by simp [codes, CmdError.number])) ht
        · cases r
  case pdbl d a =>
    rcases finish_next h with ⟨u, r, ht⟩ | ⟨e, r, ht⟩
    · obtain ⟨x, hx, r⟩ := except_bind_ok.1 r
      cases r
      exact done (.pdbl (readReg_ok.1 hx)) ht
    · rcases except_bind_error.1 r with r | ⟨x, -, r⟩
      · obtain ⟨-, rfl⟩ := readReg_error.1 r
        exact bad (fail_of_code (by simp [codes, CmdError.number])) ht
      · cases r
  case psmul d a b =>
    rcases finish_next h with ⟨u, r, ht⟩ | ⟨e, r, ht⟩
    · obtain ⟨x, hx, r⟩ := except_bind_ok.1 r
      obtain ⟨y, hy, r⟩ := except_bind_ok.1 r
      have e := Except.ok.inj r
      subst e
      exact done (.psmul (readReg_ok.1 hx) (readReg_ok.1 hy)) ht
    · rcases except_bind_error.1 r with r | ⟨x, -, r⟩
      · obtain ⟨-, rfl⟩ := readReg_error.1 r
        exact bad (fail_of_code (by simp [codes, CmdError.number])) ht
      · rcases except_bind_error.1 r with r | ⟨x, -, r⟩
        · obtain ⟨-, rfl⟩ := readReg_error.1 r
          exact bad (fail_of_code (by simp [codes, CmdError.number])) ht
        · cases r
  case psmulg d a =>
    rcases finish_next h with ⟨u, r, ht⟩ | ⟨e, r, ht⟩
    · obtain ⟨x, hx, r⟩ := except_bind_ok.1 r
      have e := Except.ok.inj r
      subst e
      exact done (.psmulg (readReg_ok.1 hx)) ht
    · rcases except_bind_error.1 r with r | ⟨x, -, r⟩
      · obtain ⟨-, rfl⟩ := readReg_error.1 r
        exact bad (fail_of_code (by simp [codes, CmdError.number])) ht
      · cases r
  case peq a b =>
    rcases finish_next h with ⟨u, r, ht⟩ | ⟨e, r, ht⟩
    · obtain ⟨x, hx, r⟩ := except_bind_ok.1 r
      obtain ⟨y, hy, r⟩ := except_bind_ok.1 r
      cases r
      exact done (.peq (readReg_ok.1 hx) (readReg_ok.1 hy)) ht
    · rcases except_bind_error.1 r with r | ⟨x, -, r⟩
      · obtain ⟨-, rfl⟩ := readReg_error.1 r
        exact bad (fail_of_code (by simp [codes, CmdError.number])) ht
      · rcases except_bind_error.1 r with r | ⟨x, -, r⟩
        · obtain ⟨-, rfl⟩ := readReg_error.1 r
          exact bad (fail_of_code (by simp [codes, CmdError.number])) ht
        · cases r
  case pcmp d a =>
    rcases finish_next h with ⟨u, r, ht⟩ | ⟨e, r, ht⟩
    · obtain ⟨x, hx, r⟩ := except_bind_ok.1 r
      cases r
      exact done (.pcmp (readReg_ok.1 hx)) ht
    · rcases except_bind_error.1 r with r | ⟨x, -, r⟩
      · obtain ⟨-, rfl⟩ := readReg_error.1 r
        exact bad (fail_of_code (by simp [codes, CmdError.number])) ht
      · cases r
  case pdec d a =>
    rcases finish_next h with ⟨u, r, ht⟩ | ⟨e, r, ht⟩
    · obtain ⟨x, hx, r⟩ := except_bind_ok.1 r
      cases r
      exact done (.pdec (pointOperand_ok.1 hx)) ht
    · rcases except_bind_error.1 r with r | ⟨x, -, r⟩
      · obtain ⟨-, rfl⟩ := pointOperand_error.1 r
        exact bad (fail_of_code (by simp [codes, CmdError.number])) ht
      · cases r
  case pldc d c =>
    rcases finish_next h with ⟨u, r, ht⟩ | ⟨e, r, ht⟩
    · obtain ⟨x, hx, r⟩ := except_bind_ok.1 r
      cases r
      exact done (.pldc hx) ht
    · rcases except_bind_error.1 r with r | ⟨x, -, r⟩
      · obtain ⟨hw, rfl⟩ := pointConstant_error r
        exact bad (fail_of_wf hw) ht
      · cases r
  case kexpand a =>
    rcases finish_next h with ⟨u, r, ht⟩ | ⟨e, r, ht⟩
    · obtain ⟨x, hx, r⟩ := except_bind_ok.1 r
      cases r
      exact done (.kexpand (needKlen_ok.1 hx)) ht
    · rcases except_bind_error.1 r with r | ⟨x, -, r⟩
      · obtain ⟨-, rfl⟩ := needKlen_error.1 r
        exact bad (fail_of_code (by simp [codes, CmdError.number])) ht
      · cases r
  case kderive d =>
    rcases finish_next h with ⟨u, r, ht⟩ | ⟨e, r, ht⟩
    · obtain ⟨x, hx, r⟩ := except_bind_ok.1 r
      have e := Except.ok.inj r
      subst e
      exact done (.kderive (readReg_ok.1 hx)) ht
    · rcases except_bind_error.1 r with r | ⟨x, -, r⟩
      · obtain ⟨-, rfl⟩ := readReg_error.1 r
        exact bad (fail_of_code (by simp [codes, CmdError.number])) ht
      · cases r
  case sign d a =>
    rcases finish_next h with ⟨u, r, ht⟩ | ⟨e, r, ht⟩
    · obtain ⟨d', hd, r⟩ := except_bind_ok.1 r
      obtain ⟨_, hk, r⟩ := except_bind_ok.1 r
      obtain ⟨m, hm, r⟩ := except_bind_ok.1 r
      obtain ⟨hp, rfl⟩ := pairOperand_ok.1 hd
      have e := Except.ok.inj r
      subst e
      exact done (.sign hp (needKlen_ok.1 hk) hm) ht
    · rcases except_bind_error.1 r with r | ⟨x, -, r⟩
      · obtain ⟨hw, rfl⟩ := pairOperand_error.1 r
        exact bad (fail_of_wf hw) ht
      · rcases except_bind_error.1 r with r | ⟨x, -, r⟩
        · obtain ⟨-, rfl⟩ := needKlen_error.1 r
          exact bad (fail_of_code (by simp [codes, CmdError.number])) ht
        · rcases except_bind_error.1 r with r | ⟨x, -, r⟩
          · obtain ⟨-, rfl⟩ := message_error.1 r
            exact bad (fail_of_code (by simp [codes, CmdError.number])) ht
          · cases r
  case verify a b =>
    rcases finish_next h with ⟨u, r, ht⟩ | ⟨e, r, ht⟩
    · obtain ⟨b', hb, r⟩ := except_bind_ok.1 r
      obtain ⟨_, hk, r⟩ := except_bind_ok.1 r
      obtain ⟨_, hs, r⟩ := except_bind_ok.1 r
      obtain ⟨m, hm, r⟩ := except_bind_ok.1 r
      obtain ⟨hp, rfl⟩ := pairOperand_ok.1 hb
      have e := Except.ok.inj r
      subst e
      exact done (.verify hp (needKlen_ok.1 hk) (needSlen_ok.1 hs) hm) ht
    · rcases except_bind_error.1 r with r | ⟨x, -, r⟩
      · obtain ⟨hw, rfl⟩ := pairOperand_error.1 r
        exact bad (fail_of_wf hw) ht
      · rcases except_bind_error.1 r with r | ⟨x, -, r⟩
        · obtain ⟨-, rfl⟩ := needKlen_error.1 r
          exact bad (fail_of_code (by simp [codes, CmdError.number])) ht
        · rcases except_bind_error.1 r with r | ⟨x, -, r⟩
          · obtain ⟨-, rfl⟩ := needSlen_error.1 r
            exact bad (fail_of_code (by simp [codes, CmdError.number])) ht
          · rcases except_bind_error.1 r with r | ⟨x, -, r⟩
            · obtain ⟨-, rfl⟩ := message_error.1 r
              exact bad (fail_of_code (by simp [codes, CmdError.number])) ht
            · cases r
  case bcommit d =>
    change execBcommit d s = _ at h
    unfold execBcommit at h
    split at h
    · rename_i e he
      rcases finish_next h with ⟨u, r, ht⟩ | ⟨e, r, ht⟩ <;> cases r
      obtain ⟨-, rfl⟩ := needIssuerIdle_error.1 he
      exact bad (fail_of_code (by simp [codes, CmdError.number])) ht
    · rename_i hi
      have hi := needIssuerIdle_ok.1 hi
      rcases draw_cases s with ⟨he, hd⟩ | ⟨v, rest, he, hd⟩ | ⟨rest, he, hd⟩ <;> rw [hd] at h
      · cases h
        exact .inr (.inr ⟨rfl, .inl ⟨he, rfl⟩⟩)
      · rcases finish_next h with ⟨u, r, ht⟩ | ⟨e, r, ht⟩
        · have e := Except.ok.inj r
          subst e
          exact done (.bcommit hi he) ht
        · cases r
      · rcases finish_next h with ⟨u, r, ht⟩ | ⟨e, r, ht⟩ <;> cases r
        exact bad (fail_of_draw rfl (by simp [codes]) he) ht
  case bblind d a b => exact bblind_cases h
  case bsign d a =>
    rcases finish_next h with ⟨u, r, ht⟩ | ⟨e, r, ht⟩
    · obtain ⟨⟨ik, ir⟩, hc, r⟩ := except_bind_ok.1 r
      obtain ⟨k, hk, r⟩ := except_bind_ok.1 r
      have e := Except.ok.inj r
      subst e
      exact done (.bsign (needCommit_ok.1 hc) (readReg_ok.1 hk)) ht
    · rcases except_bind_error.1 r with r | ⟨x, -, r⟩
      · have e := needCommit_error r
        subst e
        exact bad (fail_of_code (by simp [codes, CmdError.number])) ht
      · rcases except_bind_error.1 r with r | ⟨x, -, r⟩
        · obtain ⟨-, rfl⟩ := readReg_error.1 r
          exact bad (fail_of_code (by simp [codes, CmdError.number])) ht
        · cases r
  case bunblind d a =>
    rcases finish_next h with ⟨u, r, ht⟩ | ⟨e, r, ht⟩
    · obtain ⟨d', hd, r⟩ := except_bind_ok.1 r
      obtain ⟨⟨ua, urp⟩, hc, r⟩ := except_bind_ok.1 r
      obtain ⟨hp, rfl⟩ := pairOperand_ok.1 hd
      have e := Except.ok.inj r
      subst e
      exact done (.bunblind hp (needBlinded_ok.1 hc)) ht
    · rcases except_bind_error.1 r with r | ⟨x, -, r⟩
      · obtain ⟨hw, rfl⟩ := pairOperand_error.1 r
        exact bad (fail_of_wf hw) ht
      · rcases except_bind_error.1 r with r | ⟨x, -, r⟩
        · have e := needBlinded_error r
          subst e
          exact bad (fail_of_code (by simp [codes, CmdError.number])) ht
        · cases r
  case bdiscard m =>
    rcases finish_next h with ⟨u, r, ht⟩ | ⟨e, r, ht⟩
    · obtain ⟨n, hn, r⟩ := except_bind_ok.1 r
      obtain ⟨hw, rfl⟩ := maskOperand_ok.1 hn
      have e := Except.ok.inj r
      refine done (.bdiscard hw) (ht.trans (congrArg complete (e.symm.trans ?_)))
      split <;> split <;> rfl
    · rcases except_bind_error.1 r with r | ⟨x, -, r⟩
      · obtain ⟨hw, rfl⟩ := maskOperand_error.1 r
        exact bad (fail_of_wf hw) ht
      · cases r

end Sys2Proof.Machine
end

