-- ==== Sys2Proof/Laws/Step.lean ====
section
/-! SUPPORT. What a bus access and a step can do, said once. -/

namespace Sys2Proof.Machine

/-- A host read changes nothing but the answer, and `BUSVIOL` while the core is busy (R51, R185). -/
theorem busRead_cases (w : Width) (off : Offset) (s : State) :
    ∃ ans, busRead w off s = { s with answer := ans } ∨
      s.busy = true ∧ busRead w off s = { s with errs := s.errs ||| errsBusviol, answer := ans } := by
  unfold busRead
  split
  · rename_i hb
    split
    · exact ⟨_, .inl rfl⟩
    · exact ⟨.error, .inr ⟨hb, rfl⟩⟩
  · split
    · split <;> exact ⟨_, .inl rfl⟩
    · exact ⟨_, .inl rfl⟩

/-- A location the host can write, with what the write does (R46). -/
inductive Stores (s : State) (w : Word) : State → Prop where
  | cmd : Stores s w (startCommand s w)
  | errs : Stores s w (s.clearErrs w)
  | mlen : Stores s w (s.setMlen w)
  | arglen : Stores s w (s.setArglen w)
  | hd (k : Nat) : Stores s w (s.setHd (setWord s.hd k w))
  | b (i : RegNum) (k : Nat) : Stores s w (s.setB i (setWord (s.b i) k w))
  | msg (o : Nat) : msgBase ≤ o → o + 3 < msgBase + Config.msgMax → Stores s w { s with msg := memWriteWord s.msg o w }

/-- An aligned offset located in the message buffer leaves room for its word. -/
theorem locate_msg {off o : Nat} (h : locate off = .msg o) (ha : off % 4 = 0) :
    o = off ∧ msgBase ≤ o ∧ o + 3 < msgBase + Config.msgMax := by
  unfold locate at h
  repeat' split at h
  all_goals first
    | (cases h; done)
    | skip
  rename_i hm
  cases h
  have : msgBase = 4096 := rfl
  obtain ⟨-, -, _⟩ := Config.msgMax_range
  omega

theorem writeLoc_stores {s t : State} {w : Word} {off : Nat} (ha : off % 4 = 0)
    (h : writeLoc s w (locate off) = some t) : Stores s w t := by
  generalize hl : locate off = l at h
  cases l <;> simp only [writeLoc, Option.some.injEq, reduceCtorEq] at h
  case msg o =>
    obtain ⟨-, lo, hi⟩ := locate_msg hl ha
    exact h ▸ .msg o lo hi
  all_goals subst h; constructor

/-- A host write is refused because the core is busy, refused as the address map says, or stores. -/
theorem busWrite_cases (w : Width) (off : Offset) (data : Word) (s : State) :
    s.busy = true ∧ busWrite w off data s = busyRefusal s ∨
    s.busy = false ∧ busWrite w off data s = { s with answer := .error } ∨
    s.busy = false ∧ ∃ t, Stores s data t ∧ busWrite w off data s = { t with answer := .okay } := by
  unfold busWrite
  cases hb : s.busy
  · simp only [Bool.false_eq_true, if_false, true_and, false_and, false_or]
    split
    · rename_i ha
      have ha : off.toNat % 4 = 0 := by
        simp only [acceptable, Bool.and_eq_true, beq_iff_eq] at ha; exact ha.2
      split
      · rename_i t ht
        exact .inr ⟨t, writeLoc_stores ha ht, rfl⟩
      · exact .inl rfl
    · exact .inl rfl
  · simp

/-- Every command comes to a next state. -/
theorem exec_total (i : Instr) (s : State) : ∃ t, exec i s = .next t := by
  have fin (u : State) (r : Except CmdError State) : ∃ t, finish u r = .next t := by
    cases r <;> exact ⟨_, rfl⟩
  cases i
  case rnds d =>
    show ∃ t, execRnds d s = .next t
    unfold execRnds
    split
    · exact fin _ _
    · exact fin _ _
    · exact ⟨_, rfl⟩
  case bcommit d =>
    show ∃ t, execBcommit d s = .next t
    unfold execBcommit
    split
    · exact fin _ _
    · split
      · exact fin _ _
      · exact fin _ _
      · exact ⟨_, rfl⟩
  case bblind d a b =>
    show ∃ t, execBblind d a b s = .next t
    unfold execBblind
    split
    · exact fin _ _
    · split
      · exact fin _ _
      · exact ⟨_, rfl⟩
      · split
        · exact fin _ _
        · exact ⟨_, rfl⟩
        · exact fin _ _
  all_goals first | exact fin _ _ | exact ⟨_, rfl⟩

/-- What a step does to the state, the event already taken off the list. -/
inductive StepEffect (s : State) : State → Prop where
  | idle : s.inflight = none → StepEffect s s
  | illegal {w r} : s.inflight = some w → decode w = .error r → StepEffect s (abort (.illegalCommand r) s)
  | command {w i t} : s.inflight = some w → decode w = .ok i → exec i s = .next t → StepEffect s t
  | read (w off) : StepEffect s (busRead w off s)
  | write (w off data) : StepEffect s (busWrite w off data s)
  | portAnswers (a) : StepEffect s { s with entropy := s.entropy ++ [a] }
  | reset : StepEffect s (resetAll s)

theorem runCore_cases {s t : State} (h : runCore s = .next t) : StepEffect s t := by
  unfold runCore at h
  split at h
  · rename_i hn
    cases h
    exact .idle hn
  · rename_i w hw
    split at h
    · rename_i r hr
      rcases finish_next h with ⟨u, e, ht⟩ | ⟨e, he, ht⟩
      · cases e
      · cases he
        exact ht ▸ .illegal hw hr
    · rename_i i hi
      exact .command hw hi h

/-- What a step can do. -/
theorem step_cases {s t : State} (h : step s = .next t) : StepEffect { s with events := s.events.tail } t := by
  unfold step at h
  split at h
  · rename_i he
    have : s = { s with events := s.events.tail } := by
      cases s; simp_all
    rw [← this]
    exact runCore_cases h
  · rename_i e rest he
    rw [he, List.tail_cons]
    cases e with
    | coreRuns => exact runCore_cases h
    | read w off => cases h; exact .read w off
    | write w off data => cases h; exact .write w off data
    | portAnswers a => cases h; exact .portAnswers a
    | reset => cases h; exact .reset

theorem runCore_total (s : State) : ∃ t, runCore s = .next t := by
  unfold runCore
  split
  · exact ⟨_, rfl⟩
  · split
    · exact ⟨_, rfl⟩
    · exact exec_total _ _

end Sys2Proof.Machine
end

