-- ==== Sys2Proof/Laws/Bus.lean ====
section
/-! SUPPORT. The control registers bit by bit (R32 to R36), what an accepted access does, where the address map puts an
offset (R46), and the words of a byte string (R47). -/

namespace Sys2Proof.Machine

theorem IssuerSession.number_lt (c : IssuerSession) : c.number < 3 := by cases c <;> simp [IssuerSession.number]

theorem UserSession.number_lt (c : UserSession) : c.number < 3 := by cases c <;> simp [UserSession.number]

/-- The layout of R32 on every value of the fields. -/
theorem status_layout : ∀ (b e v k p : Bool) (i u : Fin 3),
    let w := BitVec.ofNat 32 (b.toNat + 2 * e.toNat + 4 * v.toNat + 16 * i.val + 64 * u.val + 256 * k.toNat + 512 * p.toNat)
    w.getLsbD 0 = b ∧ w.getLsbD 1 = e ∧ w.getLsbD 2 = v ∧ w.getLsbD 3 = false ∧ (w.extractLsb' 4 2).toNat = i.val ∧
      (w.extractLsb' 6 2).toNat = u.val ∧ w.getLsbD 8 = k ∧ w.getLsbD 9 = p ∧ w.extractLsb' 10 22 = 0 := by
  decide +kernel

/-- The fields of `STATUS` (R32). -/
theorem statusWord_fields (s : State) :
    (statusWord s).getLsbD 0 = s.busy ∧ (statusWord s).getLsbD 1 = s.eqFlag ∧ (statusWord s).getLsbD 2 = s.validFlag ∧
      (statusWord s).getLsbD 3 = false ∧ ((statusWord s).extractLsb' 4 2).toNat = s.issuer.number ∧
      ((statusWord s).extractLsb' 6 2).toNat = s.user.number ∧ (statusWord s).getLsbD 8 = s.key.valid ∧
      (statusWord s).getLsbD 9 = s.kp.valid ∧ (statusWord s).extractLsb' 10 22 = 0 :=
  status_layout _ _ _ _ _ ⟨_, s.issuer.number_lt⟩ ⟨_, s.user.number_lt⟩

theorem not_busy {s : State} (h : s.inflight = none) : s.busy = false := by simp [State.busy, h]

theorem busy_of {s : State} (h : s.inflight ≠ none) : s.busy = true := by
  unfold State.busy; cases hh : s.inflight <;> simp_all

/-- An acceptable read while `BUSY = 0` (R46). -/
theorem busRead_word {s : State} {off : Offset} (h : s.inflight = none) (ha : off.toNat % 4 = 0) :
    busRead .word off s = { s with
      answer := match readLoc s (locate off.toNat) with
        | some d => .okayData d
        | none => .error } := by
  unfold busRead
  rw [not_busy h, if_neg (by decide), if_pos (by simp [acceptable, ha])]
  cases readLoc s (locate off.toNat) <;> rfl

/-- An acceptable write that the address map accepts, while `BUSY = 0` (R46). -/
theorem busWrite_word {s t : State} {off : Offset} {d : Word} (h : s.inflight = none) (ha : off.toNat % 4 = 0)
    (ht : writeLoc s d (locate off.toNat) = some t) : busWrite .word off d s = { t with answer := .okay } := by
  unfold busWrite
  rw [not_busy h, if_neg (by decide), if_pos (by simp [acceptable, ha]), ht]

/-- An acceptable write that the address map refuses, while `BUSY = 0` (R53). -/
theorem busWrite_refused {s : State} {off : Offset} {d : Word} (h : s.inflight = none) (ha : off.toNat % 4 = 0)
    (ht : writeLoc s d (locate off.toNat) = none) : busWrite .word off d s = { s with answer := .error } := by
  unfold busWrite
  rw [not_busy h, if_neg (by decide), if_pos (by simp [acceptable, ha]), ht]

/-- Every size R9 admits is one of the sizes of the buffer (R9, R42). -/
theorem msgMax_of_choice {n : Nat} (h : Config.msgChoice = n / 4 - 1) (h1 : 4 ≤ n) (h2 : n ≤ 61440) (h3 : n % 4 = 0) :
    Config.msgMax = n := by
  unfold Config.msgMax; omega

theorem msgBase_eq : msgBase = 0x1000 := rfl

theorem locate_status {off : Nat} (h : locate off = .status) : off = 0x008 := by
  unfold locate at h
  repeat' split at h
  all_goals first | assumption | cases h

theorem locate_cmd {off : Nat} (h : locate off = .cmd) : off = 0x004 := by
  unfold locate at h
  repeat' split at h
  all_goals first | assumption | cases h

theorem locate_errs {off : Nat} (h : locate off = .errs) : off = 0x010 := by
  unfold locate at h
  repeat' split at h
  all_goals first | assumption | cases h

/-- The reserved ranges of the address map (R46, R52). -/
theorem locate_reserved {off : Nat} (h : (0x001c ≤ off ∧ off ≤ 0x003f) ∨ (0x0080 ≤ off ∧ off ≤ 0x00ff) ∨
    (0x0200 ≤ off ∧ off ≤ 0x0fff) ∨ 0x1000 + Config.msgMax ≤ off) : locate off = .reserved := by
  obtain ⟨h1, -⟩ := Config.msgMax_range
  have h2 := msgBase_eq
  unfold locate
  repeat' split
  all_goals first | rfl | omega

theorem locate_b (i : RegNum) (k : Fin 8) : locate (0x0100 + 32 * i.val + 4 * k.val) = .b i k.val := by
  revert i k; decide

theorem locate_hd (k : Fin 16) : locate (0x0040 + 4 * k.val) = .hd k.val := by
  revert k; decide

theorem locate_msg_word {off : Nat} (h1 : 0x1000 ≤ off) (h2 : off < 0x1000 + Config.msgMax) :
    locate off = .msg off := by
  have h4 := msgBase_eq
  unfold locate
  repeat' split
  all_goals first | rfl | omega

theorem wordMask (n i : Nat) : (BitVec.ofNat n (2 ^ 32 - 1)).getLsbD i = (decide (i < n) && decide (i < 32)) := by
  rw [BitVec.getLsbD_ofNat, Nat.testBit_two_pow_sub_one]

theorem setWord_getLsbD {n : Nat} (b : BitVec n) (k : Nat) (w : Word) (x : Nat) (h : 32 * k + 32 ≤ n) (hx : x < n) :
    (setWord b k w).getLsbD x =
      if 32 * k ≤ x ∧ x < 32 * k + 32 then w.getLsbD (x - 32 * k) else b.getLsbD x := by
  simp only [setWord, BitVec.getLsbD_or, BitVec.getLsbD_and, BitVec.getLsbD_not, BitVec.getLsbD_shiftLeft, wordMask,
    BitVec.getLsbD_setWidth]
  have h0 : x - 32 * k < n := by omega
  by_cases h1 : x < 32 * k
  · have h2 : ¬ (32 * k ≤ x ∧ x < 32 * k + 32) := by omega
    simp [hx, h1, h2]
  · by_cases h3 : x - 32 * k < 32
    · have h2 : 32 * k ≤ x ∧ x < 32 * k + 32 := by omega
      simp [hx, h1, h2, h3, h0]
    · have h2 : ¬ (32 * k ≤ x ∧ x < 32 * k + 32) := by omega
      have h4 : w.getLsbD (x - 32 * k) = false := BitVec.getLsbD_of_ge _ _ (by omega)
      simp [hx, h1, h2, h3, h4]

/-- A word written reads back (R47). -/
theorem getWord_setWord_same {n : Nat} (b : BitVec n) (k : Nat) (w : Word) (h : 32 * k + 32 ≤ n) :
    getWord (setWord b k w) k = w := by
  ext i hi
  rw [getWord, BitVec.getElem_extractLsb', setWord_getLsbD _ _ _ _ h (by omega), if_pos (by omega),
    show 32 * k + i - 32 * k = i by omega, BitVec.getLsbD_eq_getElem hi]

/-- A word written leaves the other words alone (R47). -/
theorem getWord_setWord_other {n : Nat} (b : BitVec n) (k j : Nat) (w : Word) (hk : 32 * k + 32 ≤ n)
    (h : 32 * j + 32 ≤ n) (hj : j ≠ k) : getWord (setWord b k w) j = getWord b j := by
  ext i hi
  rw [getWord, getWord, BitVec.getElem_extractLsb', BitVec.getElem_extractLsb', setWord_getLsbD _ _ _ _ hk (by omega),
    if_neg (by omega)]

end Sys2Proof.Machine
end

