-- ==== Sys2Proof/Laws/Edwards.lean ====
section
/-! SUPPORT. The twisted Edwards law for `a = -1` over a field in which `-1` is a square and `d` is not (R109): it is
complete on the curve and closed on it. -/

namespace Sys2Proof.Machine

variable {K : Type} [Field K]

/-- `-x² + y² = 1 + d·x²·y²` over a field (R108). -/
def EdwardsOn (d x y : K) : Prop := -x ^ 2 + y ^ 2 = 1 + d * x ^ 2 * y ^ 2

/-- Completeness of the law (R109): with `e² = 1`, the product `d·x1·x2·y1·y2` is never `e`. -/
theorem edwards_complete {d i e x1 y1 x2 y2 : K} (h2 : (2 : K) ≠ 0) (hi : i ^ 2 = -1) (hd : ¬ IsSquare d)
    (he : e ^ 2 = 1) (h1 : EdwardsOn d x1 y1) (h3 : EdwardsOn d x2 y2) : d * (x1 * x2) * (y1 * y2) ≠ e := by
  intro hk
  have he0 : e ≠ 0 := by rintro rfl; simp at he
  unfold EdwardsOn at h1 h3
  have hx1 : x1 ≠ 0 := by rintro rfl; apply he0; rw [← hk]; ring
  have hy1 : y1 ≠ 0 := by rintro rfl; apply he0; rw [← hk]; ring
  have hy2 : y2 ≠ 0 := by rintro rfl; apply he0; rw [← hk]; ring
  have hi0 : i ≠ 0 := by rintro rfl; simp at hi
  have plus : (i * x1 + e * y1) ^ 2 = -d * (i * x1 * y1) ^ 2 * (i * x2 + y2) ^ 2 := by
    linear_combination x1 ^ 2 * hi + y1 ^ 2 * he + h1
      + d * x1 ^ 2 * y1 ^ 2 * (x2 ^ 2 * (i ^ 2 - 1) + y2 ^ 2 + 2 * i * x2 * y2) * hi
      - d * x1 ^ 2 * y1 ^ 2 * h3 - he - (d * (x1 * x2) * (y1 * y2) + e) * hk - 2 * i * x1 * y1 * hk
  have minus : (i * x1 - e * y1) ^ 2 = -d * (i * x1 * y1) ^ 2 * (i * x2 - y2) ^ 2 := by
    linear_combination x1 ^ 2 * hi + y1 ^ 2 * he + h1
      + d * x1 ^ 2 * y1 ^ 2 * (x2 ^ 2 * (i ^ 2 - 1) + y2 ^ 2 - 2 * i * x2 * y2) * hi
      - d * x1 ^ 2 * y1 ^ 2 * h3 - he - (d * (x1 * x2) * (y1 * y2) + e) * hk + 2 * i * x1 * y1 * hk
  have square : ∀ a b : K, b ≠ 0 → a ^ 2 = -d * (i * x1 * y1) ^ 2 * b ^ 2 → False := by
    intro a b hb hab
    apply hd
    refine ⟨i * a / (i * x1 * y1 * b), ?_⟩
    field_simp
    linear_combination d * x1 ^ 2 * y1 ^ 2 * b ^ 2 * hi - hab
  by_cases hp : i * x2 + y2 = 0
  · by_cases hm : i * x2 - y2 = 0
    · apply hy2
      have : 2 * y2 = 0 := by linear_combination hp - hm
      exact (mul_eq_zero.1 this).resolve_left h2
    · exact square _ _ hm minus
  · exact square _ _ hp plus

/-- The sum of two points of the curve is on the curve (R109). -/
theorem edwards_closed {d x1 y1 x2 y2 k : K} (hk : k = d * (x1 * x2) * (y1 * y2)) (hp : 1 + k ≠ 0) (hm : 1 - k ≠ 0)
    (h1 : EdwardsOn d x1 y1) (h2 : EdwardsOn d x2 y2) :
    EdwardsOn d ((x1 * y2 + x2 * y1) * (1 + k)⁻¹) ((y1 * y2 + x1 * x2) * (1 - k)⁻¹) := by
  unfold EdwardsOn at *
  field_simp
  grind

/-- Associativity of the first coordinate, denominators cleared (R109). -/
theorem edwards_assoc_x {d x1 y1 x2 y2 x3 y3 : K} (h1 : EdwardsOn d x1 y1) (h2 : EdwardsOn d x2 y2)
    (h3 : EdwardsOn d x3 y3) :
    ((x1 * y2 + x2 * y1) * y3 * (1 - d * (x1 * x2) * (y1 * y2))
        + x3 * (y1 * y2 + x1 * x2) * (1 + d * (x1 * x2) * (y1 * y2)))
      * ((1 - (d * (x2 * x3) * (y2 * y3)) ^ 2) + d * (x2 * y3 + x3 * y2) * (y2 * y3 + x2 * x3) * x1 * y1)
    = (x1 * (y2 * y3 + x2 * x3) * (1 + d * (x2 * x3) * (y2 * y3))
        + (x2 * y3 + x3 * y2) * y1 * (1 - d * (x2 * x3) * (y2 * y3)))
      * ((1 - (d * (x1 * x2) * (y1 * y2)) ^ 2) + d * (x1 * y2 + x2 * y1) * (y1 * y2 + x1 * x2) * x3 * y3) := by
  unfold EdwardsOn at *
  grind (ringSteps := 1000000)

/-- Associativity of the second coordinate, denominators cleared (R109). -/
theorem edwards_assoc_y {d x1 y1 x2 y2 x3 y3 : K} (h1 : EdwardsOn d x1 y1) (h2 : EdwardsOn d x2 y2)
    (h3 : EdwardsOn d x3 y3) :
    ((y1 * y2 + x1 * x2) * y3 * (1 + d * (x1 * x2) * (y1 * y2))
        + (x1 * y2 + x2 * y1) * x3 * (1 - d * (x1 * x2) * (y1 * y2)))
      * ((1 - (d * (x2 * x3) * (y2 * y3)) ^ 2) - d * (x2 * y3 + x3 * y2) * (y2 * y3 + x2 * x3) * x1 * y1)
    = (y1 * (y2 * y3 + x2 * x3) * (1 + d * (x2 * x3) * (y2 * y3))
        + x1 * (x2 * y3 + x3 * y2) * (1 - d * (x2 * x3) * (y2 * y3)))
      * ((1 - (d * (x1 * x2) * (y1 * y2)) ^ 2) - d * (x1 * y2 + x2 * y1) * (y1 * y2 + x1 * x2) * x3 * y3) := by
  unfold EdwardsOn at *
  grind (ringSteps := 1000000)

/-- The law of R109 over a field. -/
def edAdd (d : K) (P Q : K × K) : K × K :=
  ((P.1 * Q.2 + Q.1 * P.2) * (1 + d * (P.1 * Q.1) * (P.2 * Q.2))⁻¹,
   (P.2 * Q.2 + P.1 * Q.1) * (1 - d * (P.1 * Q.1) * (P.2 * Q.2))⁻¹)

/-- The denominators of the law are never 0 on the curve (R109). -/
theorem edAdd_denominators {d i : K} (h2 : (2 : K) ≠ 0) (hi : i ^ 2 = -1) (hd : ¬ IsSquare d) {P Q : K × K}
    (hP : EdwardsOn d P.1 P.2) (hQ : EdwardsOn d Q.1 Q.2) :
    1 + d * (P.1 * Q.1) * (P.2 * Q.2) ≠ 0 ∧ 1 - d * (P.1 * Q.1) * (P.2 * Q.2) ≠ 0 := by
  constructor
  · intro h
    exact edwards_complete (e := -1) h2 hi hd (by ring) hP hQ (by linear_combination h)
  · intro h
    exact edwards_complete (e := 1) h2 hi hd (by ring) hP hQ (by linear_combination -h)

theorem edAdd_on {d i : K} (h2 : (2 : K) ≠ 0) (hi : i ^ 2 = -1) (hd : ¬ IsSquare d) {P Q : K × K}
    (hP : EdwardsOn d P.1 P.2) (hQ : EdwardsOn d Q.1 Q.2) :
    EdwardsOn d (edAdd d P Q).1 (edAdd d P Q).2 := by
  obtain ⟨hp, hm⟩ := edAdd_denominators h2 hi hd hP hQ
  exact edwards_closed rfl hp hm hP hQ

theorem edAdd_comm (d : K) (P Q : K × K) : edAdd d P Q = edAdd d Q P := by
  unfold edAdd
  rw [show P.1 * Q.2 + Q.1 * P.2 = Q.1 * P.2 + P.1 * Q.2 by ring,
    show P.2 * Q.2 + P.1 * Q.1 = Q.2 * P.2 + Q.1 * P.1 by ring,
    show d * (P.1 * Q.1) * (P.2 * Q.2) = d * (Q.1 * P.1) * (Q.2 * P.2) by ring]

theorem edAdd_neutral (d : K) (P : K × K) : edAdd d (0, 1) P = P := by
  unfold edAdd
  simp

theorem edAdd_neg {d i : K} (h2 : (2 : K) ≠ 0) (hi : i ^ 2 = -1) (hd : ¬ IsSquare d) {P : K × K}
    (hP : EdwardsOn d P.1 P.2) : edAdd d (-P.1, P.2) P = (0, 1) := by
  have hN : EdwardsOn d (-P.1, P.2).1 (-P.1, P.2).2 := by unfold EdwardsOn at *; linear_combination hP
  obtain ⟨hp, hm⟩ := edAdd_denominators h2 hi hd hN hP
  unfold edAdd
  refine Prod.ext ?_ ?_
  · simp only; rw [show -P.1 * P.2 + P.1 * P.2 = (0 : K) by ring, zero_mul]
  · have : P.2 * P.2 + -P.1 * P.1 = 1 - d * (-P.1 * P.1) * (P.2 * P.2) := by
      unfold EdwardsOn at hP; linear_combination hP
    simp only; rw [this]; exact mul_inv_cancel₀ hm

/-- One coordinate of a double sum with the inner denominators cleared. -/
theorem clear_inner {u v a b m n : K} (hu : u ≠ 0) (hv : v ≠ 0) (w : K)
    (hw : 1 + w * (a * u⁻¹) * (b * v⁻¹) ≠ 0) :
    (a * u⁻¹ * m + n * (b * v⁻¹)) * (1 + w * (a * u⁻¹) * (b * v⁻¹))⁻¹
      = (a * m * v + n * b * u) / (u * v + w * a * b) ∧ u * v + w * a * b ≠ 0 := by
  have e : u * v + w * a * b = u * v * (1 + w * (a * u⁻¹) * (b * v⁻¹)) := by field_simp
  have hne : u * v + w * a * b ≠ 0 := by rw [e]; exact mul_ne_zero (mul_ne_zero hu hv) hw
  refine ⟨?_, hne⟩
  rw [← div_eq_mul_inv, div_eq_div_iff hw hne, e]
  field_simp

/-- The law is associative on the curve (R109). -/
theorem edAdd_assoc {d i : K} (h2 : (2 : K) ≠ 0) (hi : i ^ 2 = -1) (hd : ¬ IsSquare d) {P Q R : K × K}
    (hP : EdwardsOn d P.1 P.2) (hQ : EdwardsOn d Q.1 Q.2) (hR : EdwardsOn d R.1 R.2) :
    edAdd d (edAdd d P Q) R = edAdd d P (edAdd d Q R) := by
  obtain ⟨hp, hm⟩ := edAdd_denominators h2 hi hd hP hQ
  obtain ⟨hp', hm'⟩ := edAdd_denominators h2 hi hd hQ hR
  obtain ⟨HP, HM⟩ := edAdd_denominators h2 hi hd (edAdd_on h2 hi hd hP hQ) hR
  obtain ⟨HP', HM'⟩ := edAdd_denominators h2 hi hd hP (edAdd_on h2 hi hd hQ hR)
  obtain ⟨x1, y1⟩ := P
  obtain ⟨x2, y2⟩ := Q
  obtain ⟨x3, y3⟩ := R
  have ax := edwards_assoc_x hP hQ hR
  have ay := edwards_assoc_y hP hQ hR
  simp only [edAdd] at hp hm hp' hm' HP HM HP' HM' ax ay ⊢
  generalize x1 * y2 + x2 * y1 = a at *
  generalize y1 * y2 + x1 * x2 = b at *
  generalize x2 * y3 + x3 * y2 = a' at *
  generalize y2 * y3 + x2 * x3 = b' at *
  generalize d * (x1 * x2) * (y1 * y2) = k at *
  generalize d * (x2 * x3) * (y2 * y3) = k' at *
  have c1 := clear_inner (a := a) (b := b) (m := y3) (n := x3) hp hm (d * x3 * y3) (by
    intro h; apply HP; linear_combination h)
  have c2 := clear_inner (a := a') (b := b') (m := y1) (n := x1) hp' hm' (d * x1 * y1) (by
    intro h; apply HP'; linear_combination h)
  have c3 := clear_inner (a := b) (b := a) (m := y3) (n := x3) hm hp (-(d * x3 * y3)) (by
    intro h; apply HM; linear_combination h)
  have c4 := clear_inner (a := b') (b := a') (m := y1) (n := x1) hm' hp' (-(d * x1 * y1)) (by
    intro h; apply HM'; linear_combination h)
  refine Prod.ext ?_ ?_
  · simp only
    calc _ = (a * y3 * (1 - k) + x3 * b * (1 + k)) / ((1 + k) * (1 - k) + d * x3 * y3 * a * b) := by
          rw [← c1.1]; congr 2; ring
      _ = (a' * y1 * (1 - k') + x1 * b' * (1 + k')) / ((1 + k') * (1 - k') + d * x1 * y1 * a' * b') := by
          rw [div_eq_div_iff c1.2 c2.2]; linear_combination ax
      _ = _ := by rw [← c2.1]; congr 1; · ring
                  congr 1; ring
  · simp only
    calc _ = (b * y3 * (1 + k) + x3 * a * (1 - k)) / ((1 - k) * (1 + k) + -(d * x3 * y3) * b * a) := by
          rw [← c3.1]; congr 1; · ring
          congr 1; ring
      _ = (b' * y1 * (1 + k') + x1 * a' * (1 - k')) / ((1 - k') * (1 + k') + -(d * x1 * y1) * b' * a') := by
          rw [div_eq_div_iff c3.2 c4.2]; linear_combination ay
      _ = _ := by rw [← c4.1]; congr 1; · ring
                  congr 1; ring

/-! ### Quadruples (R110 to R112) -/

/-- The coordinates of a quadruple through its class (R110). -/
theorem quad_coords {X Y Z T : K} (hz : Z ≠ 0) (ht : X * Y = T * Z) :
    X = X * Z⁻¹ * Z ∧ Y = Y * Z⁻¹ * Z ∧ T = X * Z⁻¹ * (Y * Z⁻¹) * Z := by
  refine ⟨by field_simp, by field_simp, ?_⟩
  field_simp
  linear_combination -ht

/-- The class of `(E·F, G·H, F·G, E·H)` is `(E/G, H/F)`. -/
theorem efgh_quotients {E F G H : K} (hf : F ≠ 0) (hg : G ≠ 0) :
    E * F * (F * G)⁻¹ = E * G⁻¹ ∧ G * H * (F * G)⁻¹ = H * F⁻¹ := by
  constructor <;> field_simp

/-- The four temporaries of the reference addition (R111) against the law of R109. -/
theorem ext_add {d x1 y1 x2 y2 Z1 Z2 : K} (h2 : (2 : K) ≠ 0) (hz1 : Z1 ≠ 0) (hz2 : Z2 ≠ 0)
    (hp : 1 + d * (x1 * x2) * (y1 * y2) ≠ 0) (hm : 1 - d * (x1 * x2) * (y1 * y2) ≠ 0) :
    let A := (y1 * Z1 - x1 * Z1) * (y2 * Z2 - x2 * Z2)
    let B := (y1 * Z1 + x1 * Z1) * (y2 * Z2 + x2 * Z2)
    let C := x1 * y1 * Z1 * (2 * d) * (x2 * y2 * Z2)
    let D := Z1 * 2 * Z2
    D - C ≠ 0 ∧ D + C ≠ 0 ∧
      (B - A) * (D + C)⁻¹ = (x1 * y2 + x2 * y1) * (1 + d * (x1 * x2) * (y1 * y2))⁻¹ ∧
      (B + A) * (D - C)⁻¹ = (y1 * y2 + x1 * x2) * (1 - d * (x1 * x2) * (y1 * y2))⁻¹ := by
  intro A B C D
  have hzz : 2 * Z1 * Z2 ≠ 0 := mul_ne_zero (mul_ne_zero h2 hz1) hz2
  have hF : D - C = 2 * Z1 * Z2 * (1 - d * (x1 * x2) * (y1 * y2)) := by simp only [C, D]; ring
  have hG : D + C = 2 * Z1 * Z2 * (1 + d * (x1 * x2) * (y1 * y2)) := by simp only [C, D]; ring
  have hE : B - A = 2 * Z1 * Z2 * (x1 * y2 + x2 * y1) := by simp only [A, B]; ring
  have hH : B + A = 2 * Z1 * Z2 * (y1 * y2 + x1 * x2) := by simp only [A, B]; ring
  rw [hF, hG, hE, hH]
  refine ⟨mul_ne_zero hzz hm, mul_ne_zero hzz hp, ?_, ?_⟩
  · rw [← div_eq_mul_inv, ← div_eq_mul_inv, mul_div_mul_left _ _ hzz]
  · rw [← div_eq_mul_inv, ← div_eq_mul_inv, mul_div_mul_left _ _ hzz]

/-- The temporaries of the reference doubling (R112) against the law of R109. -/
theorem ext_double {d x y Z : K} (hz : Z ≠ 0) (hc : EdwardsOn d x y)
    (hp : 1 + d * (x * x) * (y * y) ≠ 0) (hm : 1 - d * (x * x) * (y * y) ≠ 0) :
    let A := (x * Z) ^ 2
    let B := (y * Z) ^ 2
    let C := 2 * Z ^ 2
    C + (A - B) ≠ 0 ∧ A - B ≠ 0 ∧
      (A + B - (x * Z + y * Z) ^ 2) * (A - B)⁻¹ = (x * y + x * y) * (1 + d * (x * x) * (y * y))⁻¹ ∧
      (A + B) * (C + (A - B))⁻¹ = (y * y + x * x) * (1 - d * (x * x) * (y * y))⁻¹ := by
  intro A B C
  unfold EdwardsOn at hc
  have hzz : Z ^ 2 ≠ 0 := pow_ne_zero _ hz
  have hG : A - B = -Z ^ 2 * (1 + d * (x * x) * (y * y)) := by
    simp only [A, B]; linear_combination -Z ^ 2 * hc
  have hF : C + (A - B) = Z ^ 2 * (1 - d * (x * x) * (y * y)) := by rw [hG]; simp only [C]; ring
  have hE : A + B - (x * Z + y * Z) ^ 2 = -Z ^ 2 * (x * y + x * y) := by simp only [A, B]; ring
  have hH : A + B = Z ^ 2 * (y * y + x * x) := by simp only [A, B]; ring
  rw [hF, hG, hE, hH]
  refine ⟨mul_ne_zero hzz hm, mul_ne_zero (neg_ne_zero.2 hzz) hp, ?_, ?_⟩
  · rw [← div_eq_mul_inv, ← div_eq_mul_inv, mul_div_mul_left _ _ (neg_ne_zero.2 hzz)]
  · rw [← div_eq_mul_inv, ← div_eq_mul_inv, mul_div_mul_left _ _ hzz]

/-- Equality of two fractions by cross-products (R115). -/
theorem cross_iff {a b z w : K} (hz : z ≠ 0) (hw : w ≠ 0) : a * w = b * z ↔ a * z⁻¹ = b * w⁻¹ := by
  rw [← div_eq_mul_inv, ← div_eq_mul_inv, div_eq_div_iff hz hw]

/-- The curve equation, solved for `x²` (R117). -/
theorem edwards_solve {d x y : K} (hv : d * y ^ 2 + 1 ≠ 0) :
    EdwardsOn d x y ↔ x ^ 2 = (y ^ 2 - 1) * (d * y ^ 2 + 1)⁻¹ := by
  unfold EdwardsOn
  rw [← div_eq_mul_inv, eq_div_iff hv]
  constructor
  · intro h; linear_combination -h
  · intro h; linear_combination -h

/-- The denominator of R117 is never 0 when `-1` is a square and `d` is not. -/
theorem recover_denominator {d i : K} (hi : i ^ 2 = -1) (hd : ¬ IsSquare d) (y : K) : d * y ^ 2 + 1 ≠ 0 := by
  intro h
  have hy : y ≠ 0 := by rintro rfl; simp at h
  apply hd
  refine ⟨i / y, ?_⟩
  field_simp
  linear_combination h - hi

/-- The two halves of the curve equation as R108 writes it. -/
theorem edwards_form {d x y : K} : y ^ 2 - x ^ 2 = 1 + d * (x ^ 2 * y ^ 2) ↔ EdwardsOn d x y := by
  unfold EdwardsOn
  constructor
  · intro h; linear_combination h
  · intro h; linear_combination h

end Sys2Proof.Machine
end

