-- ==== Sys2Proof/Laws/Curve.lean ====
section
/-! SUPPORT. The curve of R108 with the law of R109 is a commutative group; the reference formulas of R111, R112 and R119
compute its sum, its double and its multiples on classes and keep the invariant of a point register (R15). All of it holds
for every `D_CONST` that is not a square, and what is said of `G_BASE` for every one R8 admits. -/

namespace Sys2Proof.Machine

variable {C : Curve}

/-- An affine point over `ZMod p`. -/
def affCast (P : Affine) : ZMod Config.p × ZMod Config.p := (fpCast P.1, fpCast P.2)

theorem affCast_inj {P Q : Affine} : affCast P = affCast Q ↔ P = Q := by
  simp [affCast, Prod.ext_iff, fpCast_inj]

@[simp] theorem fpCast_sq (a : Fp) : fpCast (fpSq a) = fpCast a ^ 2 := by simp [fpSq, pow_two]

/-- `SQRT_M1` in `ZMod p`. -/
def iCast : ZMod Config.p := fpCast Config.sqrtM1

theorem iCast_sq : iCast ^ 2 = -1 := by
  have h := congrArg fpCast sqrtM1_sq
  simpa [iCast, pow_two] using h

theorem two_ne_zero_p : (2 : ZMod Config.p) ≠ 0 := by
  have h : fpCast (fpOf 2) ≠ 0 := by rw [Ne, fpCast_eq_zero]; decide
  simpa using h

/-- `D_CONST` is not a square in `ZMod p` (R8). -/
theorem d_not_square (hC : C.nonSquare) : ¬ IsSquare (fpCast C.d) := by
  rintro ⟨r, hr⟩
  apply hC (fpOf r.val)
  have := fact_p_prime
  rw [← fpCast_inj, fpCast_sq, fpCast_fpOf, ZMod.natCast_zmod_val, hr, pow_two]

theorem onCurve_iff [Fact Config.p.Prime] (P : Affine) :
    onCurve C P ↔ EdwardsOn (fpCast C.d) (affCast P).1 (affCast P).2 := by
  rw [onCurve, ← fpCast_inj]
  simp only [fpCast_sub, fpCast_sq, fpCast_add, fpCast_one, fpCast_mul, affCast]
  exact edwards_form

theorem affCast_add [Fact Config.p.Prime] (P Q : Affine) :
    affCast (affineAdd C P Q) = edAdd (fpCast C.d) (affCast P) (affCast Q) := by
  simp only [affineAdd, affCast, edAdd, fpCast_mul, fpCast_add, fpCast_sub, fpCast_inv, fpCast_one, mul_assoc]

theorem affCast_neutral : affCast affineNeutral = (0, 1) := by simp [affCast, affineNeutral]

/-! ### The group (R109) -/

theorem neutral_on : onCurve C affineNeutral := by
  have := fact_p_prime
  rw [onCurve_iff, affCast_neutral]
  simp [EdwardsOn]

theorem affineAdd_on (hC : C.nonSquare) {P Q : Affine} (hP : onCurve C P) (hQ : onCurve C Q) :
    onCurve C (affineAdd C P Q) := by
  have := fact_p_prime
  rw [onCurve_iff] at *
  rw [affCast_add]
  exact edAdd_on two_ne_zero_p iCast_sq (d_not_square hC) hP hQ

theorem affineAdd_comm (P Q : Affine) : affineAdd C P Q = affineAdd C Q P := by
  have := fact_p_prime
  rw [← affCast_inj, affCast_add, affCast_add, edAdd_comm]

theorem affineAdd_neutral_left (P : Affine) : affineAdd C affineNeutral P = P := by
  have := fact_p_prime
  rw [← affCast_inj, affCast_add, affCast_neutral, edAdd_neutral]

theorem affineAdd_neutral_right (P : Affine) : affineAdd C P affineNeutral = P := by
  rw [affineAdd_comm, affineAdd_neutral_left]

theorem affineAdd_assoc (hC : C.nonSquare) {P Q R : Affine} (hP : onCurve C P) (hQ : onCurve C Q) (hR : onCurve C R) :
    affineAdd C (affineAdd C P Q) R = affineAdd C P (affineAdd C Q R) := by
  have := fact_p_prime
  rw [onCurve_iff] at *
  rw [← affCast_inj, affCast_add, affCast_add, affCast_add, affCast_add]
  exact edAdd_assoc two_ne_zero_p iCast_sq (d_not_square hC) hP hQ hR

theorem affineNeg_on {P : Affine} (hP : onCurve C P) : onCurve C (affineNeg P) := by
  have := fact_p_prime
  rw [onCurve_iff] at *
  simp only [affCast, affineNeg, fpCast_neg] at *
  unfold EdwardsOn at *
  rw [neg_sq]
  exact hP

theorem affineAdd_neg_left (hC : C.nonSquare) {P : Affine} (hP : onCurve C P) :
    affineAdd C (affineNeg P) P = affineNeutral := by
  have := fact_p_prime
  rw [onCurve_iff] at hP
  rw [← affCast_inj, affCast_add, affCast_neutral,
    ← edAdd_neg two_ne_zero_p iCast_sq (d_not_square hC) hP]
  simp [affCast, affineNeg]

/-! ### Multiples (R12) -/

theorem affineTimes_zero (P : Affine) : affineTimes C 0 P = affineNeutral := rfl

theorem affineTimes_succ (n : Nat) (P : Affine) : affineTimes C (n + 1) P = affineAdd C (affineTimes C n P) P := rfl

theorem affineTimes_on (hC : C.nonSquare) {P : Affine} (hP : onCurve C P) (n : Nat) :
    onCurve C (affineTimes C n P) := by
  induction n with
  | zero => exact neutral_on
  | succ n ih => exact affineAdd_on hC ih hP

theorem affineTimes_neutral (n : Nat) : affineTimes C n affineNeutral = affineNeutral := by
  induction n with
  | zero => rfl
  | succ n ih => rw [affineTimes_succ, ih, affineAdd_neutral_left]

theorem affineTimes_one (P : Affine) : affineTimes C 1 P = P := by
  rw [affineTimes_succ, affineTimes_zero, affineAdd_neutral_left]

theorem affineTimes_add (hC : C.nonSquare) {P : Affine} (hP : onCurve C P) (m n : Nat) :
    affineTimes C (m + n) P = affineAdd C (affineTimes C m P) (affineTimes C n P) := by
  induction n with
  | zero => rw [Nat.add_zero, affineTimes_zero, affineAdd_neutral_right]
  | succ n ih =>
    rw [← Nat.add_assoc, affineTimes_succ, ih, affineTimes_succ,
      affineAdd_assoc hC (affineTimes_on hC hP m) (affineTimes_on hC hP n) hP]

theorem affineTimes_mul (hC : C.nonSquare) {P : Affine} (hP : onCurve C P) (m n : Nat) :
    affineTimes C (m * n) P = affineTimes C m (affineTimes C n P) := by
  induction m with
  | zero => rw [Nat.zero_mul, affineTimes_zero, affineTimes_zero]
  | succ m ih => rw [Nat.succ_mul, affineTimes_add hC hP, ih, affineTimes_succ]

theorem affineTimes_affineAdd (hC : C.nonSquare) {P Q : Affine} (hP : onCurve C P) (hQ : onCurve C Q) (n : Nat) :
    affineTimes C n (affineAdd C P Q) = affineAdd C (affineTimes C n P) (affineTimes C n Q) := by
  induction n with
  | zero => rw [affineTimes_zero, affineTimes_zero, affineTimes_zero, affineAdd_neutral_left]
  | succ n ih =>
    have hp := affineTimes_on hC hP n
    have hq := affineTimes_on hC hQ n
    rw [affineTimes_succ, ih, affineTimes_succ, affineTimes_succ, affineAdd_assoc hC hp hq (affineAdd_on hC hP hQ),
      ← affineAdd_assoc hC hq hP hQ, affineAdd_comm (affineTimes C n Q) P, affineAdd_assoc hC hP hq hQ,
      ← affineAdd_assoc hC hp hP (affineAdd_on hC hq hQ)]

/-! ### Quadruples and their classes (R110 to R112) -/

/-- The invariant of a point register, in `ZMod p`. -/
theorem live_iff (Q : Point) : Q.live C ↔
    fpCast Q.Z ≠ 0 ∧ fpCast Q.X * fpCast Q.Y = fpCast Q.T * fpCast Q.Z ∧ onCurve C Q.affine := by
  rw [Point.live, Ne, ← fpCast_eq_zero, ← fpCast_inj, fpCast_mul, fpCast_mul]

theorem mul_mul_mul_comm' (e f g h : ZMod Config.p) : e * f * (g * h) = e * h * (f * g) := by
  rw [mul_mul_mul_comm, mul_comm f h, ← mul_assoc, mul_right_comm e g h, mul_assoc (e * h), mul_comm g f]

/-- The class of a quadruple in `ZMod p`. -/
theorem affCast_affine [Fact Config.p.Prime] (Q : Point) :
    affCast Q.affine = (fpCast Q.X * (fpCast Q.Z)⁻¹, fpCast Q.Y * (fpCast Q.Z)⁻¹) := by
  simp only [affCast, Point.affine, fpCast_mul, fpCast_inv]

/-- The reference addition computes the group law on classes and keeps the invariant (R111, R113). -/
theorem pointAdd_class (hC : C.nonSquare) {P Q : Point} (hP : P.live C) (hQ : Q.live C) :
    (pointAdd C P Q).live C ∧ (pointAdd C P Q).affine = affineAdd C P.affine Q.affine := by
  have := fact_p_prime
  obtain ⟨pz, pt, pc⟩ := (live_iff P).1 hP
  obtain ⟨qz, qt, qc⟩ := (live_iff Q).1 hQ
  obtain ⟨pX, pY, pT⟩ := quad_coords pz pt
  obtain ⟨qX, qY, qT⟩ := quad_coords qz qt
  have on := affineAdd_on hC pc qc
  rw [onCurve_iff] at pc qc
  obtain ⟨hp, hm⟩ := edAdd_denominators two_ne_zero_p iCast_sq (d_not_square hC) pc qc
  have cast := affCast_add (C := C) P.affine Q.affine
  rw [affCast_affine, affCast_affine] at hp hm cast
  obtain ⟨hf, hg, cx, cy⟩ := ext_add two_ne_zero_p pz qz hp hm
  simp only [← pX, ← pY, ← pT, ← qX, ← qY, ← qT] at hf hg cx cy
  obtain ⟨ex, ey⟩ := efgh_quotients
    (E := (fpCast P.Y + fpCast P.X) * (fpCast Q.Y + fpCast Q.X) - (fpCast P.Y - fpCast P.X) * (fpCast Q.Y - fpCast Q.X))
    (H := (fpCast P.Y + fpCast P.X) * (fpCast Q.Y + fpCast Q.X) + (fpCast P.Y - fpCast P.X) * (fpCast Q.Y - fpCast Q.X))
    hf hg
  have cls : (pointAdd C P Q).affine = affineAdd C P.affine Q.affine := by
    rw [← affCast_inj, cast, affCast_affine]
    simp only [pointAdd, fpCast_mul, fpCast_add, fpCast_sub, fpCast_fpOf, Nat.cast_ofNat, edAdd]
    exact Prod.ext (ex.trans cx) (ey.trans cy)
  refine ⟨(live_iff _).2 ⟨?_, ?_, cls ▸ on⟩, cls⟩
  · simp only [pointAdd, fpCast_mul, fpCast_add, fpCast_sub, fpCast_fpOf, Nat.cast_ofNat]
    exact mul_ne_zero hf hg
  · simp only [pointAdd, fpCast_mul]
    exact mul_mul_mul_comm' _ _ _ _

/-- The reference doubling computes the double on classes and keeps the invariant (R112, R114). -/
theorem pointDouble_class (hC : C.nonSquare) {P : Point} (hP : P.live C) :
    (pointDouble P).live C ∧ (pointDouble P).affine = affineAdd C P.affine P.affine := by
  have := fact_p_prime
  obtain ⟨pz, pt, pc⟩ := (live_iff P).1 hP
  obtain ⟨pX, pY, -⟩ := quad_coords pz pt
  have on := affineAdd_on hC pc pc
  rw [onCurve_iff] at pc
  obtain ⟨hp, hm⟩ := edAdd_denominators two_ne_zero_p iCast_sq (d_not_square hC) pc pc
  have cast := affCast_add (C := C) P.affine P.affine
  rw [affCast_affine] at hp hm cast pc
  obtain ⟨hf, hg, cx, cy⟩ := ext_double pz pc hp hm
  simp only [← pX, ← pY] at hf hg cx cy
  obtain ⟨ex, ey⟩ := efgh_quotients
    (E := fpCast P.X ^ 2 + fpCast P.Y ^ 2 - (fpCast P.X + fpCast P.Y) ^ 2)
    (H := fpCast P.X ^ 2 + fpCast P.Y ^ 2) hf hg
  have cls : (pointDouble P).affine = affineAdd C P.affine P.affine := by
    rw [← affCast_inj, cast, affCast_affine]
    simp only [pointDouble, fpCast_mul, fpCast_add, fpCast_sub, fpCast_sq, fpCast_fpOf, Nat.cast_ofNat, edAdd]
    exact Prod.ext (ex.trans cx) (ey.trans cy)
  refine ⟨(live_iff _).2 ⟨?_, ?_, cls ▸ on⟩, cls⟩
  · simp only [pointDouble, fpCast_mul, fpCast_add, fpCast_sub, fpCast_sq, fpCast_fpOf, Nat.cast_ofNat]
    exact mul_ne_zero hf hg
  · simp only [pointDouble, fpCast_mul]
    exact mul_mul_mul_comm' _ _ _ _

theorem pointNeutral_live : pointNeutral.live C ∧ pointNeutral.affine = affineNeutral := by
  have h : pointNeutral.affine = affineNeutral := by decide +kernel
  exact ⟨⟨by decide +kernel, by decide +kernel, h ▸ neutral_on⟩, h⟩

/-- The double-and-add of R119 adds `[n]R` to the accumulator, on classes. -/
theorem pointMulLoop_class (hC : C.nonSquare) (fuel n : Nat) (acc r : Point) (hn : n < 2 ^ fuel) (ha : acc.live C)
    (hr : r.live C) :
    (pointMulLoop C fuel n acc r).live C ∧
      (pointMulLoop C fuel n acc r).affine = affineAdd C acc.affine (affineTimes C n r.affine) := by
  induction fuel generalizing n acc r with
  | zero =>
    have : n = 0 := by simpa using hn
    subst this
    rw [affineTimes_zero, affineAdd_neutral_right]
    exact ⟨ha, rfl⟩
  | succ fuel ih =>
    unfold pointMulLoop
    by_cases h0 : n = 0
    · rw [if_pos h0, h0, affineTimes_zero, affineAdd_neutral_right]
      exact ⟨ha, rfl⟩
    rw [if_neg h0]
    obtain ⟨dl, dc⟩ := pointDouble_class hC hr
    obtain ⟨sl, sc⟩ := pointAdd_class hC ha hr
    have on := ((live_iff r).1 hr).2.2
    have aon := ((live_iff acc).1 ha).2.2
    have twice : affineTimes C (n / 2) (affineAdd C r.affine r.affine) = affineTimes C (2 * (n / 2)) r.affine := by
      rw [Nat.mul_comm, affineTimes_mul hC on, affineTimes_add hC on 1 1, affineTimes_one]
    by_cases h1 : n % 2 = 1
    · rw [if_pos h1]
      obtain ⟨l, c⟩ := ih (n / 2) _ _ (by omega) sl dl
      refine ⟨l, ?_⟩
      have split : affineTimes C n r.affine = affineAdd C r.affine (affineTimes C (2 * (n / 2)) r.affine) := by
        calc affineTimes C n r.affine = affineTimes C (1 + 2 * (n / 2)) r.affine := by
              rw [show 1 + 2 * (n / 2) = n by omega]
          _ = affineAdd C r.affine (affineTimes C (2 * (n / 2)) r.affine) := by
              rw [affineTimes_add hC on, affineTimes_one]
      rw [c, dc, twice, sc, affineAdd_assoc hC aon on (affineTimes_on hC on _), split]
    · rw [if_neg h1]
      obtain ⟨l, c⟩ := ih (n / 2) _ _ (by omega) ha dl
      refine ⟨l, ?_⟩
      rw [c, dc, twice, show 2 * (n / 2) = n by omega]

/-- `scalarMultiply(n, Q)` is a quadruple of class `[n]Q` (R119). -/
theorem pointMul_class (hC : C.nonSquare) {Q : Point} (hQ : Q.live C) (n : Nat) (hn : n < 2 ^ 256) :
    (pointMul C n Q).live C ∧ (pointMul C n Q).affine = affineTimes C n Q.affine := by
  obtain ⟨l, c⟩ := pointMulLoop_class hC 256 n pointNeutral Q hn pointNeutral_live.1 hQ
  refine ⟨l, c.trans ?_⟩
  rw [(pointNeutral_live (C := C)).2, affineAdd_neutral_left]

/-- `G_BASE` as a quadruple is live, and its class is `G_BASE` (R8, R110). -/
theorem pointBase_live (hB : C.baseOk) : (pointBase C).live C ∧ (pointBase C).affine = C.base := by
  have := fact_p_prime
  have h : (pointBase C).affine = C.base := by
    rw [← affCast_inj, affCast_affine]
    simp [pointBase, affCast, Curve.base]
  refine ⟨(live_iff _).2 ⟨?_, ?_, h ▸ hB.1⟩, h⟩
  · simp [pointBase]
  · simp [pointBase]

/-- `[q]G` is the neutral element (R8). -/
theorem base_order (hB : C.baseOk) : affineTimes C Config.q C.base = affineNeutral := hB.2.1

/-- A multiple of `G` depends on the multiplier modulo `q` only (R133). -/
theorem affineTimes_base_mod (hC : C.nonSquare) (hB : C.baseOk) (n : Nat) :
    affineTimes C (n % Config.q) C.base = affineTimes C n C.base := by
  conv_rhs => rw [← Nat.mod_add_div n Config.q, affineTimes_add hC hB.1, Nat.mul_comm, affineTimes_mul hC hB.1,
    base_order hB, affineTimes_neutral, affineAdd_neutral_right]

/-- A multiple of `G` is the neutral element only when the multiplier is a multiple of `q` (R8). -/
theorem base_times_neutral (hC : C.nonSquare) (hB : C.baseOk) {k : Nat} (h : affineTimes C k C.base = affineNeutral) :
    Config.q ∣ k := by
  rw [← affineTimes_base_mod hC hB] at h
  by_contra hd
  exact hB.2.2 ⟨k % Config.q, Nat.mod_lt _ Config.q_pos⟩ (Nat.pos_of_ne_zero fun e => hd (Nat.dvd_of_mod_eq_zero e)) h

theorem base_times_le (hC : C.nonSquare) (hB : C.baseOk) {m n : Nat} (hmn : m ≤ n)
    (h : affineTimes C m C.base = affineTimes C n C.base) : Config.q ∣ n - m := by
  have on := hB.1
  have onm := affineTimes_on hC on m
  have e : affineAdd C (affineTimes C (n - m) C.base) (affineTimes C m C.base) = affineTimes C m C.base := by
    rw [← affineTimes_add hC on, Nat.sub_add_cancel hmn, h]
  apply base_times_neutral hC hB
  have c := congrArg (affineAdd C · (affineNeg (affineTimes C m C.base))) e
  rw [affineAdd_assoc hC (affineTimes_on hC on _) onm (affineNeg_on onm), affineAdd_comm _ (affineNeg _),
    affineAdd_neg_left hC onm, affineAdd_neutral_right] at c
  exact c

/-- Multiples of `G` are equal exactly when the multipliers agree modulo `q` (R8, R133). -/
theorem base_times_inj (hC : C.nonSquare) (hB : C.baseOk) (m n : Nat) :
    affineTimes C m C.base = affineTimes C n C.base ↔ m % Config.q = n % Config.q := by
  constructor
  · intro h
    rcases Nat.le_total m n with l | l
    · exact (Nat.modEq_iff_dvd' l).2 (base_times_le hC hB l h)
    · exact ((Nat.modEq_iff_dvd' l).2 (base_times_le hC hB l h.symm)).symm
  · intro h
    rw [← affineTimes_base_mod hC hB m, h, affineTimes_base_mod hC hB]

/-- `equal` is equality of classes (R115). -/
theorem pointEqual_iff {P Q : Point} (hP : P.live C) (hQ : Q.live C) :
    pointEqual P Q = true ↔ P.affine = Q.affine := by
  have := fact_p_prime
  obtain ⟨pz, -, -⟩ := (live_iff P).1 hP
  obtain ⟨qz, -, -⟩ := (live_iff Q).1 hQ
  rw [pointEqual, Bool.and_eq_true, beq_iff_eq, beq_iff_eq, ← fpCast_inj, ← fpCast_inj, ← affCast_inj,
    affCast_affine, affCast_affine, Prod.mk.injEq]
  simp only [fpCast_mul]
  rw [cross_iff pz qz, cross_iff pz qz]

end Sys2Proof.Machine
end

