-- ==== Sys2Proof/Laws/Decode.lean ====
section
/-! SUPPORT. The decoder read backwards: what each format accepts, what it rejects, and that a decoded word is the word of
a well-formed command (R65 to R70, R76). -/

namespace Sys2Proof

theorem word_fieldsOf (w : Word) :
    word (fieldsOf w).op (fieldsOf w).rd (fieldsOf w).ra (fieldsOf w).rb (fieldsOf w).imm = w := by
  apply BitVec.eq_of_toNat_eq
  have := w.isLt
  simp only [word, fieldsOf, wordField, BitVec.toNat_ofNat]
  omega

theorem unusedZero_ok {l : List Nat} {u : Unit} : unusedZero l = .ok u ↔ ∀ x ∈ l, x = 0 := by
  unfold unusedZero
  by_cases h : l.all (· == 0) = true
  · rw [if_pos h]
    simpa using h
  · rw [if_neg h]
    simpa using h

theorem regField_ok {n : Nat} {r : RegNum} : regField n = .ok r ↔ n = r.val := by
  unfold regField
  split
  · simp [Fin.ext_iff]
  · simp; omega

theorem pairField_ok {n : Nat} {r : RegNum} : pairField n = .ok r ↔ n = r.val ∧ pairOk r = true := by
  unfold pairField pairOk
  split
  · split <;> simp [Fin.ext_iff] <;> omega
  · simp; omega

theorem except_bind {ε α β : Type} {x : Except ε α} {f : α → Except ε β} {r : β} :
    (x >>= f) = .ok r ↔ ∃ a, x = .ok a ∧ f a = .ok r := by
  cases x <;> simp [bind, Except.bind]

theorem decN_ok {f : Fields} {i j : Instr} (h : decN f i = .ok j) :
    j = i ∧ f.rd = 0 ∧ f.ra = 0 ∧ f.rb = 0 ∧ f.imm = 0 := by
  obtain ⟨_, hz, h⟩ := except_bind.1 h
  have := unusedZero_ok.1 hz
  cases h
  simpa using this

theorem decR3_ok {f : Fields} {mk : RegNum → RegNum → RegNum → Instr} {j : Instr} (h : decR3 f mk = .ok j) :
    ∃ d a b, j = mk d a b ∧ f.rd = d.val ∧ f.ra = a.val ∧ f.rb = b.val ∧ f.imm = 0 := by
  obtain ⟨_, hz, h⟩ := except_bind.1 h
  obtain ⟨d, hd, h⟩ := except_bind.1 h
  obtain ⟨a, ha, h⟩ := except_bind.1 h
  obtain ⟨b, hb, h⟩ := except_bind.1 h
  have := unusedZero_ok.1 hz
  cases h
  exact ⟨d, a, b, rfl, regField_ok.1 hd, regField_ok.1 ha, regField_ok.1 hb, by simpa using this⟩

theorem decR2_ok {f : Fields} {mk : RegNum → RegNum → Instr} {j : Instr} (h : decR2 f mk = .ok j) :
    ∃ d a, j = mk d a ∧ f.rd = d.val ∧ f.ra = a.val ∧ f.rb = 0 ∧ f.imm = 0 := by
  obtain ⟨_, hz, h⟩ := except_bind.1 h
  obtain ⟨d, hd, h⟩ := except_bind.1 h
  obtain ⟨a, ha, h⟩ := except_bind.1 h
  have := unusedZero_ok.1 hz
  cases h
  exact ⟨d, a, rfl, regField_ok.1 hd, regField_ok.1 ha, by simpa using this⟩

theorem decR2p_ok {f : Fields} {mk : RegNum → RegNum → Instr} {j : Instr} (h : decR2p f mk = .ok j) :
    ∃ d a, j = mk d a ∧ f.rd = d.val ∧ pairOk d = true ∧ f.ra = a.val ∧ f.rb = 0 ∧ f.imm = 0 := by
  obtain ⟨_, hz, h⟩ := except_bind.1 h
  obtain ⟨d, hd, h⟩ := except_bind.1 h
  obtain ⟨a, ha, h⟩ := except_bind.1 h
  have := unusedZero_ok.1 hz
  obtain ⟨hd, hp⟩ := pairField_ok.1 hd
  cases h
  exact ⟨d, a, rfl, hd, hp, regField_ok.1 ha, by simpa using this⟩

theorem decR1_ok {f : Fields} {mk : RegNum → Instr} {j : Instr} (h : decR1 f mk = .ok j) :
    ∃ d, j = mk d ∧ f.rd = d.val ∧ f.ra = 0 ∧ f.rb = 0 ∧ f.imm = 0 := by
  obtain ⟨_, hz, h⟩ := except_bind.1 h
  obtain ⟨d, hd, h⟩ := except_bind.1 h
  have := unusedZero_ok.1 hz
  cases h
  exact ⟨d, rfl, regField_ok.1 hd, by simpa using this⟩

theorem decA1_ok {f : Fields} {mk : RegNum → Instr} {j : Instr} (h : decA1 f mk = .ok j) :
    ∃ a, j = mk a ∧ f.ra = a.val ∧ f.rd = 0 ∧ f.rb = 0 ∧ f.imm = 0 := by
  obtain ⟨_, hz, h⟩ := except_bind.1 h
  obtain ⟨d, hd, h⟩ := except_bind.1 h
  have := unusedZero_ok.1 hz
  cases h
  exact ⟨d, rfl, regField_ok.1 hd, by simpa using this⟩

theorem decA2_ok {f : Fields} {mk : RegNum → RegNum → Instr} {j : Instr} (h : decA2 f mk = .ok j) :
    ∃ a b, j = mk a b ∧ f.ra = a.val ∧ f.rb = b.val ∧ f.rd = 0 ∧ f.imm = 0 := by
  obtain ⟨_, hz, h⟩ := except_bind.1 h
  obtain ⟨a, ha, h⟩ := except_bind.1 h
  obtain ⟨b, hb, h⟩ := except_bind.1 h
  have := unusedZero_ok.1 hz
  cases h
  exact ⟨a, b, rfl, regField_ok.1 ha, regField_ok.1 hb, by simpa using this⟩

theorem decA2p_ok {f : Fields} {mk : RegNum → RegNum → Instr} {j : Instr} (h : decA2p f mk = .ok j) :
    ∃ a b, j = mk a b ∧ f.ra = a.val ∧ f.rb = b.val ∧ pairOk b = true ∧ f.rd = 0 ∧ f.imm = 0 := by
  obtain ⟨_, hz, h⟩ := except_bind.1 h
  obtain ⟨a, ha, h⟩ := except_bind.1 h
  obtain ⟨b, hb, h⟩ := except_bind.1 h
  have := unusedZero_ok.1 hz
  obtain ⟨hb, hp⟩ := pairField_ok.1 hb
  cases h
  exact ⟨a, b, rfl, regField_ok.1 ha, hb, hp, by simpa using this⟩

theorem imm_toNat {n top : Nat} (h : n ≤ top) (ht : top < 4096) : (BitVec.ofNat 12 n).toNat = n := by
  rw [BitVec.toNat_ofNat, Nat.mod_eq_of_lt (by omega)]

theorem decI_ok {f : Fields} {top : Nat} {mk : RegNum → Imm → Instr} {j : Instr} (ht : top < 4096)
    (h : decI f top mk = .ok j) :
    ∃ d c, j = mk d c ∧ f.rd = d.val ∧ f.imm = c.toNat ∧ c.toNat ≤ top ∧ f.ra = 0 ∧ f.rb = 0 := by
  obtain ⟨_, hz, h⟩ := except_bind.1 h
  obtain ⟨d, hd, h⟩ := except_bind.1 h
  have := unusedZero_ok.1 hz
  have hle : f.imm ≤ top := by
    split at h
    · assumption
    · cases h
  rw [if_pos hle] at h
  cases h
  have e := imm_toNat hle ht
  exact ⟨d, _, rfl, regField_ok.1 hd, e.symm, e.le.trans hle, by simpa using this⟩

theorem decC_ok {f : Fields} {mk : Imm → Instr} {j : Instr} (h : decC f mk = .ok j) :
    ∃ m, j = mk m ∧ f.imm = m.toNat ∧ bdiscardImmOk m = true ∧ f.rd = 0 ∧ f.ra = 0 ∧ f.rb = 0 := by
  obtain ⟨_, hz, h⟩ := except_bind.1 h
  have := unusedZero_ok.1 hz
  split at h <;> cases h
  rename_i hle
  have e := imm_toNat hle.2 (by decide)
  refine ⟨_, rfl, e.symm, ?_, by simpa using this⟩
  simp only [bdiscardImmOk, e, Bool.and_eq_true, decide_eq_true_eq]
  exact hle

/-- A decoded word is the word of a well-formed command. -/
theorem decode_ok {w : Word} {i : Instr} (h : decode w = .ok i) : i.wf = true ∧ encode i = w := by
  have hw := word_fieldsOf w
  unfold decode at h
  simp only at h
  generalize fieldsOf w = f at h hw
  obtain ⟨op, rd, ra, rb, imm⟩ := f
  simp only at h hw
  split at h
  all_goals first
    | cases h
    | (obtain ⟨rfl, h1, h2, h3, h4⟩ := decN_ok h; simp only at h1 h2 h3 h4; subst h1 h2 h3 h4; exact ⟨rfl, hw⟩)
    | (obtain ⟨d, a, b, rfl, h1, h2, h3, h4⟩ := decR3_ok h; simp only at h1 h2 h3 h4; subst h1 h2 h3 h4; exact ⟨rfl, hw⟩)
    | (obtain ⟨d, a, rfl, h1, h2, h3, h4⟩ := decR2_ok h; simp only at h1 h2 h3 h4; subst h1 h2 h3 h4; exact ⟨rfl, hw⟩)
    | (obtain ⟨d, a, rfl, h1, hp, h2, h3, h4⟩ := decR2p_ok h; simp only at h1 h2 h3 h4; subst h1 h2 h3 h4; exact ⟨hp, hw⟩)
    | (obtain ⟨d, rfl, h1, h2, h3, h4⟩ := decR1_ok h; simp only at h1 h2 h3 h4; subst h1 h2 h3 h4; exact ⟨rfl, hw⟩)
    | (obtain ⟨a, rfl, h1, h2, h3, h4⟩ := decA1_ok h; simp only at h1 h2 h3 h4; subst h1 h2 h3 h4; exact ⟨rfl, hw⟩)
    | (obtain ⟨a, b, rfl, h1, h2, h3, h4⟩ := decA2_ok h; simp only at h1 h2 h3 h4; subst h1 h2 h3 h4; exact ⟨rfl, hw⟩)
    | (obtain ⟨a, b, rfl, h1, h2, hp, h3, h4⟩ := decA2p_ok h; simp only at h1 h2 h3 h4; subst h1 h2 h3 h4; exact ⟨hp, hw⟩)
    | (obtain ⟨m, rfl, h1, hm, h2, h3, h4⟩ := decC_ok h; simp only at h1 h2 h3 h4; subst h1 h2 h3 h4; exact ⟨hm, hw⟩)
    | (obtain ⟨d, c, rfl, h1, h2, hc, h3, h4⟩ := decI_ok (by decide) h; simp only at h1 h2 h3 h4; subst h1 h2 h3 h4
       exact ⟨decide_eq_true hc, hw⟩)

end Sys2Proof

namespace Sys2Proof.Machine

/-- The test a rejected word fails, if it is rejected. -/
def rejection (x : Except Illegal Instr) : Option Illegal :=
  match x with
  | .ok _ => none
  | .error r => some r

section Formats

variable (op rd ra rb imm : Nat)

theorem decN_rejection (i : Instr) : rejection (decN ⟨op, rd, ra, rb, imm⟩ i) =
    rowFailure ⟨op, .unused, .unused, .unused, none⟩ ⟨op, rd, ra, rb, imm⟩ := by
  simp only [decN, unusedZero, rowFailure, Use.unusedOk, Use.numberOk, immInRange]
  by_cases h1 : rd = 0 <;> by_cases h2 : ra = 0 <;> by_cases h3 : rb = 0 <;> by_cases h4 : imm = 0 <;>
    simp [h1, h2, h3, h4, rejection, bind, Except.bind]

theorem decR3_rejection (mk : RegNum → RegNum → RegNum → Instr) : rejection (decR3 ⟨op, rd, ra, rb, imm⟩ mk) =
    rowFailure ⟨op, .register, .register, .register, none⟩ ⟨op, rd, ra, rb, imm⟩ := by
  simp only [decR3, unusedZero, regField, rowFailure, Use.unusedOk, Use.numberOk, immInRange, ← Nat.lt_succ_iff]
  by_cases h1 : rd < 8 <;> by_cases h2 : ra < 8 <;> by_cases h3 : rb < 8 <;> by_cases h4 : imm = 0 <;>
    simp [h1, h2, h3, h4, rejection, bind, Except.bind]

theorem decR2_rejection (mk : RegNum → RegNum → Instr) : rejection (decR2 ⟨op, rd, ra, rb, imm⟩ mk) =
    rowFailure ⟨op, .register, .register, .unused, none⟩ ⟨op, rd, ra, rb, imm⟩ := by
  simp only [decR2, unusedZero, regField, rowFailure, Use.unusedOk, Use.numberOk, immInRange, ← Nat.lt_succ_iff]
  by_cases h1 : rd < 8 <;> by_cases h2 : ra < 8 <;> by_cases h3 : rb = 0 <;> by_cases h4 : imm = 0 <;>
    simp [h1, h2, h3, h4, rejection, bind, Except.bind]

theorem decR2p_rejection (mk : RegNum → RegNum → Instr) : rejection (decR2p ⟨op, rd, ra, rb, imm⟩ mk) =
    rowFailure ⟨op, .pair, .register, .unused, none⟩ ⟨op, rd, ra, rb, imm⟩ := by
  simp only [decR2p, unusedZero, regField, pairField, rowFailure, Use.unusedOk, Use.numberOk, immInRange,
    ← Nat.lt_succ_iff]
  by_cases h1 : rd < 8 <;> by_cases h0 : rd % 2 = 0 <;> by_cases h2 : ra < 8 <;> by_cases h3 : rb = 0 <;>
    by_cases h4 : imm = 0 <;> simp [h0, h1, h2, h3, h4, rejection, bind, Except.bind]

theorem decR1_rejection (mk : RegNum → Instr) : rejection (decR1 ⟨op, rd, ra, rb, imm⟩ mk) =
    rowFailure ⟨op, .register, .unused, .unused, none⟩ ⟨op, rd, ra, rb, imm⟩ := by
  simp only [decR1, unusedZero, regField, rowFailure, Use.unusedOk, Use.numberOk, immInRange, ← Nat.lt_succ_iff]
  by_cases h1 : rd < 8 <;> by_cases h2 : ra = 0 <;> by_cases h3 : rb = 0 <;> by_cases h4 : imm = 0 <;>
    simp [h1, h2, h3, h4, rejection, bind, Except.bind]

theorem decA1_rejection (mk : RegNum → Instr) : rejection (decA1 ⟨op, rd, ra, rb, imm⟩ mk) =
    rowFailure ⟨op, .unused, .register, .unused, none⟩ ⟨op, rd, ra, rb, imm⟩ := by
  simp only [decA1, unusedZero, regField, rowFailure, Use.unusedOk, Use.numberOk, immInRange, ← Nat.lt_succ_iff]
  by_cases h1 : rd = 0 <;> by_cases h2 : ra < 8 <;> by_cases h3 : rb = 0 <;> by_cases h4 : imm = 0 <;>
    simp [h1, h2, h3, h4, rejection, bind, Except.bind]

theorem decA2_rejection (mk : RegNum → RegNum → Instr) : rejection (decA2 ⟨op, rd, ra, rb, imm⟩ mk) =
    rowFailure ⟨op, .unused, .register, .register, none⟩ ⟨op, rd, ra, rb, imm⟩ := by
  simp only [decA2, unusedZero, regField, rowFailure, Use.unusedOk, Use.numberOk, immInRange, ← Nat.lt_succ_iff]
  by_cases h1 : rd = 0 <;> by_cases h2 : ra < 8 <;> by_cases h3 : rb < 8 <;> by_cases h4 : imm = 0 <;>
    simp [h1, h2, h3, h4, rejection, bind, Except.bind]

theorem decA2p_rejection (mk : RegNum → RegNum → Instr) : rejection (decA2p ⟨op, rd, ra, rb, imm⟩ mk) =
    rowFailure ⟨op, .unused, .register, .pair, none⟩ ⟨op, rd, ra, rb, imm⟩ := by
  simp only [decA2p, unusedZero, regField, pairField, rowFailure, Use.unusedOk, Use.numberOk, immInRange,
    ← Nat.lt_succ_iff]
  by_cases h1 : rd = 0 <;> by_cases h0 : rb % 2 = 0 <;> by_cases h2 : ra < 8 <;> by_cases h3 : rb < 8 <;>
    by_cases h4 : imm = 0 <;> simp [h0, h1, h2, h3, h4, rejection, bind, Except.bind]

theorem decI_rejection (top : Nat) (mk : RegNum → Imm → Instr) : rejection (decI ⟨op, rd, ra, rb, imm⟩ top mk) =
    rowFailure ⟨op, .register, .unused, .unused, some (0, top)⟩ ⟨op, rd, ra, rb, imm⟩ := by
  simp only [decI, unusedZero, regField, rowFailure, Use.unusedOk, Use.numberOk, immInRange, ← Nat.lt_succ_iff]
  by_cases h1 : rd < 8 <;> by_cases h2 : ra = 0 <;> by_cases h3 : rb = 0 <;> by_cases h4 : imm < top + 1 <;>
    simp [h1, h2, h3, h4, rejection, bind, Except.bind]

theorem decC_rejection (mk : Imm → Instr) : rejection (decC ⟨op, rd, ra, rb, imm⟩ mk) =
    rowFailure ⟨op, .unused, .unused, .unused, some (1, 3)⟩ ⟨op, rd, ra, rb, imm⟩ := by
  simp only [decC, unusedZero, rowFailure, Use.unusedOk, Use.numberOk, immInRange]
  by_cases h1 : rd = 0 <;> by_cases h2 : ra = 0 <;> by_cases h3 : rb = 0 <;> by_cases h4 : 1 ≤ imm <;>
    by_cases h5 : imm ≤ 3 <;> simp [h1, h2, h3, h4, h5, rejection, bind, Except.bind]

end Formats

theorem opcodes : opcodeMap.map (·.op) =
    [0x00, 0x02, 0x03, 0x04, 0x10, 0x11, 0x12, 0x13, 0x14, 0x15, 0x16, 0x17, 0x18] ++
    [0x20, 0x21, 0x22, 0x23, 0x24, 0x26, 0x27, 0x30, 0x31, 0x32, 0x33, 0x34, 0x35, 0x36, 0x38] ++
    [0x40, 0x41, 0x42, 0x43, 0x50, 0x51, 0x52, 0x53, 0x54] := rfl

/-- The decoder rejects exactly the words that fail one of the tests of R70, with the first they fail. -/
theorem rejection_decode (w : Word) : rejection (decode w) = firstFailure w := by
  unfold decode firstFailure
  simp only
  generalize fieldsOf w = f
  obtain ⟨op, rd, ra, rb, imm⟩ := f
  simp only
  split
  all_goals first
    | (rw [decN_rejection]; rfl)
    | (rw [decR3_rejection]; rfl)
    | (rw [decR2_rejection]; rfl)
    | (rw [decR2p_rejection]; rfl)
    | (rw [decR1_rejection]; rfl)
    | (rw [decA1_rejection]; rfl)
    | (rw [decA2_rejection]; rfl)
    | (rw [decA2p_rejection]; rfl)
    | (rw [decI_rejection]; rfl)
    | (rw [decC_rejection]; rfl)
    | skip
  rename_i n
  have : opcodeMap.find? (·.op == op) = none := by
    simp only [List.find?_eq_none, beq_iff_eq]
    intro r hr he
    have hm : r.op ∈ opcodeMap.map (·.op) := List.mem_map_of_mem hr
    rw [opcodes, he] at hm
    simp only [List.mem_append, List.mem_cons, List.not_mem_nil, or_false] at hm
    repeat' rcases hm with hm | hm
    all_goals contradiction
  rw [this]
  rfl

end Sys2Proof.Machine
end

