-- ==== Sys2Proof/Laws/Decompress.lean ====
section
/-! SUPPORT. Decompression (R117, R118) finds exactly the points of the curve: what it returns meets the invariant of a
point register and compresses to the bytes it came from; the compression of a live point decompresses to its class. -/

namespace Sys2Proof.Machine

variable {C : Curve}

theorem fpNeg_val {x : Fp} (h : x ≠ fpOf 0) : (fpNeg x).val = Config.p - x.val := by
  have h0 : x.val ≠ 0 := fun e => h (Fin.ext (by simpa using e))
  rw [fpNeg, fpOf_val, Nat.mod_eq_of_lt (by have := Config.p_pos; omega)]

/-- `x` and `p - x` have different parities (R117). -/
theorem fpNeg_parity {x : Fp} (h : x ≠ fpOf 0) : (fpNeg x).val % 2 = 1 - x.val % 2 := by
  have hp : Config.p % 2 = 1 := by decide
  have := x.isLt
  rw [fpNeg_val h]; omega

theorem fpSq_neg (x : Fp) : fpSq (fpNeg x) = fpSq x := by
  rw [← fpCast_inj]; simp

theorem fpSq_eq_zero {x : Fp} (h : fpSq x = fpOf 0) : x = fpOf 0 := by
  have := fact_p_prime
  have h' : fpCast x ^ 2 = 0 := by rw [← fpCast_sq, h, fpCast_zero]
  exact fpCast_eq_zero.1 (by simpa using h')

theorem fpSq_eq {x y : Fp} (h : fpSq x = fpSq y) : x = y ∨ x = fpNeg y := by
  have := fact_p_prime
  have h' : fpCast x ^ 2 = fpCast y ^ 2 := by rw [← fpCast_sq, h, fpCast_sq]
  rcases sq_eq_sq_iff_eq_or_eq_neg.1 h' with h | h
  · exact .inl (fpCast_inj.1 h)
  · exact .inr (fpCast_inj.1 (by rw [h, fpCast_neg]))

/-- The curve equation solved for `x²` (R117). -/
theorem onCurve_iff_xSquared (hC : C.nonSquare) (x y : Fp) : onCurve C (x, y) ↔ fpSq x = xSquared C y := by
  have := fact_p_prime
  rw [onCurve_iff, edwards_solve (recover_denominator iCast_sq (d_not_square hC) _), ← fpCast_inj]
  simp only [affCast, xSquared, fpCast_sq, fpCast_mul, fpCast_sub, fpCast_inv, fpCast_add, fpCast_one]

/-- One of the two candidates squares to the target when the target is a square (R86, R117). -/
theorem rootCandidate_sq (x : Fp) : fpSq (rootCandidate (fpSq x)) = fpSq x := by
  have := fact_p_prime
  unfold rootCandidate
  by_cases h : fpSq (fpSqrtCandidate (fpSq x)) = fpSq x
  · simp only [ne_eq, h, not_true_eq_false, if_false]
  · simp only [ne_eq, h, not_false_eq_true, if_true]
    have hx : fpCast x ≠ 0 := by
      intro h0
      apply h
      have : x = fpOf 0 := fpCast_eq_zero.1 h0
      subst this
      decide +kernel
    have c2 : fpCast (fpSqrtCandidate (fpSq x)) ^ 2 = fpCast x ^ 2 * fpCast x ^ (Config.p / 2) := by
      rw [fpSqrtCandidate, fpCast_pow _ _ (by decide), fpCast_sq, ← pow_mul, ← pow_mul, ← pow_add]
      congr 1
    rw [← fpCast_inj, fpCast_sq, c2, fpCast_sq] at h
    rw [← fpCast_inj, fpCast_sq, fpCast_mul, mul_pow, c2, fpCast_sq]
    rcases ZMod.pow_div_two_eq_neg_one_or_one Config.p hx with e | e
    · exact absurd (by rw [e, mul_one]) h
    · have hi : fpCast Config.sqrtM1 ^ 2 = -1 := iCast_sq
      rw [e, hi, mul_neg_one, mul_neg_one, neg_neg]

/-- What `recoverX` returns lies on the curve with the parity asked for (R117). -/
theorem recoverX_some (hC : C.nonSquare) {y x : Fp} {sign : Nat} (hs : sign < 2) (h : recoverX C y sign = some x) :
    onCurve C (x, y) ∧ x.val % 2 = sign := by
  rw [onCurve_iff_xSquared hC]
  unfold recoverX at h
  by_cases h0 : xSquared C y = fpOf 0
  · simp only [h0, if_true] at h
    by_cases h1 : sign = 1
    · simp [h1] at h
    · simp only [h1, if_false, Option.some.injEq] at h
      subst h
      rw [h0]
      refine ⟨by decide +kernel, ?_⟩
      have : (fpOf 0).val = 0 := by decide
      omega
  · simp only [h0, if_false] at h
    split at h
    · cases h
    rename_i hsq
    have hsq : fpSq (rootCandidate (xSquared C y)) = xSquared C y := not_not.1 hsq
    have hr : rootCandidate (xSquared C y) ≠ fpOf 0 := by
      intro e
      apply h0
      rw [← hsq, e]
      decide +kernel
    generalize rootCandidate (xSquared C y) = r at h hsq hr
    split at h
    · rename_i hpar
      have e := Option.some.inj h
      subst e
      have := fpNeg_parity hr
      rw [fpSq_neg]
      exact ⟨hsq, by omega⟩
    · rename_i hpar
      have e := Option.some.inj h
      subst e
      exact ⟨hsq, not_not.1 hpar⟩

/-- `recoverX` finds the `x` of a point of the curve from its parity (R117). -/
theorem recoverX_of_onCurve (hC : C.nonSquare) {x y : Fp} (h : onCurve C (x, y)) :
    recoverX C y (x.val % 2) = some x := by
  have hx := (onCurve_iff_xSquared hC x y).1 h
  unfold recoverX
  rw [← hx]
  by_cases h0 : fpSq x = fpOf 0
  · have e := fpSq_eq_zero h0
    subst e
    decide +kernel
  · have hz : x ≠ fpOf 0 := by
      rintro rfl
      exact h0 (by decide +kernel)
    have root := rootCandidate_sq x
    simp only [h0, if_false, ne_eq, root, not_true_eq_false]
    rcases fpSq_eq root with e | e
    · rw [e]; simp
    · have e' : fpNeg (rootCandidate (fpSq x)) = x := by
        rw [e, ← fpCast_inj]; simp
      have hpar : ¬ (rootCandidate (fpSq x)).val % 2 = x.val % 2 := by
        rw [e, fpNeg_parity hz]; omega
      rw [if_pos hpar, e']

theorem fpMul_inv_one (x : Fp) : fpMul x (fpInv (fpOf 1)) = x := by
  have := fact_p_prime
  rw [← fpCast_inj]; simp

theorem one_ne_zero_fp : fpOf 1 ≠ fpOf 0 := by decide

/-- The quadruple `(x, y, 1, x·y)` of a point of the curve. -/
theorem affine_one_live {x y : Fp} (h : onCurve C (x, y)) :
    (Point.mk x y (fpOf 1) (fpMul x y)).live C ∧ (Point.mk x y (fpOf 1) (fpMul x y)).affine = (x, y) := by
  have := fact_p_prime
  have ha : (Point.mk x y (fpOf 1) (fpMul x y)).affine = (x, y) := by
    simp only [Point.affine, fpMul_inv_one]
  refine ⟨⟨one_ne_zero_fp, ?_, by rw [ha]; exact h⟩, ha⟩
  rw [← fpCast_inj]; simp

theorem top_bit_lt (n : Nat) (h : n < 2 ^ 256) : n / 2 ^ 255 < 2 := by omega

theorem split_top_bit (n : Nat) (h : n < 2 ^ 256) : (n % 2 ^ 255 + 2 ^ 255 * (n / 2 ^ 255)) % 2 ^ 256 = n := by
  rw [Nat.mod_add_div, Nat.mod_eq_of_lt h]

/-- The two ways decompression goes (R118). -/
theorem decompress_eq_some {b : Bytes32} {Q : Point} (h : decompress C b = some Q) :
    ∃ x y : Fp, y.val = b.toNat % 2 ^ 255 ∧ recoverX C y (b.toNat / 2 ^ 255) = some x ∧
      Q = ⟨x, y, fpOf 1, fpMul x y⟩ := by
  unfold decompress at h
  simp only at h
  split at h
  · rename_i hy
    split at h
    · cases h
    · rename_i x hx
      exact ⟨x, ⟨_, hy⟩, rfl, hx, (Option.some.inj h).symm⟩
  · cases h

/-- What decompression returns: a live point that compresses to the bytes it came from (R118, R126). -/
theorem decompress_some (hC : C.nonSquare) {b : Bytes32} {Q : Point} (h : decompress C b = some Q) :
    Q.live C ∧ compress Q = b := by
  obtain ⟨x, y, hy, hx, rfl⟩ := decompress_eq_some h
  obtain ⟨on, par⟩ := recoverX_some hC (top_bit_lt _ b.isLt) hx
  obtain ⟨live, aff⟩ := affine_one_live on
  refine ⟨live, ?_⟩
  rw [compress, aff, compressAffine, par, hy]
  apply BitVec.eq_of_toNat_eq
  rw [BitVec.toNat_ofNat]
  exact split_top_bit _ b.isLt

theorem decompress_of {b : Bytes32} {x y : Fp} (hy : b.toNat % 2 ^ 255 = y.val)
    (hx : recoverX C y (b.toNat / 2 ^ 255) = some x) : decompress C b = some ⟨x, y, fpOf 1, fpMul x y⟩ := by
  have hlt : b.toNat % 2 ^ 255 < Config.p := hy ▸ y.isLt
  have e : (⟨b.toNat % 2 ^ 255, hlt⟩ : Fp) = y := Fin.ext hy
  unfold decompress
  simp only
  rw [dif_pos hlt, e, hx]

theorem compressAffine_toNat (P : Affine) : (compressAffine P).toNat = P.2.val + 2 ^ 255 * (P.1.val % 2) := by
  have hy : P.2.val < 2 ^ 255 := P.2.isLt.trans (by decide)
  have hs : P.1.val % 2 < 2 := Nat.mod_lt _ (by decide)
  rw [compressAffine, BitVec.toNat_ofNat]
  generalize P.2.val = y at hy
  generalize P.1.val % 2 = s at hs
  omega

theorem low_of_top (y s : Nat) (h : y < 2 ^ 255) : (y + 2 ^ 255 * s) % 2 ^ 255 = y := by omega

theorem top_of_top (y s : Nat) (h : y < 2 ^ 255) : (y + 2 ^ 255 * s) / 2 ^ 255 = s := by omega

/-- The compression of a live point decompresses to a point of the same class (R126). -/
theorem decompress_compress (hC : C.nonSquare) {Q : Point} (h : Q.live C) :
    ∃ R, decompress C (compress Q) = some R ∧ R.live C ∧ R.affine = Q.affine := by
  have on := h.2.2
  rw [compress]
  generalize Q.affine = P at on
  obtain ⟨x, y⟩ := P
  obtain ⟨live, aff⟩ := affine_one_live on
  have hy : y.val < 2 ^ 255 := y.isLt.trans (by decide)
  have hn := compressAffine_toNat (x, y)
  refine ⟨_, decompress_of (x := x) (y := y) ?_ ?_, live, aff⟩
  · rw [hn]; exact low_of_top _ _ hy
  · rw [hn]
    rw [top_of_top _ _ hy]
    exact recoverX_of_onCurve hC on

/-- The neutral element decompresses from `01` and thirty-one `00`, on every curve (R123, R124). -/
theorem decompress_neutral (hC : C.nonSquare) : decompress C 1#256 = some pointNeutral := by
  have h : recoverX C (fpOf 1) ((fpOf 0).val % 2) = some (fpOf 0) := recoverX_of_onCurve hC neutral_on
  rw [decompress_of (x := fpOf 0) (y := fpOf 1) (by decide)
    (by rw [show (1#256).toNat / 2 ^ 255 = (fpOf 0).val % 2 by decide]; exact h)]
  decide

/-- Distinct points have distinct compressions (R126). -/
theorem compress_inj (hC : C.nonSquare) {P Q : Point} (hP : P.live C) (hQ : Q.live C) :
    compress P = compress Q ↔ P.affine = Q.affine := by
  constructor
  · intro h
    obtain ⟨P', dP, -, aP⟩ := decompress_compress hC hP
    obtain ⟨Q', dQ, -, aQ⟩ := decompress_compress hC hQ
    rw [h, dQ, Option.some.injEq] at dP
    rw [← aP, ← aQ, dP]
  · intro h
    rw [compress, compress, h]

end Sys2Proof.Machine
end

