-- ==== Sys2Proof/Laws/Order.lean ====
section
/-! SUPPORT. `q` is prime (R6), by Pratt certificates checked in the kernel; the defaults of R8 meet its constraints; so do
the parameters of this machine, whatever values are given for them. -/

namespace Sys2Proof.Machine

theorem prime_3044861653679985063343 : Nat.Prime 3044861653679985063343 := by
  refine prime_of_pratt 3044861653679985063343 5 [(2, 1), (3, 1), (11, 1), (30703, 1), (82163, 1), (132667, 1), (137849, 1)] (by decide +kernel) (by decide +kernel) ?_ (by decide +kernel) (by decide +kernel)
  simp only [List.forall_mem_cons, List.not_mem_nil, false_implies, implies_true, and_true]
  exact ⟨by norm_num, by norm_num, by norm_num, by norm_num, by norm_num, by norm_num, by norm_num⟩

theorem prime_q1 : Nat.Prime 198211423230930754013084525763697 := by
  refine prime_of_pratt 198211423230930754013084525763697 5 [(2, 4), (3, 1), (23, 1), (58964693, 1), (3044861653679985063343, 1)] (by decide +kernel) (by decide +kernel) ?_ (by decide +kernel) (by decide +kernel)
  simp only [List.forall_mem_cons, List.not_mem_nil, false_implies, implies_true, and_true]
  exact ⟨by norm_num, by norm_num, by norm_num, by norm_num, prime_3044861653679985063343⟩

theorem prime_292386187 : Nat.Prime 292386187 := by
  refine prime_of_pratt 292386187 2 [(2, 1), (3, 4), (307, 1), (5879, 1)] (by decide +kernel) (by decide +kernel) ?_ (by decide +kernel) (by decide +kernel)
  simp only [List.forall_mem_cons, List.not_mem_nil, false_implies, implies_true, and_true]
  exact ⟨by norm_num, by norm_num, by norm_num, by norm_num⟩

theorem prime_213441916511 : Nat.Prime 213441916511 := by
  refine prime_of_pratt 213441916511 13 [(2, 1), (5, 1), (73, 1), (292386187, 1)] (by decide +kernel) (by decide +kernel) ?_ (by decide +kernel) (by decide +kernel)
  simp only [List.forall_mem_cons, List.not_mem_nil, false_implies, implies_true, and_true]
  exact ⟨by norm_num, by norm_num, by norm_num, prime_292386187⟩

theorem prime_1257559732178653 : Nat.Prime 1257559732178653 := by
  refine prime_of_pratt 1257559732178653 2 [(2, 2), (3, 1), (7, 1), (23, 1), (531581, 1), (1224481, 1)] (by decide +kernel) (by decide +kernel) ?_ (by decide +kernel) (by decide +kernel)
  simp only [List.forall_mem_cons, List.not_mem_nil, false_implies, implies_true, and_true]
  exact ⟨by norm_num, by norm_num, by norm_num, by norm_num, by norm_num, by norm_num⟩

theorem prime_4434155615661930479 : Nat.Prime 4434155615661930479 := by
  refine prime_of_pratt 4434155615661930479 17 [(2, 1), (41, 1), (43, 1), (1257559732178653, 1)] (by decide +kernel) (by decide +kernel) ?_ (by decide +kernel) (by decide +kernel)
  simp only [List.forall_mem_cons, List.not_mem_nil, false_implies, implies_true, and_true]
  exact ⟨by norm_num, by norm_num, by norm_num, prime_1257559732178653⟩

theorem prime_q4 : Nat.Prime 172054593956031949258510691 := by
  refine prime_of_pratt 172054593956031949258510691 2 [(2, 1), (5, 1), (1361, 1), (2851, 1), (4434155615661930479, 1)] (by decide +kernel) (by decide +kernel) ?_ (by decide +kernel) (by decide +kernel)
  simp only [List.forall_mem_cons, List.not_mem_nil, false_implies, implies_true, and_true]
  exact ⟨by norm_num, by norm_num, by norm_num, by norm_num, prime_4434155615661930479⟩

theorem prime_q3 : Nat.Prime 19757330305831588566944191468367130476339 := by
  refine prime_of_pratt 19757330305831588566944191468367130476339 2 [(2, 1), (269, 1), (213441916511, 1), (172054593956031949258510691, 1)] (by decide +kernel) (by decide +kernel) ?_ (by decide +kernel) (by decide +kernel)
  simp only [List.forall_mem_cons, List.not_mem_nil, false_implies, implies_true, and_true]
  exact ⟨by norm_num, by norm_num, prime_213441916511, prime_q4⟩

theorem prime_q2 : Nat.Prime 276602624281642239937218680557139826668747 := by
  refine prime_of_pratt 276602624281642239937218680557139826668747 2 [(2, 1), (7, 1), (19757330305831588566944191468367130476339, 1)] (by decide +kernel) (by decide +kernel) ?_ (by decide +kernel) (by decide +kernel)
  simp only [List.forall_mem_cons, List.not_mem_nil, false_implies, implies_true, and_true]
  exact ⟨by norm_num, by norm_num, prime_q3⟩

theorem q_prime : Nat.Prime Config.q := by
  refine prime_of_pratt Config.q 2 [(2, 2), (3, 1), (11, 1), (198211423230930754013084525763697, 1), (276602624281642239937218680557139826668747, 1)] (by decide +kernel) (by decide +kernel) ?_ (by decide +kernel) (by decide +kernel)
  simp only [List.forall_mem_cons, List.not_mem_nil, false_implies, implies_true, and_true]
  exact ⟨by norm_num, by norm_num, by norm_num, prime_q1, prime_q2⟩

/-! ### The defaults of R8 meet its constraints -/

/-- Euler's criterion, one way: what the power `(p-1)/2` does not take to 1 is not a square. -/
theorem not_square_of_euler {t : Fp} (h0 : t ≠ fpOf 0) (h : fpPow t (Config.p / 2) ≠ fpOf 1) (x : Fp) : fpSq x ≠ t := by
  rintro rfl
  have := fact_p_prime
  have hx : fpCast x ≠ 0 := by
    rw [Ne, fpCast_eq_zero]
    rintro rfl
    exact h0 (by decide +kernel)
  apply h
  rw [← fpCast_inj, fpCast_pow _ _ (by decide), fpCast_sq, ← pow_mul,
    show 2 * (Config.p / 2) = Config.p - 1 by decide, fpCast_one]
  exact ZMod.pow_card_sub_one_eq_one hx

/-- The default `D_CONST` is not a square. -/
theorem standard_nonSquare : Curve.standard.nonSquare :=
  not_square_of_euler (by decide +kernel) (by decide +kernel)

theorem standard_base_on : onCurve Curve.standard Curve.standard.base := by decide +kernel

/-- `[q]G` for the defaults, computed by the double-and-add of R119. -/
theorem standard_base_order : affineTimes Curve.standard Config.q Curve.standard.base = affineNeutral := by
  have live : (pointBase Curve.standard).live Curve.standard ∧
      (pointBase Curve.standard).affine = Curve.standard.base := by decide +kernel
  rw [← live.2, ← (pointMul_class standard_nonSquare live.1 Config.q (by decide)).2]
  decide +kernel

/-- The default `G_BASE` has order exactly `q`, since `q` is prime. -/
theorem standard_baseOk : Curve.standard.baseOk := by
  refine ⟨standard_base_on, standard_base_order, fun n hn h => ?_⟩
  have on := standard_base_on
  have hC := standard_nonSquare
  have co : Nat.Coprime n.val Config.q :=
    ((Nat.Prime.coprime_iff_not_dvd q_prime).2 (Nat.not_dvd_of_pos_of_lt hn n.isLt)).symm
  obtain ⟨u, -, hu⟩ := Nat.exists_mul_mod_eq_one_of_coprime co (by decide)
  have e : affineTimes Curve.standard (n.val * u) Curve.standard.base = affineNeutral := by
    rw [Nat.mul_comm, affineTimes_mul hC on, h, affineTimes_neutral]
  rw [← Nat.mod_add_div (n.val * u) Config.q, hu, affineTimes_add hC on, affineTimes_one, Nat.mul_comm Config.q,
    affineTimes_mul hC on, standard_base_order, affineTimes_neutral, affineAdd_neutral_right] at e
  revert e; decide +kernel

theorem standard_admissible : Curve.standard.admissible :=
  ⟨by decide +kernel, standard_nonSquare, standard_baseOk⟩

/-! ### The parameters of this machine -/

/-- Whatever values are given, `D_CONST` and `G_BASE` of this machine meet the constraints of R8. -/
theorem curve_admissible : Config.curve.admissible := by
  unfold Config.curve
  cases h : Config.curveChoice.filter fun C => decide C.admissible with
  | none => exact standard_admissible
  | some C => exact of_decide_eq_true (Option.filter_eq_some_iff.1 h).2

theorem curve_nonSquare : Config.curve.nonSquare := curve_admissible.2.1

theorem curve_baseOk : Config.curve.baseOk := curve_admissible.2.2

/-- Every admissible value given is the value taken (R8, R42). -/
theorem curve_of_choice {C : Curve} (h : Config.curveChoice = some C) (hC : C.admissible) : Config.curve = C := by
  unfold Config.curve
  rw [h, Option.filter_some, if_pos (decide_eq_true hC)]; rfl

end Sys2Proof.Machine
end

