-- ==== Sys2Proof/Laws/Effects.lean ====
section
/-! SUPPORT. What a proof about a command cites after `exec_cases`: the errors' codes and bits, the registers of a pair,
the multiples of `G`, the check of `VERIFY` as an equation of classes, and one inversion lemma for each command of the
blind protocol. -/

namespace Sys2Proof.Machine

/-! ### Errors -/

theorem number_range (e : CmdError) : 1 ≤ e.number ∧ e.number ≤ 8 := by
  cases e <;> simp [CmdError.number]

/-- A code is one of those of R160, and `RCINFO` is 0 with code 0 (R33). -/
theorem code_range (e : CmdError) : e.code.toNat ≤ 8 ∧ (e.code = 0 → e.info = 0) := by
  cases e <;> simp [CmdError.code, CmdError.number]

theorem abort_code_ne (e : CmdError) (s : State) : (abort e s).rcCode ≠ 0 := by
  show e.code ≠ 0
  cases e <;> simp [CmdError.code, CmdError.number]

/-- An error sets no reserved bit of `ERRS` (R34). -/
theorem errsBit_live (e : CmdError) (x : Word) (h : x &&& ~~~errsLive = 0) : (x ||| e.errsBit) &&& ~~~errsLive = 0 := by
  have : e.errsBit &&& ~~~errsLive = 0 := by
    rcases e with _ | _ | _ | _ | _ | _ | _ | _ <;> (show (1#32 <<< (_ : Nat)) &&& _ = _) <;>
      simp only [CmdError.number] <;> decide
  rw [BitVec.and_comm, BitVec.and_or_distrib_left, BitVec.and_comm _ x, h, BitVec.and_comm _ e.errsBit, this]; rfl

/-- A command that ends its flight with `RC` 0 has completed. -/
theorem effect_of_done {i : Instr} {s t : State} (h : exec i s = .next t) (hs : s.inflight ≠ none)
    (ht : t.inflight = none) (hr : t.rcCode = 0) : ∃ u, Effect i s u ∧ t = complete u := by
  rcases exec_cases h with h | ⟨e, v, hf, rfl⟩ | ⟨hd, hw⟩
  · exact h
  · exact absurd hr (abort_code_ne _ _)
  · rcases hw with ⟨_, rfl⟩ | ⟨_, _, _, _, _, _, _, h, _, _, _, _, rfl⟩ <;> exact absurd ht hs

/-- A command that draws nothing and leaves `RC` 0 has completed. -/
theorem effect_of_ok {i : Instr} {s t : State} (h : exec i s = .next t) (hd : draws i = false) (hr : t.rcCode = 0) :
    ∃ u, Effect i s u ∧ t = complete u := by
  rcases exec_cases h with h | ⟨e, v, hf, rfl⟩ | ⟨hd', hw⟩
  · exact h
  · exact absurd hr (abort_code_ne _ _)
  · rw [hd] at hd'; cases hd'

/-! ### Registers -/

@[simp] theorem b_setB_same (s : State) (d : RegNum) (x : Bytes32) : (s.setB d x).b d = x := by
  show (s.bregs.set d.val x d.isLt).get _ = _
  rw [vector_get_set, if_pos rfl]

@[simp] theorem complete_b (s : State) (d : RegNum) : (complete s).b d = s.b d := rfl

theorem b_setB_other (s : State) (d e : RegNum) (x : Bytes32) (h : d ≠ e) : (s.setB d x).b e = s.b e := by
  show (s.bregs.set d.val x d.isLt).get _ = _
  rw [vector_get_set, if_neg h]; rfl

theorem pairOk_of_even {d : RegNum} (h : d.val % 2 = 0) : pairOk d = true := by simp [pairOk, h]

theorem live_of_holds {s : State} {a : RegNum} {x : Point} (h : s.PointsLive) (hx : s.pregs.get a = .holds x) :
    x.live Config.curve := by
  have := h.pregs a
  rw [hx] at this
  exact this

theorem pointsLive_setP {s : State} {d : RegNum} {Q : Point} (h : s.PointsLive) (hQ : Q.live Config.curve) :
    (s.setP d Q).PointsLive := by
  refine ⟨fun i => ?_, h.kp, h.issuer, h.user⟩
  show ((s.pregs.set d.val (.holds Q) d.isLt).get i).live
  rw [vector_get_set]
  split
  · exact hQ
  · exact h.pregs i

/-! ### Numbers and points -/

theorem fq_lt (n : Fq) : n.val < 2 ^ 256 := n.isLt.trans (by decide)

theorem fp_lt (n : Fp) : n.val < 2 ^ 256 := n.isLt.trans (by decide)

theorem draw_lt (v : Draw) : v.val < 2 ^ 256 := v.lt.trans (by decide)

theorem mod_q_lt (n : Nat) : n % Config.q < 2 ^ 256 := (Nat.mod_lt _ Config.q_pos).trans (by decide)

theorem enc32_toNat {n : Nat} (h : n < 2 ^ 256) : (enc32 n).toNat = n := by
  rw [enc32, BitVec.toNat_ofNat, Nat.mod_eq_of_lt h]

theorem base_on : onCurve Config.curve Config.curve.base := curve_baseOk.1

/-- A multiple of `G` is live, and its class is the multiple of the class of `G` (R119). -/
theorem base_mul {n : Nat} (hn : n < 2 ^ 256) :
    (pointMul Config.curve n (pointBase Config.curve)).live Config.curve ∧
      (pointMul Config.curve n (pointBase Config.curve)).affine = affineTimes Config.curve n Config.curve.base := by
  obtain ⟨live, cls⟩ := pointBase_live curve_baseOk
  rw [← cls]
  exact pointMul_class curve_nonSquare live n hn

/-- Clamping clears the low three bits, clears bit 255 and sets bit 254 (R128). -/
theorem clamp_range (n : Nat) : 2 ^ 254 ≤ n % 2 ^ 254 - n % 8 + 2 ^ 254 ∧ n % 2 ^ 254 - n % 8 + 2 ^ 254 < 2 ^ 255 ∧
    (n % 2 ^ 254 - n % 8 + 2 ^ 254) % 8 = 0 := by
  have h1 : n % 2 ^ 254 % 8 = n % 8 := Nat.mod_mod_of_dvd n (by decide)
  have h2 : n % 2 ^ 254 < 2 ^ 254 := Nat.mod_lt _ (by decide)
  generalize n % 2 ^ 254 = m at *
  omega

/-- The secret of an expanded seed is clamped (R25, R128). -/
theorem expandSecret_clamped (b : Bytes32) : 2 ^ 254 ≤ (expandSecret b).kx.toNat ∧
    (expandSecret b).kx.toNat < 2 ^ 255 ∧ (expandSecret b).kx.toNat % 8 = 0 := by
  simp only [expandSecret, le]
  generalize (BitVec.extractLsb' 0 256 (Config.hash (bytes32 b))).toNat = n
  obtain ⟨h1, h2, h3⟩ := clamp_range n
  rw [BitVec.toNat_ofNat, Nat.mod_eq_of_lt (by omega)]
  exact ⟨h1, h2, h3⟩

/-! ### Signatures -/

/-- The check of `VERIFY` in classes (R132). -/
theorem accepts_iff {pk rb sb : Bytes32} {m : List Byte} : accepts pk rb sb m = true ↔
    ∃ A R, decompress Config.curve pk = some A ∧ decompress Config.curve rb = some R ∧
      affineTimes Config.curve sb.toNat Config.curve.base =
        affineAdd Config.curve R.affine (affineTimes Config.curve (hashToScalar rb m).val A.affine) := by
  unfold accepts
  cases hA : decompress Config.curve pk with
  | none => simp
  | some A =>
    cases hR : decompress Config.curve rb with
    | none => simp
    | some R =>
      have lA := (decompress_some curve_nonSquare hA).1
      obtain ⟨l1, c1⟩ := pointMul_class curve_nonSquare lA (hashToScalar rb m).val (fq_lt _)
      obtain ⟨l2, c2⟩ := pointAdd_class curve_nonSquare (decompress_some curve_nonSquare hR).1 l1
      obtain ⟨l3, c3⟩ := base_mul sb.isLt
      change _ = affineTimes Config.curve sb.toNat Config.curve.base at c3
      simp only [le, Option.some.injEq]
      constructor
      · intro h; exact ⟨A, R, rfl, rfl, by rw [← c1, ← c2, ← c3]; exact (pointEqual_iff l3 l2).1 h⟩
      · rintro ⟨A', R', rfl, rfl, h⟩
        exact (pointEqual_iff l3 l2).2 (by rw [c1.symm, ← c2, ← c3] at h; exact h)

/-- `VERIFY` with the declared lengths in order completes with `VALID` the answer of the check (R132). -/
theorem verify_completes {s : State} {a b : RegNum} (hb : b.val % 2 = 0) (hk : s.klen = 32) (hs : s.slen = 64)
    (hm : s.mlen.toNat ≤ Config.msgMax) : exec (.verify a b) s = .next (complete (s.setValid
      (accepts (s.b a) (s.b b) (s.b (pairHigh b)) (msgBytes s.msg s.mlen.toNat)))) := by
  show execVerify a b s = _
  simp [execVerify, pairOperand, pairOk_of_even hb, needKlen, hk, needSlen, hs, message, hm, finish]

/-! ### The blind protocol, command by command -/

theorem bcommit_effect {d : RegNum} {s u : State} (h : Effect (.bcommit d) s u) :
    ∃ ik : Draw, u.issuer = .commit ik (pointMul Config.curve ik.val (pointBase Config.curve)) ∧
      u.b d = compress (pointMul Config.curve ik.val (pointBase Config.curve)) := by
  generalize hi : Instr.bcommit d = i at h
  cases h <;> cases hi
  exact ⟨_, rfl, b_setB_same _ _ _⟩

/-- `BCOMMIT` in the idle context with a value next from the port (R141). -/
theorem bcommit_completes {d : RegNum} {s : State} {k : Draw} {rest : List PortAnswer} (hi : s.issuer = .idle)
    (he : s.entropy = .value k :: rest) : exec (.bcommit d) s = .next (complete ((State.setIssuer
      { s with entropy := rest } (.commit k (pointMul Config.curve k.val (pointBase Config.curve)))).setB d
      (compress (pointMul Config.curve k.val (pointBase Config.curve))))) := by
  show execBcommit d s = _
  simp only [execBcommit, needIssuerIdle, hi, draw, he, finish]

/-- `BBLIND` whose checks pass, with two values next from the port (R142). -/
theorem bblind_completes {d a b : RegNum} {s : State} {m : List Byte} {R P : Point} {va vb : Draw}
    {rest : List PortAnswer} (ok : blindOperands a b s = .ok (m, R, P)) (hb : s.blindA = none)
    (he : s.entropy = .value va :: .value vb :: rest) : exec (.bblind d a b) s = .next (complete ((State.setUser
      { s with entropy := rest } (.blinded va (blindedCommitment R P va vb))).setB d
      (enc32 (fqAdd (hashToScalar (compress (blindedCommitment R P va vb)) m) vb.toFq).val))) := by
  show execBblind d a b s = _
  simp only [execBblind, ok, drawBlindA, hb, draw, he, finish]

theorem bblind_effect {d a b : RegNum} {s u : State} (h : Effect (.bblind d a b) s u) :
    ∃ m R P, ∃ va vb : Draw, message s = .ok m ∧ decompress Config.curve (s.b a) = some R ∧
      decompress Config.curve (s.b b) = some P ∧
      u.user = .blinded va (blindedCommitment R P va vb) ∧
      u.b d = enc32 (fqAdd (hashToScalar (compress (blindedCommitment R P va vb)) m) vb.toFq).val := by
  generalize hi : Instr.bblind d a b = i at h
  cases h <;> cases hi
  exact ⟨_, _, _, _, _, by assumption, by assumption, by assumption, rfl, b_setB_same _ _ _⟩

theorem bsign_effect {d a : RegNum} {s u : State} (h : Effect (.bsign d a) s u) :
    ∃ ik ir k, s.issuer = .commit ik ir ∧ s.key = .holds k ∧
      u.b d = enc32 ((ik.val + le (s.b a) % Config.q * k.kx.toNat) % Config.q) := by
  generalize hi : Instr.bsign d a = i at h
  cases h <;> cases hi
  exact ⟨_, _, _, by assumption, by assumption, b_setB_same _ _ _⟩

theorem bunblind_effect {d a : RegNum} {s u : State} (h : Effect (.bunblind d a) s u) :
    ∃ ua urp, s.user = .blinded ua urp ∧ u.b (pairHigh d) = enc32 ((le (s.b a) % Config.q + ua.val) % Config.q) ∧
      (pairHigh d ≠ d → u.b d = compress urp) := by
  generalize hi : Instr.bunblind d a = i at h
  cases h <;> cases hi
  exact ⟨_, _, by assumption, b_setB_same _ _ _,
    fun h => (b_setB_other _ _ _ _ h).trans (b_setB_same _ _ _)⟩

/-- The signature equation of a finished protocol, in multiples of `G` (R146). -/
theorem blind_equation (ik va vb : Draw) (h : Fq) (kx e x : Nat) (he : e = (h.val + vb.val) % Config.q)
    (hx : x = ((ik.val + e % Config.q * kx) % Config.q % Config.q + va.val) % Config.q) :
    affineTimes Config.curve x Config.curve.base =
      affineAdd Config.curve
        (affineAdd Config.curve
          (affineAdd Config.curve (affineTimes Config.curve ik.val Config.curve.base)
            (affineTimes Config.curve va.val Config.curve.base))
          (affineTimes Config.curve vb.val (affineTimes Config.curve kx Config.curve.base)))
        (affineTimes Config.curve h.val (affineTimes Config.curve kx Config.curve.base)) := by
  simp only [← affineTimes_mul curve_nonSquare base_on, ← affineTimes_add curve_nonSquare base_on]
  rw [base_times_inj curve_nonSquare curve_baseOk, hx, he]
  obtain ⟨ik, -, -⟩ := ik; obtain ⟨va, -, -⟩ := va; obtain ⟨vb, -, -⟩ := vb; obtain ⟨h, -⟩ := h
  simp only
  generalize Config.q = q
  show Nat.ModEq q _ _
  have hq : ((h + vb) % q % q) * kx ≡ (h + vb) * kx [MOD q] :=
    Nat.ModEq.mul_right _ ((Nat.mod_modEq _ _).trans (Nat.mod_modEq _ _))
  refine (Nat.mod_modEq _ _).trans ?_
  refine (Nat.ModEq.add_right _ (((Nat.mod_modEq _ _).trans (Nat.mod_modEq _ _)).trans
    (Nat.ModEq.add_left _ hq))).trans ?_
  have : ik + (h + vb) * kx + va = ik + va + vb * kx + h * kx := by ring
  rw [this]

end Sys2Proof.Machine
end

