-- ==== Sys2Proof/Laws/PerInstr.lean ====
section
/-! SUPPORT. Statements made per instruction. `TableRow`: the word of a well-formed instruction matches its row of
spec/opcode_table.json (R65). -/

namespace Sys2Proof.Laws.TableRow

/-- A row of spec/opcode_table.json as R65 reads it: a word `w` is of the row when `w &&& mask = value`. -/
structure Row where
  mask : Word
  value : Word

/-- The row of an instruction, `mask` and `match` copied from spec/opcode_table.json. -/
def row : Instr → Row
  | .nop => ⟨0xffffffff#32, 0x00000000#32⟩
  | .zeroize => ⟨0xffffffff#32, 0x02000000#32⟩
  | .hashb _ => ⟨0xfff8ffff#32, 0x03000000#32⟩
  | .hashbm _ => ⟨0xfff8ffff#32, 0x04000000#32⟩
  | .fadd _ _ _ => ⟨0xff888fff#32, 0x10000000#32⟩
  | .fsub _ _ _ => ⟨0xff888fff#32, 0x11000000#32⟩
  | .fmul _ _ _ => ⟨0xff888fff#32, 0x12000000#32⟩
  | .fneg _ _ => ⟨0xff88ffff#32, 0x13000000#32⟩
  | .finv _ _ => ⟨0xff88ffff#32, 0x14000000#32⟩
  | .fsqrtc _ _ => ⟨0xff88ffff#32, 0x15000000#32⟩
  | .fld _ _ => ⟨0xff88ffff#32, 0x16000000#32⟩
  | .fst _ _ => ⟨0xff88ffff#32, 0x17000000#32⟩
  | .fldc _ _ => ⟨0xff8ffffc#32, 0x18000000#32⟩
  | .sadd _ _ _ => ⟨0xff888fff#32, 0x20000000#32⟩
  | .ssub _ _ _ => ⟨0xff888fff#32, 0x21000000#32⟩
  | .smul _ _ _ => ⟨0xff888fff#32, 0x22000000#32⟩
  | .h2s _ => ⟨0xff8fffff#32, 0x23000000#32⟩
  | .rnds _ => ⟨0xff8fffff#32, 0x24000000#32⟩
  | .sld _ _ => ⟨0xff88ffff#32, 0x26000000#32⟩
  | .sst _ _ => ⟨0xff88ffff#32, 0x27000000#32⟩
  | .padd _ _ _ => ⟨0xff888fff#32, 0x30000000#32⟩
  | .pdbl _ _ => ⟨0xff88ffff#32, 0x31000000#32⟩
  | .psmul _ _ _ => ⟨0xff888fff#32, 0x32000000#32⟩
  | .psmulg _ _ => ⟨0xff88ffff#32, 0x33000000#32⟩
  | .peq _ _ => ⟨0xfff88fff#32, 0x34000000#32⟩
  | .pcmp _ _ => ⟨0xff88ffff#32, 0x35000000#32⟩
  | .pdec _ _ => ⟨0xff88ffff#32, 0x36000000#32⟩
  | .pldc _ _ => ⟨0xff8ffffe#32, 0x38000000#32⟩
  | .kexpand _ => ⟨0xfff8ffff#32, 0x40000000#32⟩
  | .kderive _ => ⟨0xff8fffff#32, 0x41000000#32⟩
  | .sign _ _ => ⟨0xff98ffff#32, 0x42000000#32⟩
  | .verify _ _ => ⟨0xfff89fff#32, 0x43000000#32⟩
  | .bcommit _ => ⟨0xff8fffff#32, 0x50000000#32⟩
  | .bblind _ _ _ => ⟨0xff888fff#32, 0x51000000#32⟩
  | .bsign _ _ => ⟨0xff88ffff#32, 0x52000000#32⟩
  | .bunblind _ _ => ⟨0xff98ffff#32, 0x53000000#32⟩
  | .bdiscard _ => ⟨0xfffffffc#32, 0x54000000#32⟩

/-- The word of the instruction matches the instruction's row (R65). -/
def Statement (i : Instr) : Prop := i.wf = true → encode i &&& (row i).mask = (row i).value

theorem imm_le_three {c : Imm} (h : fldcImmOk c = true) : c = 0 ∨ c = 1 ∨ c = 2 ∨ c = 3 := by
  simp only [fldcImmOk, decide_eq_true_eq] at h
  have := c.isLt
  simp only [← BitVec.toNat_inj]
  simp
  omega

theorem imm_le_one {c : Imm} (h : pldcImmOk c = true) : c = 0 ∨ c = 1 := by
  simp only [pldcImmOk, decide_eq_true_eq] at h
  simp only [← BitVec.toNat_inj]
  simp
  omega

theorem imm_mask {c : Imm} (h : bdiscardImmOk c = true) : c = 1 ∨ c = 2 ∨ c = 3 := by
  simp only [bdiscardImmOk, Bool.and_eq_true, decide_eq_true_eq] at h
  simp only [← BitVec.toNat_inj]
  simp
  omega

theorem nop : Statement (.nop) := by
  unfold Statement
  decide

theorem zeroize : Statement (.zeroize) := by
  unfold Statement
  decide

theorem hashb (a : RegNum) : Statement (.hashb a) := by
  unfold Statement
  revert a
  decide

theorem hashbm (a : RegNum) : Statement (.hashbm a) := by
  unfold Statement
  revert a
  decide

theorem fadd (d a b : RegNum) : Statement (.fadd d a b) := by
  unfold Statement
  revert d a b
  decide

theorem fsub (d a b : RegNum) : Statement (.fsub d a b) := by
  unfold Statement
  revert d a b
  decide

theorem fmul (d a b : RegNum) : Statement (.fmul d a b) := by
  unfold Statement
  revert d a b
  decide

theorem fneg (d a : RegNum) : Statement (.fneg d a) := by
  unfold Statement
  revert d a
  decide

theorem finv (d a : RegNum) : Statement (.finv d a) := by
  unfold Statement
  revert d a
  decide

theorem fsqrtc (d a : RegNum) : Statement (.fsqrtc d a) := by
  unfold Statement
  revert d a
  decide

theorem fld (d a : RegNum) : Statement (.fld d a) := by
  unfold Statement
  revert d a
  decide

theorem fst (d a : RegNum) : Statement (.fst d a) := by
  unfold Statement
  revert d a
  decide

theorem fldc (d : RegNum) (c : Imm) : Statement (.fldc d c) := by
  intro h
  rcases imm_le_three h with rfl | rfl | rfl | rfl <;> revert d <;> decide

theorem sadd (d a b : RegNum) : Statement (.sadd d a b) := by
  unfold Statement
  revert d a b
  decide

theorem ssub (d a b : RegNum) : Statement (.ssub d a b) := by
  unfold Statement
  revert d a b
  decide

theorem smul (d a b : RegNum) : Statement (.smul d a b) := by
  unfold Statement
  revert d a b
  decide

theorem h2s (d : RegNum) : Statement (.h2s d) := by
  unfold Statement
  revert d
  decide

theorem rnds (d : RegNum) : Statement (.rnds d) := by
  unfold Statement
  revert d
  decide

theorem sld (d a : RegNum) : Statement (.sld d a) := by
  unfold Statement
  revert d a
  decide

theorem sst (d a : RegNum) : Statement (.sst d a) := by
  unfold Statement
  revert d a
  decide

theorem padd (d a b : RegNum) : Statement (.padd d a b) := by
  unfold Statement
  revert d a b
  decide

theorem pdbl (d a : RegNum) : Statement (.pdbl d a) := by
  unfold Statement
  revert d a
  decide

theorem psmul (d a b : RegNum) : Statement (.psmul d a b) := by
  unfold Statement
  revert d a b
  decide

theorem psmulg (d a : RegNum) : Statement (.psmulg d a) := by
  unfold Statement
  revert d a
  decide

theorem peq (a b : RegNum) : Statement (.peq a b) := by
  unfold Statement
  revert a b
  decide

theorem pcmp (d a : RegNum) : Statement (.pcmp d a) := by
  unfold Statement
  revert d a
  decide

theorem pdec (d a : RegNum) : Statement (.pdec d a) := by
  unfold Statement
  revert d a
  decide

theorem pldc (d : RegNum) (c : Imm) : Statement (.pldc d c) := by
  intro h
  rcases imm_le_one h with rfl | rfl <;> revert d <;> decide

theorem kexpand (a : RegNum) : Statement (.kexpand a) := by
  unfold Statement
  revert a
  decide

theorem kderive (d : RegNum) : Statement (.kderive d) := by
  unfold Statement
  revert d
  decide

theorem sign (d a : RegNum) : Statement (.sign d a) := by
  unfold Statement
  revert d a
  decide

theorem verify (a b : RegNum) : Statement (.verify a b) := by
  unfold Statement
  revert a b
  decide

theorem bcommit (d : RegNum) : Statement (.bcommit d) := by
  unfold Statement
  revert d
  decide

theorem bblind (d a b : RegNum) : Statement (.bblind d a b) := by
  unfold Statement
  revert d a b
  decide

theorem bsign (d a : RegNum) : Statement (.bsign d a) := by
  unfold Statement
  revert d a
  decide

theorem bunblind (d a : RegNum) : Statement (.bunblind d a) := by
  unfold Statement
  revert d a
  decide

theorem bdiscard (m : Imm) : Statement (.bdiscard m) := by
  intro h
  rcases imm_mask h with rfl | rfl | rfl <;> decide

end Sys2Proof.Laws.TableRow
end

