-- ==== Sys2Proof/Tests/Slice0.lean ====
section
/-! SUPPORT. The model's own tests: ill-formed terms refused, words of 95_test_vectors.md decoded, one step of each
command on values the spec's vectors give, and for every statement with hypotheses a witness that meets them. Expected
values are those of 95_test_vectors.md, or computed by hand from the rule named. A vector that is for the defaults of R8
or R9 is tested under the premise that the machine's parameter is that default. -/

namespace Sys2Proof.Machine.Tests

open Sys2Proof

/-! ### Helpers -/

/-- The next state, or the old one where there is none. -/
def after (o : Host.Outcome State Fault Refusal) (s : State) : State :=
  match o with
  | .next t => t
  | .fault _ => s
  | .refused _ => s

/-- `i` run on `s`. -/
def run (i : Instr) (s : State) : State := after (exec i s) s

/-- `F1` and `F2` given. -/
def twoF (a b : Nat) : State := (State.reset.setF 1 (fpOf a)).setF 2 (fpOf b)

/-- `S1` and `S2` given. -/
def twoS (a b : Nat) : State := (State.reset.setS 1 (fqOf a)).setS 2 (fqOf b)

/-- `P0` the neutral element, `P1` the base point, `S1` given. -/
def points (n : Nat) : State := ((State.reset.setP 0 pointNeutral).setP 1 (pointBase Config.curve)).setS 1 (fqOf n)

/-- A byte register given as a number. -/
def withB (s : State) (i : RegNum) (n : Nat) : State := s.setB i (enc32 n)

/-- A draw given as a number. -/
def drawOf (n : Nat) (h : 1 ≤ n ∧ n < Config.q) : Draw := ⟨n, h.1, h.2⟩

/-- The clamped secret of 95_test_vectors.md section 6. -/
def kxValue : BitVec 256 := 0x4fe94d9006f020a5a3c080d96827fffd3c010ac0f12e7a42cb33284f86837c30#256

def keyed : State := State.reset.setKey ⟨kxValue, 0⟩

/-- The draws `k` and `a` of 95_test_vectors.md section 7. -/
def drawK : Draw := drawOf 0x0123456789abcdef0123456789abcdef0123456789abcdef0123456789abcdef (by decide)

def drawA : Draw := drawOf 0x0fedcba9876543210fedcba9876543210fedcba9876543210fedcba987654321 (by decide)

def draw9 : Draw := drawOf 9 (by decide)

/-- The compressed form of `G_BASE` at the defaults of R8: `0x58`, then thirty-one `0x66`. -/
def gBytes : Nat := 0x6666666666666666666666666666666666666666666666666666666666666658

/-- `RC` and `ERRS` after a command. -/
def rcErrs (s : State) : Word × Word := (rcWord s, errsWord s)

/-! ### Well-formedness: a term refused for each check -/

theorem test_wf_refuses : Instr.wf (.sign 3 0) = false ∧ Instr.wf (.verify 0 1) = false ∧
    Instr.wf (.bunblind 7 0) = false ∧ Instr.wf (.fldc 0 4) = false ∧ Instr.wf (.pldc 0 2) = false ∧
    Instr.wf (.bdiscard 0) = false ∧ Instr.wf (.bdiscard 4) = false := by decide

theorem test_wf_accepts : Instr.wf (.sign 6 0) = true ∧ Instr.wf (.verify 0 6) = true ∧
    Instr.wf (.bunblind 0 7) = true ∧ Instr.wf (.fldc 7 3) = true ∧ Instr.wf (.pldc 7 1) = true ∧
    Instr.wf (.bdiscard 1) = true ∧ Instr.wf (.bdiscard 3) = true := by decide

/-! ### Decoding: the words of 95_test_vectors.md section 9, each field at a place of its own -/

theorem test_decode_system : decode 0x00000000#32 = .ok .nop ∧ decode 0x02000000#32 = .ok .zeroize ∧
    decode 0x03030000#32 = .ok (.hashb 3) ∧ decode 0x04030000#32 = .ok (.hashbm 3) := by decide

theorem test_decode_field : decode 0x10123000#32 = .ok (.fadd 1 2 3) ∧ decode 0x11123000#32 = .ok (.fsub 1 2 3) ∧
    decode 0x12123000#32 = .ok (.fmul 1 2 3) ∧ decode 0x13120000#32 = .ok (.fneg 1 2) ∧
    decode 0x14120000#32 = .ok (.finv 1 2) ∧ decode 0x15120000#32 = .ok (.fsqrtc 1 2) ∧
    decode 0x16120000#32 = .ok (.fld 1 2) ∧ decode 0x17120000#32 = .ok (.fst 1 2) ∧
    decode 0x18100003#32 = .ok (.fldc 1 3) := by decide

theorem test_decode_scalar : decode 0x20123000#32 = .ok (.sadd 1 2 3) ∧ decode 0x21123000#32 = .ok (.ssub 1 2 3) ∧
    decode 0x22123000#32 = .ok (.smul 1 2 3) ∧ decode 0x23100000#32 = .ok (.h2s 1) ∧
    decode 0x24100000#32 = .ok (.rnds 1) ∧ decode 0x26120000#32 = .ok (.sld 1 2) ∧
    decode 0x27120000#32 = .ok (.sst 1 2) := by decide

theorem test_decode_point : decode 0x30123000#32 = .ok (.padd 1 2 3) ∧ decode 0x31120000#32 = .ok (.pdbl 1 2) ∧
    decode 0x32123000#32 = .ok (.psmul 1 2 3) ∧ decode 0x33120000#32 = .ok (.psmulg 1 2) ∧
    decode 0x34023000#32 = .ok (.peq 2 3) ∧ decode 0x35120000#32 = .ok (.pcmp 1 2) ∧
    decode 0x36120000#32 = .ok (.pdec 1 2) ∧ decode 0x38100001#32 = .ok (.pldc 1 1) := by decide

theorem test_decode_key : decode 0x40020000#32 = .ok (.kexpand 2) ∧ decode 0x41100000#32 = .ok (.kderive 1) ∧
    decode 0x42210000#32 = .ok (.sign 2 1) ∧ decode 0x43012000#32 = .ok (.verify 1 2) := by decide

theorem test_decode_blind : decode 0x50100000#32 = .ok (.bcommit 1) ∧ decode 0x51123000#32 = .ok (.bblind 1 2 3) ∧
    decode 0x52120000#32 = .ok (.bsign 1 2) ∧ decode 0x53210000#32 = .ok (.bunblind 2 1) ∧
    decode 0x54000003#32 = .ok (.bdiscard 3) := by decide

theorem test_illegal_op : [0x01000000, 0x05000000, 0x19000000, 0x25000000, 0x37000000, 0x44000000, 0x55000000,
    0xff000000, 0xffffffff].all (fun w => decode (BitVec.ofNat 32 w) = .error .unknownOp) = true := by decide

theorem test_illegal_unused : [0x00000001, 0x10000001, 0x1080000f, 0x13001000, 0x13081000, 0x43102000, 0x54100001,
    0x23010000, 0x02000001, 0x03100000, 0x34100000].all
      (fun w => decode (BitVec.ofNat 32 w) = .error .unusedField) = true := by decide

theorem test_illegal_register : [0x10800000, 0x100f0000, 0x42300000, 0x42800000, 0x43001000, 0x53700000,
    0x18800004].all (fun w => decode (BitVec.ofNat 32 w) = .error .badRegister) = true := by decide

theorem test_illegal_imm : [0x38000002, 0x18000004, 0x54000000, 0x54000004].all
    (fun w => decode (BitVec.ofNat 32 w) = .error .badImm) = true := by decide

/-! ### System and hash commands -/

theorem test_nop_clears_rc : rcErrs (run .nop { State.reset with rcCode := 4, errs := 0x10 }) = (0, 0x10) := by decide

/-- R153: `ERRS` stays, `ARGLEN` is back at its reset value. -/
theorem test_zeroize : rcErrs (run .zeroize (withB { keyed with errs := 0x80, klen := 1 } 0 7)) = (0, 0x80) ∧
    arglenWord (run .zeroize { State.reset with klen := 1 }) = 0x4020#32 ∧
    (run .zeroize (withB keyed 0 7)).b 0 = 0 ∧ (run .zeroize keyed).key.valid = false := by decide

theorem test_hashb_bytes : (run (.hashb 0) (withB State.reset 0 0x0201)).hd =
    Config.hash ([1, 2] ++ List.replicate 30 0) := rfl

/-- `HASHBM B0` on `"abc"` (95_test_vectors.md section 9). -/
theorem test_hashbm_bytes :
    (run (.hashbm 0) { State.reset with mlen := 3, msg := [(0x1000, 0x61), (0x1001, 0x62), (0x1002, 0x63)] }).hd =
      Config.hash (List.replicate 32 0 ++ [0x61, 0x62, 0x63]) := rfl

theorem test_hashbm_too_long (size : Config.msgMax = Config.msgMaxDefault) :
    rcErrs (run (.hashbm 0) { State.reset with mlen := 4097 }) = (0x8, 0x100) := by
  simp only [run, exec, execHashbm, message, size]
  decide

/-! ### Field commands (95_test_vectors.md section 3) -/

theorem test_fadd_wraps : (run (.fadd 0 1 2) (twoF (Config.p - 1) 2)).fregs.get 0 = .holds (fpOf 1) := by decide

theorem test_fsub_wraps : (run (.fsub 0 1 2) (twoF 0 1)).fregs.get 0 = .holds (fpOf (Config.p - 1)) := by decide

theorem test_fsub_order : (run (.fsub 0 1 2) (twoF 2 (Config.p - 1))).fregs.get 0 = .holds (fpOf 3) := by decide

theorem test_fmul : (run (.fmul 0 1 2) (twoF (Config.p - 1) (Config.p - 1))).fregs.get 0 = .holds (fpOf 1) := by decide

theorem test_fneg_zero : (run (.fneg 0 1) (twoF 0 0)).fregs.get 0 = .holds (fpOf 0) := by decide

theorem test_finv_two : (run (.finv 0 1) (twoF 2 0)).fregs.get 0 =
    .holds (fpOf 0x3ffffffffffffffffffffffffffffffffffffffffffffffffffffffffffffff7) := by decide +kernel

theorem test_finv_zero : rcErrs (run (.finv 0 1) (twoF 0 0)) = (0x4, 0x10) ∧
    (run (.finv 0 1) (twoF 0 0)).fregs.get 0 = .invalid := by decide

theorem test_fsqrtc_four : (run (.fsqrtc 0 1) (twoF 4 0)).fregs.get 0 =
    .holds (fpOf 0x570649009f83be16569a01327bf7af4e5e86300d5a5fc8f189dc364e941d4160) := by decide +kernel

theorem test_fsqrtc_nonsquare : (run (.fsqrtc 0 1) (twoF 2 0)).fregs.get 0 =
    .holds (fpOf 0x2b8324804fc1df0b2b4d00993dfbd7a72f431806ad2fe478c4ee1b274a0ea0b1) := by decide +kernel

theorem test_fld_reduces : (run (.fld 0 1) (withB State.reset 1 (2 ^ 256 - 1))).fregs.get 0 = .holds (fpOf 0x25) := by
  decide

/-- `FST` of `5/7`, the string `d4b66ddb...ddb36`. -/
theorem test_fst : (run (.fst 3 1) (twoF 0x36db6db6db6db6db6db6db6db6db6db6db6db6db6db6db6db6db6db6db6db6d4 0)).b 3 =
    0x36db6db6db6db6db6db6db6db6db6db6db6db6db6db6db6db6db6db6db6db6d4#256 := by decide

theorem test_fldc : (run (.fldc 0 2) State.reset).fregs.get 0 = .holds Config.curve.d ∧
    (run (.fldc 0 3) State.reset).fregs.get 0 = .holds Config.sqrtM1 := ⟨rfl, by decide⟩

theorem test_fldc_ill_formed : rcErrs (run (.fldc 0 4) State.reset) = (0x405, 0x20) := by decide

theorem test_field_invalid : rcErrs (run (.fadd 2 1 0) (State.reset.setF 0 (fpOf 0))) = (0x106, 0x40) := by decide

/-! ### Scalar commands (95_test_vectors.md section 4) -/

theorem test_sadd_wraps : (run (.sadd 0 1 2) (twoS (Config.q - 1) 1)).sregs.get 0 = .holds (fqOf 0) := by decide

theorem test_ssub_wraps : (run (.ssub 0 1 2) (twoS 0 1)).sregs.get 0 = .holds (fqOf (Config.q - 1)) := by decide

theorem test_smul : (run (.smul 0 1 2) (twoS (2 ^ 200) (2 ^ 100))).sregs.get 0 =
    .holds (fqOf 0x0fffffffffffffffffffeb2106215d087808a1cc3fdd3fe08425631a5cf5d3ed) := by decide

/-- `H2S` of the string `00 01 02 ... 3f`. -/
theorem test_h2s : (run (.h2s 0) { State.reset with hd := 0x3f3e3d3c3b3a393837363534333231302f2e2d2c2b2a292827262524232221201f1e1d1c1b1a191817161514131211100f0e0d0c0b0a09080706050403020100#512 }).sregs.get 0 =
    .holds (fqOf 0x572d0e474b5e0da7a932112c3d46159cce628540db62350a0372df082623c7a) := by decide +kernel

theorem test_rnds : (run (.rnds 0) { State.reset with entropy := [.value drawK, .fail] }).sregs.get 0 =
    .holds (fqOf drawK.val) ∧ (run (.rnds 0) { State.reset with entropy := [.value drawK, .fail] }).entropy = [.fail] := by
  decide

theorem test_rnds_fail : rcErrs (run (.rnds 0) { State.reset with entropy := [.fail] }) = (0x3, 0x8) ∧
    (run (.rnds 0) { State.reset with entropy := [.fail] }).sregs.get 0 = .invalid := by decide

theorem test_sld : (run (.sld 0 1) (withB State.reset 1 (2 ^ 256 - 1))).sregs.get 0 =
    .holds (fqOf 0x0ffffffffffffffffffffffffffffffec6ef5bf4737dcf70d6ec31748d98951c) := by decide

theorem test_sst : (run (.sst 3 1) (twoS (Config.q + 5) 0)).b 3 = 5 := by decide

theorem test_scalar_invalid : rcErrs (run (.sadd 0 1 2) State.reset) = (0x206, 0x40) := by decide

/-! ### Point commands (95_test_vectors.md section 5) -/

theorem test_padd (std : Config.curve = Curve.standard) : (run (.pcmp 0 3) (run (.padd 3 1 1) (points 0))).b 0 =
    0x2260cdf3092329c21da25ee8c9a21f5697390f51643851560e5f46ae6af8a3c9#256 := by
  show compress (pointAdd Config.curve (pointBase Config.curve) (pointBase Config.curve)) = _
  rw [std]
  decide +kernel

theorem test_padd_neutral (std : Config.curve = Curve.standard) : (run (.peq 2 1) (run (.padd 2 1 0) (points 0))).eqFlag = true := by
  show pointEqual (pointAdd Config.curve (pointBase Config.curve) pointNeutral) (pointBase Config.curve) = _
  rw [std]
  decide +kernel

theorem test_pdbl (std : Config.curve = Curve.standard) : (run (.pcmp 0 3) (run (.pdbl 3 1) (points 0))).b 0 =
    0x2260cdf3092329c21da25ee8c9a21f5697390f51643851560e5f46ae6af8a3c9#256 := by
  show compress (pointDouble (pointBase Config.curve)) = _
  rw [std]
  decide +kernel

theorem test_psmul_five (std : Config.curve = Curve.standard) : (run (.pcmp 0 3) (run (.psmul 3 1 1) (points 5))).b 0 =
    0xdf4825b298feae6fe02c6e148992466631282eca89430b5d10d21f83d676c8ed#256 := by
  show compress (pointMul Config.curve (fqOf 5).val (pointBase Config.curve)) = _
  rw [std]
  decide +kernel

theorem test_psmulg_minus_one (std : Config.curve = Curve.standard) : (run (.pcmp 0 3) (run (.psmulg 3 1) (points (Config.q - 1)))).b 0 =
    0xe666666666666666666666666666666666666666666666666666666666666658#256 := by
  show compress (pointMul Config.curve (fqOf (Config.q - 1)).val (pointBase Config.curve)) = _
  rw [std]
  decide +kernel

theorem test_peq (std : Config.curve = Curve.standard) :
    (run (.peq 0 1) (points 0)).eqFlag = false ∧ (run (.peq 1 1) (points 0)).eqFlag = true := by
  show pointEqual pointNeutral (pointBase Config.curve) = false ∧
    pointEqual (pointBase Config.curve) (pointBase Config.curve) = true
  rw [std]
  decide +kernel

theorem test_pcmp_base (std : Config.curve = Curve.standard) : (run (.pcmp 0 1) (points 0)).b 0 =
    0x6666666666666666666666666666666666666666666666666666666666666658#256 := by
  show compress (pointBase Config.curve) = _
  rw [std]
  decide +kernel

/-- `y = 3`: the second candidate of R117. -/
theorem test_pdec_three : decompress Curve.standard (enc32 3) = some ⟨fpOf 0x68febfd42613608ef448af58b1ef28311c0d964bdd30bc07fef6e61f01ae05e2,
    fpOf 3, fpOf 1, fpMul (fpOf 0x68febfd42613608ef448af58b1ef28311c0d964bdd30bc07fef6e61f01ae05e2) (fpOf 3)⟩ := by
  decide +kernel

/-- `y = p`, `y = 2`, and `y = 1` with an odd sign: `InvalidPoint`. -/
theorem test_pdec_fails (std : Config.curve = Curve.standard) :
    rcErrs (run (.pdec 0 1) (withB State.reset 1 Config.p)) = (0x2, 0x4) ∧
    rcErrs (run (.pdec 0 1) (withB State.reset 1 2)) = (0x2, 0x4) ∧
    rcErrs (run (.pdec 0 1) (withB State.reset 1 (2 ^ 255 + 1))) = (0x2, 0x4) := by
  simp only [run, exec, execPdec, pointOperand, std]
  decide +kernel

theorem test_pldc : (run (.pldc 0 1) State.reset).pregs.get 0 = .holds (pointBase Config.curve) ∧
    (run (.pldc 0 0) State.reset).pregs.get 0 = .holds pointNeutral := ⟨rfl, rfl⟩

/-- `ra` is tested before `rb`. -/
theorem test_psmul_invalid : rcErrs (run (.psmul 0 0 1) State.reset) = (0x206, 0x40) ∧
    rcErrs (run (.padd 0 1 2) State.reset) = (0x306, 0x40) := by decide

/-! ### Key and signature commands (95_test_vectors.md section 6) -/

theorem test_kexpand_length : rcErrs (run (.kexpand 0) { State.reset with klen := 31 }) = (0x101, 0x2) ∧
    statusWord (run (.kexpand 0) State.reset) = 0x100#32 := by decide

theorem test_kderive (std : Config.curve = Curve.standard) : (run (.kderive 1) keyed).b 1 =
    0x1a5107f7681a02af2523a6daf372e10e3a0764c9d3fe4bd5b70ab18201985ad7#256 := by
  simp only [run, exec, execKderive, std]
  decide +kernel

theorem test_kderive_no_key : rcErrs (run (.kderive 1) State.reset) = (0x406, 0x40) ∧
    (run (.kderive 1) keyed).kp.valid = true := by decide +kernel

/-- Length before message length. -/
theorem test_sign_errors (size : Config.msgMax = Config.msgMaxDefault) :
    rcErrs (run (.sign 2 0) { State.reset with klen := 31, mlen := 5000 }) = (0x101, 0x2) ∧
    rcErrs (run (.sign 2 0) { State.reset with mlen := 4097 }) = (0x8, 0x100) := by
  simp only [run, exec, execSign, message, size]
  decide

/-- A key that does not decode gives `VALID = 0` and no error. -/
theorem test_verify_undecodable (std : Config.curve = Curve.standard) :
    (run (.verify 0 2) (withB { State.reset with validFlag := true } 0 2)).validFlag = false ∧
    rcErrs (run (.verify 0 2) (withB State.reset 0 2)) = (0, 0) := by
  simp only [run, exec, execVerify, accepts, std]
  decide +kernel

theorem test_verify_errors : rcErrs (run (.verify 0 2) { State.reset with klen := 31, slen := 63 }) = (0x201, 0x2) ∧
    rcErrs (run (.verify 0 2) { State.reset with slen := 63 }) = (0x301, 0x2) := by decide

/-! ### Blind-signature commands (95_test_vectors.md section 7) -/

theorem test_bcommit (std : Config.curve = Curve.standard) : (run (.bcommit 2) { State.reset with entropy := [.value drawK] }).b 2 =
    0x51663b67c4e7c5bfe43a8af8e0c2d294e3a4325e4d1ae8ea15f63e22c05c7389#256 := by
  have h : exec (.bcommit 2) { State.reset with entropy := [.value drawK] } = _ := bcommit_completes rfl rfl
  have e : compress (pointMul Curve.standard drawK.val (pointBase Curve.standard)) =
      0x51663b67c4e7c5bfe43a8af8e0c2d294e3a4325e4d1ae8ea15f63e22c05c7389#256 := by decide +kernel
  rw [run, h, after, complete_b, b_setB_same, std, e]

theorem test_bcommit_fail : rcErrs (run (.bcommit 2) { State.reset with entropy := [.fail] }) = (0x3, 0x8) ∧
    (run (.bcommit 2) { State.reset with entropy := [.fail] }).issuer = .idle := by decide

/-- The bytes of `G` decode and those of `y = 2` do not: the first point that does not is named. -/
theorem test_bblind_points (std : Config.curve = Curve.standard) (s : State)
    (hs : s = withB (withB State.reset 1 gBytes) 2 2) :
    exec (.bblind 3 2 1) s = .next (abort (.invalidPoint .ra) s) ∧
    exec (.bblind 3 1 2) s = .next (abort (.invalidPoint .rb) s) := by
  obtain ⟨G, hG⟩ : ∃ G, decompress Curve.standard (s.b 1) = some G :=
    Option.isSome_iff_exists.1 (by rw [hs]; decide +kernel)
  have h2 : decompress Curve.standard (s.b 2) = none := by rw [hs]; decide +kernel
  have hm : message s = .ok [] := by rw [hs]; exact if_pos (Nat.zero_le _)
  have hu : needUserIdle s = .ok () := by rw [hs]; rfl
  simp only [exec, execBblind, blindOperands, pointOperand, std, hu, hm, hG, h2]
  exact ⟨rfl, rfl⟩

theorem test_bblind_codes (s : State) : (abort (.invalidPoint .ra) s).rcCode = 2 ∧
    (abort (.invalidPoint .ra) s).rcInfo = 1 ∧ (abort (.invalidPoint .rb) s).rcInfo = 2 := ⟨rfl, rfl, rfl⟩

/-- `a` drawn, then a failure: code 3, the draw consumed. -/
theorem test_bblind_fail :
    rcErrs (run (.bblind 3 1 1) (withB { State.reset with entropy := [.value drawA, .fail, .value drawK] } 1 1)) = (0x3, 0x8) ∧
    (run (.bblind 3 1 1) (withB { State.reset with entropy := [.value drawA, .fail, .value drawK] } 1 1)).entropy =
      [.value drawK] := by
  generalize hs : withB { State.reset with entropy := [.value drawA, .fail, .value drawK] } 1 1 = s
  have d : decompress Config.curve (s.b 1) = some pointNeutral := hs ▸ decompress_neutral curve_nonSquare
  have ok : blindOperands 1 1 s = .ok ([], pointNeutral, pointNeutral) := by
    simp only [blindOperands, pointOperand, d]
    rw [← hs]; rfl
  rw [run, show exec (.bblind 3 1 1) s = execBblind 3 1 1 s from rfl, execBblind, ok, ← hs]
  decide

/-- `s = k + e·x mod q`. -/
theorem test_bsign : (run (.bsign 4 3) (withB { keyed with issuer := .commit drawK (pointBase Config.curve) } 3
      0x0e92418b3099445e03aa7eeda92cb8e1df95df2f687895479979317e98ae4851)).b 4 =
    0x0bfda69afbed5774a560dc503715bb04365569548f83e3c5ed28948f00d72c8d#256 := by decide +kernel

theorem test_bsign_no_key : rcErrs (run (.bsign 4 3) { State.reset with issuer := .commit drawK (pointBase Config.curve) }) = (0x406, 0x40) ∧
    rcErrs (run (.bsign 4 3) State.reset) = (0x107, 0x80) := by decide

/-- `s' = s + a mod q` in the odd member, `compress(R')` in the even one. -/
theorem test_bunblind (std : Config.curve = Curve.standard) :
    (run (.bunblind 6 4) (withB { State.reset with user := .blinded drawA (pointBase Config.curve) } 4
      0x0bfda69afbed5774a560dc503715bb04365569548f83e3c5ed28948f00d72c8d)).b 7 =
      0x0beb724483529a95b54ea7f9be7afe2531643b1f73f18a10a503fd1e2b469bc1#256 ∧
    (run (.bunblind 6 4) { State.reset with user := .blinded drawA (pointBase Config.curve) }).b 6 =
      0x6666666666666666666666666666666666666666666666666666666666666658#256 := by
  refine ⟨by decide +kernel, ?_⟩
  show compress (pointBase Config.curve) = _
  rw [std]
  decide +kernel

theorem test_bunblind_idle : rcErrs (run (.bunblind 6 4) State.reset) = (0x207, 0x80) := by decide

/-- Both contexts over, the issuer's and the user's point `Q`. -/
def bothDone (Q : Point) : State := { State.reset with issuer := .signed Q, user := .done Q }

theorem test_bdiscard (Q : Point) : (run (.bdiscard 1) (bothDone Q)).issuer = .idle ∧
    (run (.bdiscard 1) (bothDone Q)).user = .done Q ∧ (run (.bdiscard 2) (bothDone Q)).user = .idle :=
  ⟨rfl, rfl, rfl⟩

/-! ### The bus (95_test_vectors.md section 9) -/

theorem test_bus_arglen : arglenWord (busWrite .word 0x0018 0xffff1f3f State.reset) = 0x00001f3f#32 := by decide

/-- Little-endian words of a byte register (R47). -/
theorem test_bus_little_endian (size : Config.msgMax = Config.msgMaxDefault) :
    (busWrite .word 0x0100 0x04030201 State.reset).b 0 = 0x04030201#256 ∧
    (busWrite .word 0x0104 0x04030201 State.reset).b 0 = 0x0403020100000000#256 ∧
    (busWrite .word 0x1ffc 0x04030201 State.reset).msg = [(0x1ffc, 1), (0x1ffd, 2), (0x1ffe, 3), (0x1fff, 4)] := by
  simp only [busWrite, locate, size]
  decide

theorem test_bus_errors (size : Config.msgMax = Config.msgMaxDefault) :
    [0x0004, 0x001c, 0x003c, 0x0080, 0x00fc, 0x0200, 0x0ffc, 0x2000, 0xfffc, 0x0102].all
    (fun o => (busRead .word (BitVec.ofNat 16 o) State.reset).answer = .error) = true := by
  simp only [busRead, locate, size]
  decide

theorem test_bus_edges (size : Config.msgMax = Config.msgMaxDefault) :
    [0x0000, 0x0008, 0x0018, 0x0040, 0x007c, 0x0100, 0x01fc, 0x1000, 0x1ffc].all
    (fun o => decide ((busRead .word (BitVec.ofNat 16 o) State.reset).answer ≠ .error)) = true := by
  simp only [busRead, locate, size]
  decide

theorem test_bus_busy : statusWord (busWrite .word 0x0004 0x24000000 State.reset) = 1#32 ∧
    (busRead .word 0x000c (busWrite .word 0x0004 0x24000000 State.reset)).answer = .error ∧
    errsWord (busRead .word 0x000c (busWrite .word 0x0004 0x24000000 State.reset)) = 0x00010000#32 := by decide

theorem test_errs_write_one_clears : errsWord (busWrite .word 0x0010 0x30 { State.reset with errs := 0x70 }) = 0x40#32 := by
  decide

/-- `IllegalCommand` with detail 3 (95_test_vectors.md section 8, program 4). -/
theorem test_illegal_word : rcErrs (after (step (State.reset.withFetchWord 32 0x10800000)) State.reset) = (0x305, 0x20) := by
  decide

/-- A placed command is the next step's. -/
theorem test_placed_command : (after (step (State.reset.withFetchWord 32 0x18100003)) State.reset).fregs.get 1 =
    .holds Config.sqrtM1 := by decide

/-! ### Assembler lines and pseudo-instructions (30_encoding.md R73, R74) -/

theorem test_asm : Instr.asm (.fadd 2 0 1) = "FADD F2, F0, F1" ∧ Instr.asm (.psmul 3 0 0) = "PSMUL P3, S0, P0" ∧
    Instr.asm (.fldc 6 2) = "FLDC F6, 2" ∧ Instr.asm (.verify 1 6) = "VERIFY B1, B6" ∧
    Instr.asm (.bblind 3 2 1) = "BBLIND B3, B2, B1" ∧ Instr.asm (.bdiscard 3) = "BDISCARD 3" := by decide +kernel

theorem test_pseudo : (Pseudo.expand (.fmov 1 2)).map encode = [0x17720000#32, 0x16170000#32] ∧
    (Pseudo.expand .babandon).map encode = [0x54000003#32] := by decide

/-! ### Witnesses: for each statement with hypotheses, states and operands that meet them together -/

/-- A state with a command in flight, a message byte and an error bit. -/
def inFlight (w : Word) : State := { State.reset with inflight := some w, msg := [(0x1000, 1)], errs := 0x10 }

theorem run_next (i : Instr) (s : State) : exec i s = .next (run i s) := by
  obtain ⟨t, h⟩ := exec_total i s
  rw [run, h]
  rfl

/-- `DecodeEncodeRoundTrip`: well-formed terms at the edges of their operands. -/
theorem witness_round_trip : Instr.wf (.fldc 7 3) = true ∧ decode (encode (.fldc 7 3)) = .ok (.fldc 7 3) ∧
    Instr.wf (.bunblind 6 7) = true ∧ decode (encode (.bunblind 6 7)) = .ok (.bunblind 6 7) := by decide

/-- `EveryWordIsOneCommandOrIllegal`, `IllegalWordsAbort`: a word for each outcome, at the edges of the ranges. -/
theorem witness_words : firstFailure 0x54000003#32 = none ∧ firstFailure 0x18f00003#32 = some .badRegister ∧
    firstFailure 0x55000000#32 = some .unknownOp ∧ firstFailure 0x02000fff#32 = some .unusedField ∧
    firstFailure 0x54000004#32 = some .badImm ∧ (inFlight 0x54000004).inflight = some 0x54000004#32 ∧
    (inFlight 0x54000003).inflight = some 0x54000003#32 := by decide

/-- `StepRunsTheCommand`: both clauses. -/
theorem witness_step : (inFlight 0x18100003).inflight = some 0x18100003#32 ∧
    decode 0x18100003#32 = .ok (.fldc 1 3) ∧ (inFlight 0x18100003).events = [] ∧
    ({ inFlight 0x18100003 with events := [.coreRuns, .reset] } : State).events = .coreRuns :: [.reset] := by decide

/-- `AbortWritesOnlyTheResult`, `ReportedCodes`, `OnlyDrawingCommandsWait`, `WaitingKeepsTheDraws`: a command that
completes, one that aborts, one that waits without a draw and one that waits with one. -/
theorem witness_three_ways :
    (exec (.fldc 1 3) (inFlight 0x18100003) = .next (run (.fldc 1 3) (inFlight 0x18100003)) ∧
      (run (.fldc 1 3) (inFlight 0x18100003)).inflight = none) ∧
    (exec (.finv 1 1) (inFlight 0x14110000) = .next (run (.finv 1 1) (inFlight 0x14110000)) ∧
      (run (.finv 1 1) (inFlight 0x14110000)).rcCode = 6) ∧
    (exec (.rnds 1) (inFlight 0x24100000) = .next (run (.rnds 1) (inFlight 0x24100000)) ∧
      (run (.rnds 1) (inFlight 0x24100000)).inflight ≠ none) :=
  ⟨⟨rfl, by decide⟩, ⟨rfl, by decide⟩, ⟨rfl, by decide⟩⟩

/-- A `BBLIND` in flight, both points the neutral element. -/
def blinding : State :=
  withB { inFlight 0x51111000 with entropy := [.value drawA], mlen := 1 } 1 1

/-- `OnlyDrawingCommandsWait`, `WaitingKeepsTheDraws`: a `BBLIND` that waits with its first draw. -/
theorem witness_bblind_waits : blinding.inflight ≠ none ∧
    exec (.bblind 1 1 1) blinding = .next { blinding with entropy := [], blindA := some drawA } ∧
    ({ blinding with entropy := [], blindA := some drawA } : State).inflight ≠ none := by
  refine ⟨by decide, ?_, by decide⟩
  have h : decompress Config.curve (blinding.b 1) = some pointNeutral := decompress_neutral curve_nonSquare
  have hu : blindOperands 1 1 blinding = .ok ([1], pointNeutral, pointNeutral) := by
    simp only [blindOperands, pointOperand, h]; rfl
  show execBblind 1 1 1 blinding = _
  unfold execBblind
  rw [hu]
  rfl

/-- `EveryStepKeepsInvariant`: a state that meets the invariant, with a message byte, an error bit and a key, and steps. -/
theorem witness_invariant : State.Inv { inFlight 0x18100003 with key := .holds ⟨kxValue, 0⟩ } ∧
    step { inFlight 0x18100003 with key := .holds ⟨kxValue, 0⟩ } =
      .next (run (.fldc 1 3) { inFlight 0x18100003 with key := .holds ⟨kxValue, 0⟩ }) := by
  refine ⟨⟨by decide, ?_, by decide, by decide, ?_, ?_, ?_, ?_⟩, rfl⟩
  · intro c hc
    rw [List.mem_singleton.1 hc]
    exact ⟨Nat.le_refl _, Nat.lt_add_of_pos_right (Nat.lt_of_lt_of_le (by decide) Config.msgMax_range.1)⟩
  · intro k h; rw [← Reg.holds.inj h]; decide
  · intro Q h; cases h
  · intro k R h; cases h
  · intro v h; cases h

/-- `EveryStepKeepsPointsLive`: a state with two live points, that steps. -/
theorem witness_points_live : (points 5).PointsLive ∧ step { points 5 with inflight := some 0x30210000#32 } =
    .next (run (.padd 2 1 0) { points 5 with inflight := some 0x30210000#32 }) := by
  have h : ((State.reset.setP 0 pointNeutral).setP 1 (pointBase Config.curve)).PointsLive :=
    pointsLive_setP (pointsLive_setP ⟨fun i => by rw [show State.reset.pregs.get i = .invalid by revert i; decide]; trivial,
      trivial, trivial, trivial⟩ pointNeutral_live.1) (pointBase_live curve_baseOk).1
  exact ⟨⟨h.pregs, h.kp, h.issuer, h.user⟩, rfl⟩

/-- `ResetInput`: the reset input in the middle of a command. -/
theorem witness_reset_input : ({ inFlight 0x24100000 with events := [.reset, .coreRuns] } : State).events =
    .reset :: [.coreRuns] := rfl

/-- `CommandStart`, `BusyAccesses`, `RefusedAccesses`, `AccessSideEffects`, `ErrsRegister`, `ControlRegisters`: an idle
and a busy core, and an access of each kind that is refused; what stands at the edges of the ranges is
`test_bus_errors` and `test_bus_edges`. -/
theorem witness_bus : State.reset.inflight = none ∧ (inFlight 0).inflight ≠ none ∧ Width.half ≠ .word ∧
    (0x0102#16).toNat % 4 ≠ 0 ∧ (0x001c ≤ (0x001c#16).toNat ∧ (0x003c#16).toNat ≤ 0x003f) ∧
    (0x0080 ≤ (0x0080#16).toNat ∧ (0x00fc#16).toNat ≤ 0x00ff) ∧ (0x0200 ≤ (0x0200#16).toNat ∧ (0x0ffc#16).toNat ≤ 0x0fff) ∧
    (Config.msgMax = Config.msgMaxDefault → 0x1000 + Config.msgMax ≤ (0x2000#16).toNat) := by
  refine ⟨by decide, by decide, by decide, by decide, by decide, by decide, by decide, fun h => ?_⟩
  rw [h]; decide

/-- `ByteRegisterWindow`, `MessageWindow`: the first and the last word of each range. -/
theorem witness_windows : (0x0100#16).toNat = 0x0100 + 32 * (0 : RegNum).val + 4 * (0 : Fin 8).val ∧
    (0x01fc#16).toNat = 0x0100 + 32 * (7 : RegNum).val + 4 * (7 : Fin 8).val ∧
    (0x0040#16).toNat = 0x0040 + 4 * (0 : Fin 16).val ∧ (0x007c#16).toNat = 0x0040 + 4 * (15 : Fin 16).val ∧
    Memory.wf (inFlight 0).msg = true ∧ (0x1000#16).toNat % 4 = 0 ∧ (0x1000#16).toNat + 3 < 0x1000 + Config.msgMax ∧
    ∃ off : Offset, off.toNat % 4 = 0 ∧ off.toNat + 4 = 0x1000 + Config.msgMax := by
  obtain ⟨h1, h2, h3⟩ := Config.msgMax_range
  refine ⟨by decide, by decide, by decide, by decide, by decide, by decide, ?_, BitVec.ofNat 16 (0x1000 + Config.msgMax - 4), ?_⟩
  · rw [show (0x1000#16).toNat = 0x1000 by decide]; omega
  · rw [BitVec.toNat_ofNat]; omega

/-- `ContextWriters`: a command for each of the five, that does write it. -/
theorem witness_context_writers : (run (.peq 1 1) (points 0)).eqFlag ≠ (points 0).eqFlag ∧
    (run (.verify 0 2) (withB { State.reset with validFlag := true } 0 Config.p)).validFlag ≠ true ∧
    (run (.kexpand 0) State.reset).key.valid ≠ State.reset.key.valid ∧
    (run (.kderive 1) keyed).kp.valid ≠ keyed.kp.valid ∧
    (Instr.hashb 0 ≠ .zeroize ∧ exec (.hashb 0) State.reset = .next (run (.hashb 0) State.reset)) := by
  refine ⟨?_, by decide +kernel, by decide, by decide, by decide, rfl⟩
  show pointEqual (pointBase Config.curve) (pointBase Config.curve) ≠ false
  simp [pointEqual]

/-- `SessionMachine`: a state for each clause. -/
theorem witness_sessions : (IssuerSession.commit drawK (pointBase Config.curve)).number ≠ 0 ∧ IssuerSession.idle.number ≠ 1 ∧
    (UserSession.done (pointBase Config.curve)).number ≠ 0 ∧ UserSession.idle.number ≠ 1 ∧ pairOk 6 = true ∧
    exec (.bdiscard 3) State.reset = .next (run (.bdiscard 3) State.reset) ∧ Instr.bdiscard 3 ≠ .zeroize :=
  ⟨by decide, by decide, by decide, by decide, by decide, rfl, by decide⟩

/-- `SecretsHaveNoReadPath`: two states the host sees alike, with different secrets, and a command that runs in both. -/
theorem witness_secrets : sameHostView keyed (withSecrets keyed ⟨0, 1⟩ drawK drawA) ∧
    keyed ≠ withSecrets keyed ⟨0, 1⟩ drawK drawA ∧ (∀ d, Instr.kexpand 0 ≠ .kderive d) ∧
    (∀ d a, Instr.kexpand 0 ≠ .bsign d a) ∧ (∀ d a, Instr.kexpand 0 ≠ .bunblind d a) ∧
    exec (.kexpand 0) keyed = .next (run (.kexpand 0) keyed) ∧
    exec (.kexpand 0) (withSecrets keyed ⟨0, 1⟩ drawK drawA) =
      .next (run (.kexpand 0) (withSecrets keyed ⟨0, 1⟩ drawK drawA)) := by
  refine ⟨⟨rfl, rfl, rfl, rfl, rfl, rfl, rfl, rfl⟩, ?_, nofun, nofun, nofun, rfl, rfl⟩
  intro h
  have e : Reg.holds (⟨kxValue, 0⟩ : KeyPair) = .holds ⟨0, 1⟩ := congrArg State.key h
  exact absurd (congrArg KeyPair.kpfx (Reg.holds.inj e)) (by decide)

/-- Twice the quadruple of the neutral element. -/
def neutralTwice : Point := ⟨fpOf 0, fpOf 2, fpOf 2, fpOf 0⟩

/-- `RepresentativesUnobservable`: two different states that hold the same points, and step. -/
theorem witness_representatives :
    sameButPoints (State.reset.setP 0 pointNeutral) (State.reset.setP 0 neutralTwice) ∧
    State.reset.setP 0 pointNeutral ≠ State.reset.setP 0 neutralTwice ∧
    step (State.reset.setP 0 pointNeutral) = .next (State.reset.setP 0 pointNeutral) := by
  refine ⟨⟨?_, .invalid, .idle, .idle, rfl⟩, by decide +kernel, rfl⟩
  have e : neutralTwice.affine = pointNeutral.affine := by decide +kernel
  have h : samePoint pointNeutral neutralTwice :=
    ⟨pointNeutral_live.1, ⟨by decide, by decide +kernel, by rw [e]; exact pointNeutral_live.1.2.2⟩, e.symm⟩
  have hi : ∀ i : RegNum, ((State.reset.setP 0 pointNeutral).pregs.get i = .invalid ∧
        (State.reset.setP 0 neutralTwice).pregs.get i = .invalid) ∨
      ((State.reset.setP 0 pointNeutral).pregs.get i = .holds pointNeutral ∧
        (State.reset.setP 0 neutralTwice).pregs.get i = .holds neutralTwice) := by decide
  intro i
  rcases hi i with ⟨a, b⟩ | ⟨a, b⟩ <;> rw [a, b]
  · exact .invalid
  · exact .holds h

/-- `NopHashResults`, `SignResult`, `VerifyResult`, `BlindErrors`: message lengths on both sides of the limit, and the
declared lengths right and wrong. -/
theorem witness_lengths : ({ State.reset with mlen := 4 } : State).mlen.toNat ≤ Config.msgMax ∧
    Config.msgMax < ({ State.reset with mlen := 61441 } : State).mlen.toNat ∧
    State.reset.klen = 32 ∧ State.reset.slen = 64 ∧ ({ State.reset with klen := 31 } : State).klen ≠ 32 ∧
    ({ State.reset with slen := 63 } : State).slen ≠ 64 ∧ (6 : RegNum).val % 2 = 0 ∧
    (0x00000001#32).toNat / 2 ^ 24 = 0 ∧ 0x00000001#32 ≠ 0#32 ∧ State.reset.user.number ≠ 1 :=
  ⟨Config.msgMax_range.1, Nat.lt_succ_of_le Config.msgMax_range.2.1, by decide⟩

/-- `FieldAddSubMul`, `FieldNegSqrt`, `FieldInvert`, `FieldMoves`: valid registers with the largest value and with 0, an
invalid one, a number with a square root and one without. -/
theorem witness_field : (twoF (Config.p - 1) 0).fregs.get 1 = .holds (fpOf (Config.p - 1)) ∧
    (twoF (Config.p - 1) 0).fregs.get 2 = .holds (fpOf 0) ∧ (fpOf (Config.p - 1)).val ≠ 0 ∧ (fpOf 0).val = 0 ∧
    (twoF 0 0).fregs.get 0 = .invalid ∧ (fpOf 2).val * (fpOf 2).val % Config.p = (fpOf 4).val ∧
    (3 : Imm).toNat ≤ 3 ∧ (0 : Imm).toNat ≤ 3 ∧ ∀ y : Fp, y.val * y.val % Config.p ≠ (fpOf 2).val :=
  ⟨by decide, by decide, by decide, by decide, by decide, by decide, by decide, by decide,
    fun y h => not_square_of_euler (by decide) (by decide +kernel) y (Fin.ext h)⟩

/-- `ScalarAddSubMul`, `ScalarMoves`, `RandomScalar`: valid and invalid registers, and the three answers of the port. -/
theorem witness_scalar : (twoS (Config.q - 1) 0).sregs.get 1 = .holds (fqOf (Config.q - 1)) ∧
    (twoS (Config.q - 1) 0).sregs.get 2 = .holds (fqOf 0) ∧ (twoS 0 0).sregs.get 0 = .invalid ∧
    ({ State.reset with entropy := [.value drawK] } : State).entropy = .value drawK :: [] ∧
    ({ State.reset with entropy := [.fail] } : State).entropy = .fail :: [] ∧ State.reset.entropy = [] := by decide

/-- `PointAddDouble`, `PointMultiply`, `PointEqualCompress`, `PointRoundTrip`: two live points of different classes, valid
and invalid registers. -/
theorem witness_points : (points 5).pregs.get 0 = .holds pointNeutral ∧ (points 5).pregs.get 1 = .holds (pointBase Config.curve) ∧
    pointNeutral.live Config.curve ∧ (pointBase Config.curve).live Config.curve ∧
    pointNeutral.affine ≠ (pointBase Config.curve).affine ∧
    (points 5).sregs.get 1 = .holds (fqOf 5) ∧ (points 5).sregs.get 0 = .invalid ∧ (points 5).pregs.get 2 = .invalid ∧
    exec (.pdec 0 1) (withB State.reset 1 1) = .next (run (.pdec 0 1) (withB State.reset 1 1)) ∧
    (run (.pdec 0 1) (withB State.reset 1 1)).rcCode = 0 := by
  refine ⟨rfl, rfl, pointNeutral_live.1, (pointBase_live curve_baseOk).1, ?_, by decide, by decide, rfl, run_next _ _, ?_⟩
  · rw [(pointNeutral_live (C := Config.curve)).2, (pointBase_live curve_baseOk).2]
    intro h
    exact curve_baseOk.2.2 ⟨1, by decide⟩ (by decide) (by rw [affineTimes_one, h])
  · have d : decompress Config.curve ((withB State.reset 1 1).b 1) = some pointNeutral :=
      decompress_neutral curve_nonSquare
    simp only [run, exec, execPdec, pointOperand, d]
    rfl

/-- `PointDecompress`: bytes that hold a point, and bytes whose `y` is not below `p`. -/
theorem witness_decompress : onCurve Config.curve (fpOf 0, fpOf 1) ∧ ((withB State.reset 1 1).b 1).toNat % 2 ^ 255 = (fpOf 1).val ∧
    ((withB State.reset 1 1).b 1).toNat / 2 ^ 255 = (fpOf 0).val % 2 ∧
    (∀ x y : Fp, onCurve Config.curve (x, y) → ((withB State.reset 1 Config.p).b 1).toNat % 2 ^ 255 = y.val →
      ((withB State.reset 1 Config.p).b 1).toNat / 2 ^ 255 ≠ x.val % 2) := by
  refine ⟨neutral_on, by decide, by decide, ?_⟩
  intro x y _ h
  have e : ((withB State.reset 1 Config.p).b 1).toNat % 2 ^ 255 = Config.p := by decide
  have l := y.isLt
  rw [← h, e] at l
  exact absurd l (Nat.lt_irrefl _)

/-- `KeyExpandDerive`, `BlindSignResult`, `UnblindDiscard`, `CommitResult`: a key and none, and each context held. -/
theorem witness_contexts : keyed.key = .holds ⟨kxValue, 0⟩ ∧ State.reset.key = .invalid ∧
    ({ keyed with issuer := .commit drawK (pointBase Config.curve) } : State).issuer = .commit drawK (pointBase Config.curve) ∧
    ({ keyed with user := .blinded drawA (pointBase Config.curve) } : State).user = .blinded drawA (pointBase Config.curve) ∧
    State.reset.issuer = .idle ∧ State.reset.user = .idle := ⟨rfl, rfl, rfl, rfl, rfl, rfl⟩

/-- `SignatureAccepted`: a key is signed with and derived. -/
theorem witness_signature : (0 : RegNum).val % 2 = 0 ∧ (2 : RegNum) ≠ 0 ∧ (2 : RegNum) ≠ pairHigh 0 ∧
    State.reset.klen = 32 ∧ State.reset.slen = 64 ∧ State.reset.mlen.toNat ≤ Config.msgMax ∧
    exec (.sign 0 5) State.reset = .next (run (.sign 0 5) State.reset) ∧
    exec (.kderive 2) (run (.sign 0 5) State.reset) = .next (run (.kderive 2) (run (.sign 0 5) State.reset)) :=
  ⟨by decide, by decide, by decide, by decide, by decide, Nat.zero_le _, rfl, rfl⟩

/-- The neutral element as a key and as a commitment, 0 as the second half: accepted whatever the hash. -/
def neutralSigned : State := withB (withB State.reset 0 1) 2 1

/-- `ScalarHalfDecides`: an accepted signature, and the same with `q` as the second half. -/
theorem witness_scalar_half : (2 : RegNum).val % 2 = 0 ∧ (withB neutralSigned 3 Config.q).b 0 = neutralSigned.b 0 ∧
    (withB neutralSigned 3 Config.q).b 2 = neutralSigned.b 2 ∧
    (withB neutralSigned 3 Config.q).mlen = neutralSigned.mlen ∧ (withB neutralSigned 3 Config.q).msg = neutralSigned.msg ∧
    neutralSigned.klen = 32 ∧ neutralSigned.slen = 64 ∧ (withB neutralSigned 3 Config.q).klen = 32 ∧
    (withB neutralSigned 3 Config.q).slen = 64 ∧ neutralSigned.mlen.toNat ≤ Config.msgMax ∧
    exec (.verify 0 2) neutralSigned = .next (run (.verify 0 2) neutralSigned) ∧
    (run (.verify 0 2) neutralSigned).validFlag = true := by
  refine ⟨by decide, by decide, by decide, rfl, rfl, by decide, by decide, by decide, by decide, Nat.zero_le _, rfl, ?_⟩
  have h : exec (.verify 0 2) neutralSigned = _ := verify_completes (by decide) rfl rfl (Nat.zero_le _)
  rw [run, h]
  simp only [after, complete, State.setValid]
  rw [accepts_iff]
  have h0 : decompress Config.curve (neutralSigned.b 0) = some pointNeutral := decompress_neutral curve_nonSquare
  have h2 : decompress Config.curve (neutralSigned.b 2) = some pointNeutral := decompress_neutral curve_nonSquare
  have hs : neutralSigned.b (pairHigh 2) = 0 := by decide
  refine ⟨pointNeutral, pointNeutral, h0, h2, ?_⟩
  rw [(pointNeutral_live (C := Config.curve)).2, affineTimes_neutral, affineAdd_neutral_left, hs]
  rfl

/-- `BlindResult`: both points decode, and the port's answers of each clause. -/
theorem witness_blind : blinding.user = .idle ∧ blinding.mlen.toNat ≤ Config.msgMax ∧
    decompress Config.curve (blinding.b 1) = some pointNeutral ∧ blinding.blindA = none ∧
    ({ blinding with entropy := [.value drawA, .value drawK] } : State).entropy = .value drawA :: .value drawK :: [] ∧
    ({ blinding with entropy := [.fail] } : State).entropy = .fail :: [] ∧
    ({ blinding with entropy := [.value drawA, .fail] } : State).entropy = .value drawA :: .fail :: [] := by
  exact ⟨by decide, Nat.le_trans (by decide) Config.msgMax_range.1, decompress_neutral curve_nonSquare, by decide,
    by decide, by decide, by decide⟩

/-- `BlindErrors`: a held context, and operands that do not decode. -/
theorem witness_blind_errors : ({ blinding with user := .done (pointBase Config.curve) } : State).user ≠ .idle ∧
    decompress Config.curve ((withB blinding 1 Config.p).b 1) = none ∧
    decompress Config.curve ((withB blinding 2 Config.p).b 1) = some pointNeutral ∧
    decompress Config.curve ((withB blinding 2 Config.p).b 2) = none ∧
    Config.msgMax < ({ blinding with mlen := 61441 } : State).mlen.toNat := by
  have h : (61441#32).toNat = 61441 := rfl
  exact ⟨nofun, by decide +kernel, decompress_neutral curve_nonSquare, by decide +kernel,
    Nat.lt_succ_of_le Config.msgMax_range.2.1⟩

/-! `BlindProtocolAccepted`: the states of one protocol, with the secret 1 and the public key `G`. -/

def issuer0 : State := { inFlight 0x50000000 with entropy := [.value drawK] }

def issuer1 : State := run (.bcommit 0) issuer0

/-- The host of the user's core has written the commitment to `B0` and the public key to `B1`. -/
def user0 : State :=
  (({ inFlight 0x51201000 with entropy := [.value drawA, .value draw9] } : State).setB 0 (issuer1.b 0)).setB 1
    (compress (pointBase Config.curve))

def user1 : State := run (.bblind 2 0 1) user0

def issuer2 : State := ({ issuer1 with key := .holds ⟨1, 0⟩ } : State).setB 1 (user1.b 2)

def issuer3 : State := run (.bsign 2 1) issuer2

def user2 : State := user1.setB 3 (issuer3.b 2)

def user3 : State := run (.bunblind 4 3) user2

def verifier : State :=
  (((State.reset.setB 0 (user0.b 1)).setB 2 (user3.b 4)).setB 3 (user3.b 5))

theorem witness_blind_protocol :
    (issuer0.inflight ≠ none ∧ exec (.bcommit 0) issuer0 = .next issuer1 ∧ issuer1.inflight = none ∧ issuer1.rcCode = 0) ∧
    (user0.inflight ≠ none ∧ user0.b 0 = issuer1.b 0 ∧ user0.b 1 = 
      compressAffine (affineTimes Config.curve 1 Config.curve.base) ∧
      exec (.bblind 2 0 1) user0 = .next user1 ∧ user1.inflight = none ∧ user1.rcCode = 0) ∧
    (issuer2.issuer = issuer1.issuer ∧ issuer2.key = .holds ⟨1, 0⟩ ∧ issuer2.b 1 = user1.b 2 ∧
      exec (.bsign 2 1) issuer2 = .next issuer3 ∧ issuer3.rcCode = 0) ∧
    (user2.user = user1.user ∧ user2.b 3 = issuer3.b 2 ∧ (4 : RegNum).val % 2 = 0 ∧
      exec (.bunblind 4 3) user2 = .next user3 ∧ user3.rcCode = 0) ∧
    ((2 : RegNum).val % 2 = 0 ∧ verifier.b 0 = user0.b 1 ∧ verifier.b 2 = user3.b 4 ∧
      verifier.b (pairHigh 2) = user3.b (pairHigh 4)) := by
  have hi : issuer1 = complete ((State.setIssuer { issuer0 with entropy := [] } (.commit drawK
      (pointMul Config.curve drawK.val (pointBase Config.curve)))).setB 0
      (compress (pointMul Config.curve drawK.val (pointBase Config.curve)))) := rfl
  have b0 : user0.b 0 = issuer1.b 0 := (b_setB_other _ _ _ _ (by decide)).trans (b_setB_same _ _ _)
  have b1 : user0.b 1 = compress (pointBase Config.curve) := b_setB_same _ _ _
  have hR : ∃ R, decompress Config.curve (user0.b 0) = some R := by
    obtain ⟨R, h, -⟩ := decompress_compress curve_nonSquare (base_mul (draw_lt drawK)).1
    exact ⟨R, by rw [b0, hi]; exact h⟩
  have hP : ∃ P, decompress Config.curve (user0.b 1) = some P := by
    obtain ⟨P, h, -⟩ := decompress_compress curve_nonSquare (pointBase_live curve_baseOk).1
    exact ⟨P, by rw [b1, h]⟩
  obtain ⟨R, hR⟩ := hR
  obtain ⟨P, hP⟩ := hP
  have hu : ∃ e, user1 = complete ((State.setUser { user0 with entropy := [] } (.blinded drawA
      (blindedCommitment R P drawA draw9))).setB 2 e) := by
    have ok : blindOperands 0 1 user0 = .ok ([], R, P) := by
      simp only [blindOperands, pointOperand, hR, hP]; rfl
    have h : exec (.bblind 2 0 1) user0 = _ := bblind_completes (va := drawA) (vb := draw9) (rest := []) ok rfl rfl
    exact ⟨enc32 (fqAdd (hashToScalar (compress (blindedCommitment R P drawA draw9)) []) draw9.toFq).val, by
      rw [user1, run, h, after]⟩
  obtain ⟨e, hu⟩ := hu
  have hs : issuer3.rcCode = 0 := by
    have h : exec (.bsign 2 1) issuer2 = execBsign 2 1 issuer2 := rfl
    have hc : issuer2.issuer = .commit drawK (pointMul Config.curve drawK.val (pointBase Config.curve)) := rfl
    rw [issuer3, run, h, execBsign, needCommit, hc]
    rfl
  have ht : user3.rcCode = 0 := by
    have h : exec (.bunblind 4 3) user2 = execBunblind 4 3 user2 := rfl
    have hc : user2.user = .blinded drawA (blindedCommitment R P drawA draw9) := by
      rw [user2, hu]; rfl
    rw [user3, run, h, execBunblind, needBlinded, hc]
    rfl
  refine ⟨⟨by decide, run_next _ _, by rw [hi]; rfl, by rw [hi]; rfl⟩,
    ⟨by decide, b0, by rw [b1, affineTimes_one, compress, (pointBase_live curve_baseOk).2], run_next _ _, by rw [hu]; rfl, by rw [hu]; rfl⟩,
    ⟨rfl, rfl, b_setB_same _ _ _, run_next _ _, hs⟩,
    ⟨by rw [user2, State.setB_user], b_setB_same _ _ _, by decide, run_next _ _, ht⟩,
    ⟨by decide, ?_, ?_, b_setB_same _ _ _⟩⟩
  · exact (b_setB_other _ _ _ _ (by decide)).trans ((b_setB_other _ _ _ _ (by decide)).trans (b_setB_same _ _ _))
  · exact (b_setB_other _ _ _ _ (by decide)).trans (b_setB_same _ _ _)

/-- The frames: a command of each family that runs. -/
theorem witness_frames : Instr.family (.fadd 0 1 2) = .field ∧ Instr.family (.rnds 0) = .scalar ∧
    Instr.family (.peq 0 1) = .point ∧ Instr.family (.sign 0 1) = .keySign ∧ Instr.family (.bunblind 0 1) = .blind ∧
    Instr.family (.hashbm 0) = .system ∧ (3 : RegNum) ∉ writesF (.fadd 0 1 2) ∧ (3 : RegNum) ∉ writesS (.rnds 0) ∧
    (0 : RegNum) ∉ writesP (.peq 0 1) ∧ (2 : RegNum) ∉ writesB (.sign 0 1) ∧
    exec (.fadd 0 1 2) State.reset = .next (run (.fadd 0 1 2) State.reset) :=
  ⟨by decide, by decide, by decide, by decide, by decide, by decide, by decide, by decide, by decide, by decide,
    run_next _ _⟩

end Sys2Proof.Machine.Tests
end

