-- ==== Sys2Proof/Proofs/Status.lean ====
section
/-! The register `STATUS` as the host sees it (R32): its offset, a read of it with and without a command in flight, and its
value at reset. -/

namespace Sys2Proof.Machine

theorem locate_statusOffset : locate (0x0008 : Offset).toNat = .status := by decide

theorem statusWord_reset : statusWord State.reset = 0 := by decide

/-- `STATUS` is the one register whose read is answered with `BUSY` 0 and 1 alike (R32, R185). -/
theorem busRead_status (s : State) : busRead .word 0x0008 s = { s with answer := .okayData (statusWord s) } := by
  by_cases h : s.inflight = none
  · rw [busRead_word h (by decide), locate_statusOffset]
    rfl
  · rw [busRead, if_pos (busy_of h), if_pos ⟨by decide, locate_statusOffset⟩]

/-- `STATUS` is read-only (R32, R53). -/
theorem busWrite_status {s : State} (d : Word) (h : s.inflight = none) :
    busWrite .word 0x0008 d s = { s with answer := .error } :=
  busWrite_refused h (by decide) (by rw [locate_statusOffset]; rfl)

/-- Settles O20: the layout is `statusWord_fields`; the port reads the word in every state and refuses a write of it. -/
theorem statusRegister : Obligations.StatusRegister := by
  refine ⟨statusWord_reset, fun s d h => busWrite_status d h, fun s => ⟨?_, statusWord_fields s⟩⟩
  rw [busRead_status]

end Sys2Proof.Machine
end

