-- ==== Sys2Proof/Proofs/RefusedAccesses.lean ====
section
/-! The accesses the port refuses while `BUSY` is 0 (R49, R52, R53), and the reserved bits of the control registers
(R32 to R36, R53). -/

namespace Sys2Proof.Machine

/-! ### Refused accesses -/

/-- A read with `BUSY = 0` is answered `ERROR` unless the port accepts its form and the address map has a word for it. -/
theorem busRead_refused {s : State} {w : Width} {off : Offset} (h : s.inflight = none)
    (hr : acceptable w off = true → readLoc s (locate off.toNat) = none) :
    busRead w off s = { s with answer := .error } := by
  rw [busRead, not_busy h, if_neg (by decide)]
  split
  · rename_i ha
    rw [hr ha]
  · rfl

/-- A write with `BUSY = 0` is answered `ERROR` in the same way; `busWrite_refused` is its case of an accepted form. -/
theorem busWrite_refused_any {s : State} {w : Width} {off : Offset} {d : Word} (h : s.inflight = none)
    (hw : acceptable w off = true → writeLoc s d (locate off.toNat) = none) :
    busWrite w off d s = { s with answer := .error } := by
  rw [busWrite, not_busy h, if_neg (by decide)]
  split
  · rename_i ha
    rw [hw ha]
  · rfl

theorem acceptable_iff {w : Width} {off : Offset} : acceptable w off = true ↔ w = .word ∧ off.toNat % 4 = 0 := by
  simp [acceptable]

/-- The offsets of `ID`, `STATUS` and `RC` are aligned, and the address map lets none of them be written (R53). -/
theorem readOnly_offsets {off : Offset} (ho : off = 0x0000#16 ∨ off = 0x0008#16 ∨ off = 0x000c#16) (s : State)
    (d : Word) : off.toNat % 4 = 0 ∧ writeLoc s d (locate off.toNat) = none := by
  obtain rfl | rfl | rfl := ho <;> exact ⟨rfl, rfl⟩

/-! ### Reserved bits -/

/-- A word and a mask that share no bit. -/
theorem and_eq_zero_of_bits {x m : Word} (h : ∀ i < 32, m.getLsbD i = true → x.getLsbD i = false) : x &&& m = 0 := by
  refine BitVec.eq_of_getLsbD_eq fun i hi => ?_
  rw [BitVec.getLsbD_and, BitVec.ofNat_eq_ofNat, BitVec.getLsbD_zero]
  cases hm : m.getLsbD i
  · exact Bool.and_false _
  · rw [h i hi hm, Bool.false_and]

/-- Two bytes under sixteen zero bits, the form of `RC` and `ARGLEN`. -/
theorem highHalf_reserved (a b : Byte) : (0#16 ++ a ++ b : Word) &&& 0xffff0000#32 = 0 := by
  have mask : ∀ i < 32, (0xffff0000#32).getLsbD i = true → 16 ≤ i := by decide
  refine and_eq_zero_of_bits fun i hi hm => ?_
  have := mask i hi hm
  rw [BitVec.getLsbD_append, BitVec.getLsbD_append, if_neg (by omega), if_neg (by omega), BitVec.getLsbD_zero]

/-- Bits 3 and 31:10 of `STATUS` are 0 (R32). -/
theorem statusWord_reserved (s : State) : statusWord s &&& 0xfffffc08#32 = 0 := by
  obtain ⟨-, -, -, bit3, -, -, -, -, high⟩ := statusWord_fields s
  have mask : ∀ i < 32, (0xfffffc08#32).getLsbD i = true → i = 3 ∨ 10 ≤ i := by decide
  refine and_eq_zero_of_bits fun i hi hm => ?_
  obtain rfl | hge := mask i hi hm
  · exact bit3
  · have hbit := congrArg (fun v => v.getLsbD (i - 10)) high
    simpa [BitVec.getLsbD_extractLsb', show i - 10 < 22 by omega, show 10 + (i - 10) = i by omega] using hbit

theorem errsWord_reserved (s : State) : errsWord s &&& 0xfffefe01#32 = 0 := by
  rw [errsWord, BitVec.and_assoc, show errsLive &&& 0xfffefe01#32 = 0#32 by decide, BitVec.and_zero]
  rfl

/-- A write to `ERRS` clears no more of the live bits than its own live bits say (R34). -/
theorem errsWord_clearErrs_live (s : State) (d : Word) :
    errsWord (s.clearErrs (d &&& errsLive)) = errsWord (s.clearErrs d) := by
  refine BitVec.eq_of_getLsbD_eq fun i hi => ?_
  simp only [errsWord, State.clearErrs, BitVec.getLsbD_and, BitVec.getLsbD_not, hi, decide_true, Bool.true_and]
  cases errsLive.getLsbD i
  · rw [Bool.and_false, Bool.and_false]
  · simp only [Bool.and_true]

/-- Bits 31:16 of a word written to `ARGLEN` are ignored (R36). -/
theorem setArglen_lowHalf (s : State) (d : Word) : s.setArglen (d &&& 0x0000ffff#32) = s.setArglen d := by
  have klen : (0x0000ffff#32).extractLsb' 0 8 = BitVec.allOnes 8 := by decide
  have slen : (0x0000ffff#32).extractLsb' 8 8 = BitVec.allOnes 8 := by decide
  rw [State.setArglen, State.setArglen, BitVec.extractLsb'_and, BitVec.extractLsb'_and, klen, slen,
    BitVec.and_allOnes, BitVec.and_allOnes]

theorem busWrite_errs {s : State} (d : Word) (h : s.inflight = none) :
    busWrite .word 0x0010 d s = { s.clearErrs d with answer := .okay } :=
  busWrite_word h (by decide) rfl

theorem busWrite_arglen {s : State} (d : Word) (h : s.inflight = none) :
    busWrite .word 0x0018 d s = { s.setArglen d with answer := .okay } :=
  busWrite_word h (by decide) rfl

/-- Settles O16: an access in one of the listed ranges is either not of the form the port accepts or located at
`.reserved`; the other clauses are the address map at the named registers and the reserved bits above. -/
theorem refusedAccesses : Obligations.RefusedAccesses := by
  intro s h
  refine ⟨fun w off d hbad => ?_, fun off d ho => ?_, ?_, statusWord_reserved s, highHalf_reserved _ _,
    errsWord_reserved s, highHalf_reserved _ _, fun d => ⟨?_, ?_⟩⟩
  · have hloc (ha : acceptable w off = true) : locate off.toNat = .reserved := by
      obtain ⟨hword, haligned⟩ := acceptable_iff.mp ha
      exact locate_reserved ((hbad.resolve_left (· hword)).resolve_left (· haligned))
    exact ⟨busRead_refused h fun ha => by rw [hloc ha]; rfl, busWrite_refused_any h fun ha => by rw [hloc ha]; rfl⟩
  · obtain ⟨haligned, hnone⟩ := readOnly_offsets ho s d
    exact busWrite_refused h haligned hnone
  · exact busRead_refused h fun _ => rfl
  · rw [busWrite_errs _ h, busWrite_errs _ h]
    exact errsWord_clearErrs_live s d
  · rw [busWrite_arglen _ h, busWrite_arglen _ h, setArglen_lowHalf]

end Sys2Proof.Machine
end

