-- ==== Sys2Proof/Proofs/WordRoundTrip.lean ====
section
/-! The decoder read forwards: what each format makes of legal fields, and from it that the words of the well-formed
commands and the words the decoder accepts are the same (R65 to R69, R73, R76). -/

namespace Sys2Proof

/-- R73's formula puts each field where R65 reads it, no bit of it dropped. -/
theorem fieldsOf_word {op rd ra rb imm : Nat} (hop : op < 256) (hrd : rd < 16) (hra : ra < 16) (hrb : rb < 16)
    (himm : imm < 4096) : fieldsOf (word op rd ra rb imm) = ⟨op, rd, ra, rb, imm⟩ := by
  simp only [fieldsOf, wordField, word, BitVec.toNat_ofNat, Fields.mk.injEq]
  omega

theorem regField_val (r : RegNum) : regField r.val = .ok r := regField_ok.2 rfl

theorem pairField_val {r : RegNum} (h : pairOk r = true) : pairField r.val = .ok r := pairField_ok.2 ⟨rfl, h⟩

theorem ofNat_imm (c : Imm) : BitVec.ofNat 12 c.toNat = c := by
  rw [BitVec.ofNat_toNat, BitVec.setWidth_eq]

/-! ### What each format makes of legal fields (R66 to R68) -/

section Formats

variable (op : Nat)

theorem decR3_legal (mk : RegNum → RegNum → RegNum → Instr) (d a b : RegNum) :
    decR3 ⟨op, d.val, a.val, b.val, 0⟩ mk = .ok (mk d a b) := by
  simp only [decR3, regField_val]
  rfl

theorem decR2_legal (mk : RegNum → RegNum → Instr) (d a : RegNum) :
    decR2 ⟨op, d.val, a.val, 0, 0⟩ mk = .ok (mk d a) := by
  simp only [decR2, regField_val]
  rfl

theorem decR2p_legal (mk : RegNum → RegNum → Instr) {d : RegNum} (hd : pairOk d = true) (a : RegNum) :
    decR2p ⟨op, d.val, a.val, 0, 0⟩ mk = .ok (mk d a) := by
  simp only [decR2p, pairField_val hd, regField_val]
  rfl

theorem decR1_legal (mk : RegNum → Instr) (d : RegNum) : decR1 ⟨op, d.val, 0, 0, 0⟩ mk = .ok (mk d) := by
  simp only [decR1, regField_val]
  rfl

theorem decA1_legal (mk : RegNum → Instr) (a : RegNum) : decA1 ⟨op, 0, a.val, 0, 0⟩ mk = .ok (mk a) := by
  simp only [decA1, regField_val]
  rfl

theorem decA2_legal (mk : RegNum → RegNum → Instr) (a b : RegNum) :
    decA2 ⟨op, 0, a.val, b.val, 0⟩ mk = .ok (mk a b) := by
  simp only [decA2, regField_val]
  rfl

theorem decA2p_legal (mk : RegNum → RegNum → Instr) (a : RegNum) {b : RegNum} (hb : pairOk b = true) :
    decA2p ⟨op, 0, a.val, b.val, 0⟩ mk = .ok (mk a b) := by
  simp only [decA2p, pairField_val hb, regField_val]
  rfl

theorem decI_legal {top : Nat} (mk : RegNum → Imm → Instr) (d : RegNum) {c : Imm} (hc : c.toNat ≤ top) :
    decI ⟨op, d.val, 0, 0, c.toNat⟩ top mk = .ok (mk d c) := by
  simp only [decI, regField_val, if_pos hc, ofNat_imm]
  rfl

theorem decC_legal (mk : Imm → Instr) {m : Imm} (hm : 1 ≤ m.toNat ∧ m.toNat ≤ 3) :
    decC ⟨op, 0, 0, 0, m.toNat⟩ mk = .ok (mk m) := by
  simp only [decC, if_pos hm, ofNat_imm]
  rfl

end Formats

/-! ### Words and commands -/

/-- One case for each format: the opcode selects the format's decoder, which accepts the fields of a well-formed
command. -/
theorem decode_encode {i : Instr} (h : i.wf = true) : decode (encode i) = .ok i := by
  cases i
  all_goals simp (disch := omega) only [decode, encode, fieldsOf_word]
  case nop | zeroize => rfl
  case fadd d a b | fsub d a b | fmul d a b | sadd d a b | ssub d a b | smul d a b | padd d a b | psmul d a b
      | bblind d a b => exact decR3_legal _ _ d a b
  case fneg d a | finv d a | fsqrtc d a | fld d a | fst d a | sld d a | sst d a | pdbl d a | psmulg d a | pcmp d a
      | pdec d a | bsign d a => exact decR2_legal _ _ d a
  case sign d a | bunblind d a => exact decR2p_legal _ _ h a
  case h2s d | rnds d | kderive d | bcommit d => exact decR1_legal _ _ d
  case hashb a | hashbm a | kexpand a => exact decA1_legal _ _ a
  case peq a b => exact decA2_legal _ _ a b
  case verify a b => exact decA2p_legal _ _ a h
  case fldc d c | pldc d c => exact decI_legal _ _ d (of_decide_eq_true h)
  case bdiscard m => exact decC_legal _ _ (by simpa [Instr.wf, bdiscardImmOk] using h)

/-- The commands a word decodes to are the well-formed ones whose word it is. -/
theorem decode_eq_ok_iff {w : Word} {i : Instr} : decode w = .ok i ↔ i.wf = true ∧ encode i = w :=
  ⟨decode_ok, fun ⟨hwf, hw⟩ => hw ▸ decode_encode hwf⟩

/-- Settles O2: by `decode_eq_ok_iff`, a well-formed command with the word `w` is what `decode w` answers, so there is at
most one, and none when `decode` refuses `w`. -/
theorem everyWordIsOneCommandOrIllegal : Obligations.EveryWordIsOneCommandOrIllegal := by
  intro w
  have decodes {j : Instr} (hwf : j.wf = true) (hw : encode j = w) : decode w = .ok j := decode_eq_ok_iff.2 ⟨hwf, hw⟩
  cases hd : decode w with
  | ok i =>
    obtain ⟨hwf, hw⟩ := decode_ok hd
    exact .inl ⟨i, hwf, rfl, hw, fun j hj hjw => Except.ok.inj ((decodes hj hjw).symm.trans hd)⟩
  | error r =>
    exact .inr ⟨r, rfl, fun j hj hjw => nomatch (decodes hj hjw).symm.trans hd⟩

end Sys2Proof
end

