-- ==== Sys2Proof/Proofs/IllegalWords.lean ====
section
/-! What the core's move does with the word in flight, by the tests of R70 (R31, R168). -/

namespace Sys2Proof.Machine

theorem decode_eq_error_iff {w : Word} {r : Illegal} : decode w = .error r ↔ firstFailure w = some r := by
  rw [← rejection_decode]
  cases decode w <;> simp [rejection]

theorem firstFailure_eq_none_iff {w : Word} : firstFailure w = none ↔ ∃ i, decode w = .ok i := by
  rw [← rejection_decode]
  cases decode w <;> simp [rejection]

theorem runCore_illegal {s : State} {w : Word} {r : Illegal} (hw : s.inflight = some w) (hd : decode w = .error r) :
    runCore s = .next (abort (.illegalCommand r) s) := by
  simp only [runCore, hw, hd, finish]

theorem runCore_command {s : State} {w : Word} {i : Instr} (hw : s.inflight = some w) (hd : decode w = .ok i) :
    runCore s = exec i s := by
  simp only [runCore, hw, hd]

/-- `IllegalCommand` has code 5 and so bit 5 of `ERRS` (R34, R160). -/
theorem illegalCommand_errsBit (r : Illegal) : (CmdError.illegalCommand r).errsBit = 0x20#32 := rfl

/-- Settles O3: the decoder refuses a word exactly by the first test it fails (`decode_eq_error_iff`), and a word it
does not refuse is that of a well-formed command, which the core's move runs. -/
theorem illegalWordsAbort : Obligations.IllegalWordsAbort := by
  intro s w hw
  refine ⟨fun r hr => ?_, fun hlegal => ?_⟩
  · rw [runCore_illegal hw (decode_eq_error_iff.2 hr), abort, illegalCommand_errsBit]
    rfl
  · obtain ⟨i, hd⟩ := firstFailure_eq_none_iff.1 hlegal
    exact ⟨i, hd, (decode_ok hd).1, runCore_command hw hd⟩

end Sys2Proof.Machine
end

