-- ==== Sys2Proof/Proofs/FieldArithmetic.lean ====
section
/-! The field commands that apply one of the functions of Machine/Arith.lean: their words (R73), their two ends (R80), and
the residues they leave (R81 to R84, R86). -/

namespace Sys2Proof.Machine

/-! ### Words of the formats R3 and R2 (R66, R73) -/

/-- The sum of R73 is below `2^32`, so no part of it is dropped. -/
theorem word_r3_toNat {op : Nat} (hop : op < 256) (d a b : RegNum) :
    (word op d.val a.val b.val 0).toNat = op * 2 ^ 24 + d.val * 2 ^ 20 + a.val * 2 ^ 16 + b.val * 2 ^ 12 := by
  simp only [word, BitVec.toNat_ofNat]
  omega

theorem word_r2_toNat {op : Nat} (hop : op < 256) (d a : RegNum) :
    (word op d.val a.val 0 0).toNat = op * 2 ^ 24 + d.val * 2 ^ 20 + a.val * 2 ^ 16 := by
  simpa using word_r3_toNat hop d a 0

/-! ### The two ends of a field command (R80, R169) -/

section Ends

variable {s : State} {d a b : RegNum}

theorem complete_setF (v : Fp) :
    complete (s.setF d v) = { complete s with fregs := s.fregs.set d.val (.holds v) d.isLt } := rfl

theorem readF_holds {x : Fp} (hx : s.fregs.get a = .holds x) : readF s a = .ok x := readReg_ok.2 hx

theorem readF_invalid (ha : s.fregs.get a = .invalid) : readF s a = .error (.uninitRegister .fRegister) :=
  readReg_error.2 ⟨ha, rfl⟩

theorem fieldOp1_of_holds (op : Fp → Fp) {x : Fp} (hx : s.fregs.get a = .holds x) :
    fieldOp1 op d a s = .next { complete s with fregs := s.fregs.set d.val (.holds (op x)) d.isLt } := by
  rw [fieldOp1, readF_holds hx, except_ok_bind, finish, complete_setF]

theorem fieldOp1_of_invalid (op : Fp → Fp) (ha : s.fregs.get a = .invalid) :
    fieldOp1 op d a s = .next (abort (.uninitRegister .fRegister) s) := by
  rw [fieldOp1, readF_invalid ha, except_error_bind, finish]

theorem fieldOp2_of_holds (op : Fp → Fp → Fp) {x y : Fp} (hx : s.fregs.get a = .holds x)
    (hy : s.fregs.get b = .holds y) :
    fieldOp2 op d a b s = .next { complete s with fregs := s.fregs.set d.val (.holds (op x y)) d.isLt } := by
  rw [fieldOp2, readF_holds hx, except_ok_bind, readF_holds hy, except_ok_bind, finish, complete_setF]

/-- Both sources are of the `F` file, so the error is the same whichever of them is tested first. -/
theorem fieldOp2_of_invalid (op : Fp → Fp → Fp) (h : s.fregs.get a = .invalid ∨ s.fregs.get b = .invalid) :
    fieldOp2 op d a b s = .next (abort (.uninitRegister .fRegister) s) := by
  rw [fieldOp2]
  cases ha : s.fregs.get a with
  | invalid => rw [readF_invalid ha, except_error_bind, finish]
  | holds x =>
    have hb : s.fregs.get b = .invalid := h.resolve_left (by rw [ha]; exact nofun)
    rw [readF_holds ha, except_ok_bind, readF_invalid hb, except_error_bind, finish]

end Ends

/-! ### The residues as integers (R10, R81 to R84) -/

theorem fpAdd_val_int (x y : Fp) : ((fpAdd x y).val : Int) = ((x.val : Int) + y.val) % Config.p := by
  rw [fpAdd, fpOf_val, Int.natCast_mod, Int.natCast_add]

theorem fpMul_val_int (x y : Fp) : ((fpMul x y).val : Int) = ((x.val : Int) * y.val) % Config.p := by
  rw [fpMul, fpOf_val, Int.natCast_mod, Int.natCast_mul]

/-- The model subtracts by adding `p - y`, which stays in the naturals. -/
theorem fpSub_val_int (x y : Fp) : ((fpSub x y).val : Int) = ((x.val : Int) - y.val) % Config.p := by
  calc ((fpSub x y).val : Int)
      = ((x.val : Int) + ((Config.p : Int) - y.val)) % Config.p := by
        rw [fpSub, fpOf_val, Int.natCast_mod, Int.natCast_add, Int.natCast_sub y.isLt.le]
    _ = ((x.val : Int) - y.val + Config.p) % Config.p := by ring_nf
    _ = ((x.val : Int) - y.val) % Config.p := Int.add_emod_right _ _

theorem fpNeg_val_int (x : Fp) : ((fpNeg x).val : Int) = ((Config.p : Int) - x.val) % Config.p := by
  rw [fpNeg, fpOf_val, Int.natCast_mod, Int.natCast_sub x.isLt.le]

/-- Settles O31: the three commands are `fieldOp2` at the three functions, whose residues are those of the rules. -/
theorem fieldAddSubMul : Obligations.FieldAddSubMul := by
  intro s d a b
  refine ⟨word_r3_toNat (by decide) d a b, word_r3_toNat (by decide) d a b, word_r3_toNat (by decide) d a b,
    fun x y hx hy => ⟨?_, ?_, ?_⟩, fun h => ⟨?_, ?_, ?_⟩⟩
  · exact ⟨fpAdd x y, fpAdd_val_int x y, fieldOp2_of_holds fpAdd hx hy⟩
  · exact ⟨fpSub x y, fpSub_val_int x y, fieldOp2_of_holds fpSub hx hy⟩
  · exact ⟨fpMul x y, fpMul_val_int x y, fieldOp2_of_holds fpMul hx hy⟩
  · exact fieldOp2_of_invalid fpAdd h
  · exact fieldOp2_of_invalid fpSub h
  · exact fieldOp2_of_invalid fpMul h

/-! ### The first square-root candidate (R86) -/

theorem fpSq_val (r : Fp) : (fpSq r).val = r.val * r.val % Config.p := rfl

theorem fpSq_mul_val (r m : Fp) : (fpSq (fpMul r m)).val = (r.val * m.val) ^ 2 % Config.p := by
  rw [fpSq_val, fpMul, fpOf_val, pow_two, ← Nat.mul_mod]

theorem fpAdd_sq_val (r x : Fp) : (fpAdd (fpSq r) x).val = (r.val * r.val + x.val) % Config.p := by
  rw [fpAdd, fpOf_val, fpSq_val, Nat.mod_add_mod]

theorem fpSqrtCandidate_val (x : Fp) : (fpSqrtCandidate x).val = x.val ^ ((Config.p + 3) / 8) % Config.p :=
  fpPow_val x _ (by decide)

/-- For every exponent, so that no proof evaluates `0 ^ ((p+3)/8)`. -/
theorem fpPow_val_of_zero {x : Fp} {e : Nat} (he : e < 2 ^ 256) (hpos : 0 < e) (h : x.val = 0) :
    (fpPow x e).val = 0 := by
  rw [fpPow_val x e he, h, Nat.zero_pow hpos, Nat.zero_mod]

theorem fpSqrtCandidate_val_of_zero {x : Fp} (h : x.val = 0) : (fpSqrtCandidate x).val = 0 :=
  fpPow_val_of_zero (by decide) (by decide) h

/-- `(r · SQRT_M1)² = -r²` (R20). -/
theorem fpSq_mul_sqrtM1 (r : Fp) : fpSq (fpMul r Config.sqrtM1) = fpNeg (fpSq r) := by
  have hi : fpCast Config.sqrtM1 ^ 2 = -1 := iCast_sq
  rw [← fpCast_inj, fpCast_sq, fpCast_mul, mul_pow, hi, mul_neg_one, fpCast_neg, fpCast_sq]

/-- For a square one of the two candidates is a root: `rootCandidate_sq` on the candidate it chose. -/
theorem fpSqrtCandidate_root {x y : Fp} (hy : fpSq y = x) :
    fpSq (fpSqrtCandidate x) = x ∨ fpSq (fpMul (fpSqrtCandidate x) Config.sqrtM1) = x := by
  have root := rootCandidate_sq y
  rw [hy, rootCandidate] at root
  split at root
  · exact .inr root
  · exact .inl root

/-- When it is the second that is a root, the first squares to `p - x`. -/
theorem fpAdd_sq_eq_zero {r x : Fp} (h : fpSq (fpMul r Config.sqrtM1) = x) : fpAdd (fpSq r) x = fpOf 0 := by
  rw [← h, fpSq_mul_sqrtM1, ← fpCast_eq_zero, fpCast_add, fpCast_neg, add_neg_cancel]

/-- Settles O32: the commands are `fieldOp1` at the two functions; a target that is a square is covered by
`fpSqrtCandidate_root`, and a candidate that squares to a target would itself be a root of it. -/
theorem fieldNegSqrt : Obligations.FieldNegSqrt := by
  intro s d a
  refine ⟨word_r2_toNat (by decide) d a, word_r2_toNat (by decide) d a, fun x hx => ⟨?_, ?_⟩, fun ha => ⟨?_, ?_⟩⟩
  · exact ⟨fpNeg x, fpNeg_val_int x, fieldOp1_of_holds fpNeg hx⟩
  · refine ⟨fpSqrtCandidate x, fpSqrtCandidate_val x, fun y hy => ?square, fun hno => ?nonsquare, fpSqrtCandidate_val_of_zero,
      fieldOp1_of_holds fpSqrtCandidate hx⟩
    case square =>
      rw [← fpSq_val, ← fpAdd_sq_val, ← fpSq_mul_val]
      obtain h | h := fpSqrtCandidate_root (Fin.ext hy)
      · exact .inl (congrArg Fin.val h)
      · exact .inr ⟨by rw [fpAdd_sq_eq_zero h, fpOf_val, Nat.zero_mod], congrArg Fin.val h⟩
    case nonsquare =>
      rw [← fpSq_mul_val]
      exact ⟨hno (fpSqrtCandidate x), hno (fpMul (fpSqrtCandidate x) Config.sqrtM1)⟩
  · exact fieldOp1_of_invalid fpNeg ha
  · exact fieldOp1_of_invalid fpSqrtCandidate ha

end Sys2Proof.Machine
end

