-- ==== Sys2Proof/Proofs/ScalarResults.lean ====
section
/-! The scalar commands that draw nothing: their words (R73), their two ends (R95), the residues they leave (R96 to R98)
and the moves between bytes and scalars (R100, R102, R103). -/

namespace Sys2Proof.Machine

theorem word_r1_toNat {op : Nat} (hop : op < 256) (d : RegNum) :
    (word op d.val 0 0 0).toNat = op * 2 ^ 24 + d.val * 2 ^ 20 := by
  simpa using word_r2_toNat hop d 0

/-! ### Typed sources, of any register file (R12, R165, R169) -/

section Sources

variable {α : Type} {o : Source} {ra rb : Reg α} {s : State}

theorem readReg_bind_of_holds {x : α} (hx : ra = .holds x) (k : α → Except CmdError State) :
    (readReg o ra >>= k) = k x := by
  rw [readReg_ok.2 hx, except_ok_bind]

theorem finish_readReg_of_invalid (ha : ra = .invalid) (k : α → Except CmdError State) :
    finish s (readReg o ra >>= k) = .next (abort (.uninitRegister o) s) := by
  rw [readReg_error.2 ⟨ha, rfl⟩, except_error_bind, finish]

/-- Two sources of one file abort with the same error, whichever of them is the invalid one. -/
theorem finish_readReg_readReg_of_invalid (h : ra = .invalid ∨ rb = .invalid) (k : α → α → Except CmdError State) :
    finish s (readReg o ra >>= fun x => readReg o rb >>= k x) = .next (abort (.uninitRegister o) s) := by
  cases ha : ra with
  | invalid => exact finish_readReg_of_invalid rfl _
  | holds x =>
    have hb : rb = .invalid := h.resolve_left (by rw [ha]; exact nofun)
    rw [readReg_bind_of_holds rfl]
    exact finish_readReg_of_invalid hb _

end Sources

/-! ### The two ends of a scalar command (R95) -/

section Ends

variable {s : State} {d a b : RegNum}

/-- `t` is the state the command writes to, which for a drawing command has consumed its answer. -/
theorem finish_setS (s t : State) (v : Fq) : finish s (.ok (t.setS d v)) =
    .next { complete t with sregs := t.sregs.set d.val (.holds v) d.isLt } := rfl

theorem finish_setB (s t : State) (v : Bytes32) : finish s (.ok (t.setB d v)) =
    .next { complete t with bregs := t.bregs.set d.val v d.isLt } := rfl

theorem scalarOp2_of_holds (op : Fq → Fq → Fq) {x y : Fq} (hx : s.sregs.get a = .holds x)
    (hy : s.sregs.get b = .holds y) :
    scalarOp2 op d a b s = .next { complete s with sregs := s.sregs.set d.val (.holds (op x y)) d.isLt } := by
  rw [scalarOp2, readS, readReg_bind_of_holds hx, readS, readReg_bind_of_holds hy, finish_setS]

theorem scalarOp2_of_invalid (op : Fq → Fq → Fq) (h : s.sregs.get a = .invalid ∨ s.sregs.get b = .invalid) :
    scalarOp2 op d a b s = .next (abort (.uninitRegister .sRegister) s) :=
  finish_readReg_readReg_of_invalid h _

theorem execSst_of_holds {x : Fq} (hx : s.sregs.get a = .holds x) :
    execSst d a s = .next { complete s with bregs := s.bregs.set d.val (enc32 x.val) d.isLt } := by
  rw [execSst, readS, readReg_bind_of_holds hx, finish_setB]

theorem execSst_of_invalid (ha : s.sregs.get a = .invalid) :
    execSst d a s = .next (abort (.uninitRegister .sRegister) s) :=
  finish_readReg_of_invalid ha _

end Ends

/-! ### The residues as integers (R10, R96 to R98) -/

theorem fqAdd_val_int (x y : Fq) : ((fqAdd x y).val : Int) = ((x.val : Int) + y.val) % Config.q := by
  rw [fqAdd, fqOf_val, Int.natCast_mod, Int.natCast_add]

theorem fqMul_val_int (x y : Fq) : ((fqMul x y).val : Int) = ((x.val : Int) * y.val) % Config.q := by
  rw [fqMul, fqOf_val, Int.natCast_mod, Int.natCast_mul]

/-- The model adds `q - y`; the `q` drops out of the residue. -/
theorem fqSub_val_int (x y : Fq) : ((fqSub x y).val : Int) = ((x.val : Int) - y.val) % Config.q := by
  rw [fqSub, fqOf_val, Int.natCast_mod, Int.natCast_add, Int.natCast_sub y.isLt.le, add_sub_left_comm, add_comm,
    Int.add_emod_right]

/-! ### The commands -/

/-- Settles O35: the three commands are `scalarOp2` at the three functions, whose residues are those of the rules. -/
theorem scalarAddSubMul : Obligations.ScalarAddSubMul := by
  intro s d a b
  refine ⟨word_r3_toNat (by decide) d a b, word_r3_toNat (by decide) d a b, word_r3_toNat (by decide) d a b,
    fun x y hx hy => ⟨?_, ?_, ?_⟩, fun h => ⟨?_, ?_, ?_⟩⟩
  · exact ⟨fqAdd x y, fqAdd_val_int x y, scalarOp2_of_holds fqAdd hx hy⟩
  · exact ⟨fqSub x y, fqSub_val_int x y, scalarOp2_of_holds fqSub hx hy⟩
  · exact ⟨fqMul x y, fqMul_val_int x y, scalarOp2_of_holds fqMul hx hy⟩
  · exact scalarOp2_of_invalid fqAdd h
  · exact scalarOp2_of_invalid fqSub h
  · exact scalarOp2_of_invalid fqMul h

/-- Settles O36: the two loads reduce the number of their bytes modulo `q`, and the store loses no bit of its scalar,
which is below `2^256` (`fq_lt`). -/
theorem scalarMoves : Obligations.ScalarMoves := by
  intro s d a
  refine ⟨word_r1_toNat (by decide) d, word_r2_toNat (by decide) d a, word_r2_toNat (by decide) d a, ?h2s, ?sld,
    fun x hx => ?sst, execSst_of_invalid⟩
  case h2s => exact ⟨h2s s.hd, fqOf_val s.hd.toNat, finish_setS s s (h2s s.hd)⟩
  case sld => exact ⟨fqOf (le (s.b a)), fqOf_val (le (s.b a)), finish_setS s s (fqOf (le (s.b a)))⟩
  case sst => exact ⟨enc32 x.val, enc32_toNat (fq_lt x), execSst_of_holds hx⟩

end Sys2Proof.Machine
end

