-- ==== Sys2Proof/Proofs/PointCompression.lean ====
section
/-! The commands that compare, compress and decompress points: the word of format A2 (R66, R73), their two ends (R107,
R169), and the round-trip laws of compression (R126). -/

namespace Sys2Proof.Machine

theorem word_a2_toNat {op : Nat} (hop : op < 256) (a b : RegNum) :
    (word op 0 a.val b.val 0).toNat = op * 2 ^ 24 + a.val * 2 ^ 16 + b.val * 2 ^ 12 := by
  simpa using word_r3_toNat hop 0 a b

/-! ### The two ends of the commands (R107, R122 to R124) -/

section Ends

variable {s : State} {d a b : RegNum} {P Q : Point}

theorem complete_setEq (v : Bool) : complete (s.setEq v) = { complete s with eqFlag := v } := rfl

theorem exec_peq_of_live (hP : s.pregs.get a = .holds P) (hQ : s.pregs.get b = .holds Q)
    (lP : P.live Config.curve) (lQ : Q.live Config.curve) :
    exec (.peq a b) s = .next { complete s with eqFlag := decide (P.affine = Q.affine) } := by
  have equal : pointEqual P Q = decide (P.affine = Q.affine) :=
    Bool.eq_iff_iff.2 ((pointEqual_iff lP lQ).trans decide_eq_true_iff.symm)
  rw [exec, execPeq, readP, readReg_bind_of_holds hP, readP, readReg_bind_of_holds hQ, equal, finish,
    complete_setEq]

theorem exec_peq_of_invalid (h : s.pregs.get a = .invalid ∨ s.pregs.get b = .invalid) :
    exec (.peq a b) s = .next (abort (.uninitRegister .pRegister) s) :=
  finish_readReg_readReg_of_invalid h _

theorem exec_pcmp_of_holds (hP : s.pregs.get a = .holds P) :
    exec (.pcmp d a) s = .next (complete (s.setB d (compress P))) := by
  rw [exec, execPcmp, readP, readReg_bind_of_holds hP, finish]

theorem exec_pcmp_of_invalid (ha : s.pregs.get a = .invalid) :
    exec (.pcmp d a) s = .next (abort (.uninitRegister .pRegister) s) :=
  finish_readReg_of_invalid ha _

theorem exec_pdec_of_decompress (hQ : decompress Config.curve (s.b a) = some Q) :
    exec (.pdec d a) s = .next (complete (s.setP d Q)) := by
  rw [exec, execPdec, pointOperand_ok.2 hQ, except_ok_bind, finish]

/-- A `PDEC` that leaves `RC` 0 has found a point and written it (R118, R124). -/
theorem decompress_of_exec_pdec {u : State} (h : exec (.pdec d a) s = .next u) (hrc : u.rcCode = 0) :
    ∃ Q, decompress Config.curve (s.b a) = some Q ∧ u = complete (s.setP d Q) := by
  obtain ⟨_, effect, rfl⟩ := effect_of_ok h rfl hrc
  cases effect with
  | pdec hQ => exact ⟨_, hQ, rfl⟩

end Ends

/-- Settles O40: `PEQ` decides equality of classes by `pointEqual_iff`, and the bytes of `PCMP` lose no bit of the sum of
R116 (`compressAffine_toNat`). -/
theorem pointEqualCompress : Obligations.PointEqualCompress := by
  intro s d a b
  refine ⟨word_a2_toNat (by decide) a b, word_r2_toNat (by decide) d a,
    fun P Q => exec_peq_of_live, exec_peq_of_invalid, fun P hP => ?_, exec_pcmp_of_invalid⟩
  exact ⟨compress P, compressAffine_toNat P.affine, exec_pcmp_of_holds hP⟩

/-! ### The round-trip laws (R126) -/

theorem setP_get_same (s : State) (d : RegNum) (Q : Point) : (s.setP d Q).pregs.get d = .holds Q := by
  rw [State.setP_get, if_pos rfl]

/-- Writing a point of `P[a]`'s class to any register, `P[a]` itself included, keeps the class of `P[a]`. -/
theorem setP_keeps_class {s : State} {a : RegNum} {P R : Point} (d : RegNum) (hP : s.pregs.get a = .holds P)
    (lP : P.live Config.curve) (lR : R.live Config.curve) (hR : R.affine = P.affine) :
    ∃ P' : Point, (s.setP d R).pregs.get a = .holds P' ∧ P'.live Config.curve ∧ P'.affine = P.affine := by
  rw [State.setP_get]
  by_cases hda : d = a
  · exact ⟨R, if_pos hda, lR, hR⟩
  · exact ⟨P, by rw [if_neg hda, hP], lP, rfl⟩

/-- The first law: whether or not `PDEC` writes over `P[a]`, `PEQ` compares two points of the class of `P`. -/
theorem exec_pcmp_pdec_peq (s : State) (d a t : RegNum) (P : Point) (hP : s.pregs.get a = .holds P)
    (lP : P.live Config.curve) :
    ∃ u v R, exec (.pcmp t a) s = .next u ∧ exec (.pdec d t) u = .next v ∧ v.rcCode = 0 ∧
      v.pregs.get d = .holds R ∧ R.live Config.curve ∧ R.affine = P.affine ∧
      ∃ w, exec (.peq d a) v = .next w ∧ w.rcCode = 0 ∧ w.eqFlag = true := by
  obtain ⟨R, hdec, lR, hR⟩ := decompress_compress curve_nonSquare lP
  have ht : decompress Config.curve ((complete (s.setB t (compress P))).b t) = some R := by
    rw [complete_b, b_setB_same, hdec]
  have hd : ((complete (s.setB t (compress P))).setP d R).pregs.get d = .holds R := setP_get_same ..
  obtain ⟨P', ha, lP', hP'⟩ := setP_keeps_class (s := complete (s.setB t (compress P))) d hP lP lR hR
  refine ⟨_, _, R, exec_pcmp_of_holds hP, exec_pdec_of_decompress ht, rfl, hd, lR, hR, _,
    exec_peq_of_live hd ha lR lP', rfl, ?_⟩
  simp only [hR, hP', decide_true]

/-- The second law: the point `PDEC` found compresses to the bytes it came from (`decompress_some`). -/
theorem exec_pdec_pcmp (s u : State) (d a t : RegNum) (h : exec (.pdec t a) s = .next u) (hrc : u.rcCode = 0) :
    ∃ v, exec (.pcmp d t) u = .next v ∧ v.rcCode = 0 ∧ v.b d = s.b a := by
  obtain ⟨Q, hdec, rfl⟩ := decompress_of_exec_pdec h hrc
  refine ⟨_, exec_pcmp_of_holds (setP_get_same s t Q), rfl, ?_⟩
  rw [complete_b, b_setB_same]
  exact (decompress_some curve_nonSquare hdec).2

/-- Settles O43: the two laws on commands, and that `compress` tells the classes of live points apart (`compress_inj`). -/
theorem pointRoundTrip : Obligations.PointRoundTrip :=
  ⟨exec_pcmp_pdec_peq, exec_pdec_pcmp, fun _ _ lP lQ hne h => hne ((compress_inj curve_nonSquare lP lQ).1 h)⟩

end Sys2Proof.Machine
end

