-- ==== Sys2Proof/Proofs/UnblindDiscard.lean ====
section
/-! `BUNBLIND` and `BDISCARD`: the two ends of each (R140, R144, R145) and the word of format C (R66, R73). -/

namespace Sys2Proof.Machine

/-- An immediate has 12 bits, so no part of the sum of R73 is dropped. -/
theorem word_c_toNat {op : Nat} (hop : op < 256) (m : Imm) :
    (word op 0 0 0 m.toNat).toNat = op * 2 ^ 24 + m.toNat := by
  have hm : m.toNat < 2 ^ 12 := m.isLt
  simp only [word, BitVec.toNat_ofNat]
  omega

section Unblind

variable {s : State} {d a : RegNum}

theorem pairOk_of_odd (hd : d.val % 2 = 1) : pairOk d = false := by simp [pairOk, hd]

theorem needBlinded_of_number_ne (hu : s.user.number ≠ 1) : needBlinded s = .error (.sessionState .user) := by
  cases h : needBlinded s with
  | error e => rw [needBlinded_error h]
  | ok blinded => exact absurd (congrArg UserSession.number (needBlinded_ok.1 h)) hu

theorem complete_setUser_setPair (c : UserSession) (lo hi : Bytes32) :
    complete ((s.setUser c).setPair d lo hi) =
      { complete s with user := c, bregs := (s.bregs.set d.val lo d.isLt).set (pairHigh d).val hi (pairHigh d).isLt } :=
  rfl

theorem exec_bunblind_of_blinded {ua : Draw} {urp : Point} (hd : d.val % 2 = 0) (hu : s.user = .blinded ua urp) :
    exec (.bunblind d a) s = .next (complete ((s.setUser (.done urp)).setPair d (compress urp)
      (enc32 ((le (s.b a) % Config.q + ua.val) % Config.q)))) := by
  rw [exec, execBunblind, pairOperand_ok.2 ⟨pairOk_of_even hd, rfl⟩, except_ok_bind, needBlinded_ok.2 hu,
    except_ok_bind, finish]

/-- The pair is tested before the session state. -/
theorem exec_bunblind_of_odd (hd : d.val % 2 = 1) :
    exec (.bunblind d a) s = .next (abort (.illegalCommand .badRegister) s) := by
  rw [exec, execBunblind, pairOperand_error.2 ⟨pairOk_of_odd hd, rfl⟩, except_error_bind, finish]

theorem exec_bunblind_of_not_blinded (hd : d.val % 2 = 0) (hu : s.user.number ≠ 1) :
    exec (.bunblind d a) s = .next (abort (.sessionState .user) s) := by
  rw [exec, execBunblind, pairOperand_ok.2 ⟨pairOk_of_even hd, rfl⟩, except_ok_bind, needBlinded_of_number_ne hu,
    except_error_bind, finish]

end Unblind

section Discard

variable (s : State)

theorem exec_bdiscard_issuer : exec (.bdiscard 1) s = .next { complete s with issuer := .idle } := rfl

theorem exec_bdiscard_user : exec (.bdiscard 2) s = .next { complete s with user := .idle } := rfl

theorem exec_bdiscard_both : exec (.bdiscard 3) s = .next { complete s with issuer := .idle, user := .idle } := rfl

theorem bdiscardImmOk_eq_false {m : Imm} (hm : m = 0 ∨ 3 < m.toNat) : bdiscardImmOk m = false := by
  rcases hm with rfl | hm
  · rfl
  · simp [bdiscardImmOk, hm]

theorem exec_bdiscard_illegal {m : Imm} (hm : m = 0 ∨ 3 < m.toNat) :
    exec (.bdiscard m) s = .next (abort (.illegalCommand .badImm) s) := by
  rw [exec, execBdiscard, maskOperand_error.2 ⟨bdiscardImmOk_eq_false hm, rfl⟩, except_error_bind, finish]

end Discard

/-- Settles O53: the second half of the signature loses no bit, being below `q` (`mod_q_lt`); the other clauses are the
ends of the two commands and their words. -/
theorem unblindDiscard : Obligations.UnblindDiscard := by
  refine ⟨fun s d a ua urp hd hu => ?signature, fun s => ?contexts, fun s d a => exec_bunblind_of_odd,
    fun s d a => exec_bunblind_of_not_blinded, word_r2_toNat (by decide), word_c_toNat (by decide)⟩
  case signature =>
    exact ⟨enc32 (((s.b a).toNat % Config.q + ua.val) % Config.q), enc32_toNat (mod_q_lt _),
      (exec_bunblind_of_blinded hd hu).trans (congrArg Host.Outcome.next (complete_setUser_setPair _ _ _))⟩
  case contexts =>
    exact ⟨exec_bdiscard_issuer s, exec_bdiscard_user s, exec_bdiscard_both s, fun m => exec_bdiscard_illegal s⟩

end Sys2Proof.Machine
end

