-- ==== Sys2Proof/Proofs/SystemResults.lean ====
section
/-! The system and hash commands: the one word of each command without operands, the illegal words with its opcode (R66,
R70, R73), the word of format A1, and the ends of the commands (R152 to R155). -/

namespace Sys2Proof.Machine

/-! ### The words of the commands (R66, R70, R73) -/

theorem word_a1_toNat {op : Nat} (hop : op < 256) (a : RegNum) :
    (word op 0 a.val 0 0).toNat = op * 2 ^ 24 + a.val * 2 ^ 16 := by
  simpa using word_a2_toNat hop a 0

/-- A well-formed command is decoded from its own word and no other. -/
theorem decode_eq_ok_iff_eq_encode {w : Word} {i : Instr} (hwf : i.wf = true) : decode w = .ok i ↔ w = encode i := by
  rw [decode_eq_ok_iff, and_iff_right hwf, eq_comm]

/-- Format N refuses a word for one reason only, the second test of R70. -/
theorem decN_ok_or_unusedField (f : Fields) (i : Instr) : decN f i = .ok i ∨ decN f i = .error .unusedField := by
  rw [decN, unusedZero]
  split
  · exact .inl rfl
  · exact .inr rfl

theorem decode_of_op_zero {w : Word} (hop : w.toNat / 2 ^ 24 = 0) : decode w = decN (fieldsOf w) .nop := by
  have op : (fieldsOf w).op = 0 := by rw [fieldsOf, wordField, hop, Nat.zero_mod]
  simp only [decode, op]

/-- Of the words with opcode 0, format N accepts the word of `NOP` alone. -/
theorem decode_unusedField_of_op_zero {w : Word} (hop : w.toNat / 2 ^ 24 = 0) (hw : w ≠ encode .nop) :
    decode w = .error .unusedField := by
  rw [decode_of_op_zero hop]
  refine (decN_ok_or_unusedField (fieldsOf w) .nop).resolve_left fun hok => hw ?_
  rwa [← decode_of_op_zero hop, decode_eq_ok_iff_eq_encode rfl] at hok

/-! ### The ends of the commands (R152 to R155) -/

section Ends

variable (s : State) (a : RegNum)

theorem exec_nop : exec .nop s = .next (complete s) := rfl

theorem exec_zeroize : exec .zeroize s = .next (complete { resetAll s with errs := s.errs }) := rfl

/-- Apart from the environment's fields, what `ZEROIZE` leaves depends on `ERRS` only (R153). -/
theorem complete_resetAll_without_environment :
    { complete { resetAll s with errs := s.errs } with entropy := [], events := [], answer := .none } =
      { State.reset with errs := s.errs } := rfl

theorem complete_setHd (v : Bytes64) : complete (s.setHd v) = { complete s with hd := v } := rfl

theorem exec_hashb :
    exec (.hashb a) s = .next { complete s with hd := Config.hash (bytes32 (s.b a)) } := by
  rw [exec, execHashb, finish, complete_setHd]

variable {s}

theorem exec_hashbm_of_le (hm : s.mlen.toNat ≤ Config.msgMax) :
    exec (.hashbm a) s =
      .next { complete s with hd := Config.hash (bytes32 (s.b a) ++ msgBytes s.msg s.mlen.toNat) } := by
  rw [exec, execHashbm, message_ok.2 ⟨hm, rfl⟩, except_ok_bind, finish, complete_setHd]

theorem exec_hashbm_of_gt (hm : Config.msgMax < s.mlen.toNat) :
    exec (.hashbm a) s = .next (abort .msgLength s) := by
  rw [exec, execHashbm, message_error.2 ⟨hm.not_ge, rfl⟩, except_error_bind, finish]

end Ends

/-- Settles O29: `ZEROIZE` completes in `resetAll` with `ERRS` kept, which reads nothing else of the old state but the
environment's fields. -/
theorem zeroizeResult : Obligations.ZeroizeResult :=
  ⟨fun _ => decode_eq_ok_iff_eq_encode rfl, fun s => ⟨_, exec_zeroize s, complete_resetAll_without_environment s⟩⟩

/-- Settles O30: a word with opcode 0 is that of `NOP` or fails the second test of R70
(`decode_unusedField_of_op_zero`); `HASHBM` splits on whether `MLEN` exceeds `MSG_MAX`. -/
theorem nopHashResults : Obligations.NopHashResults :=
  ⟨fun _ => decode_eq_ok_iff_eq_encode rfl, fun _ => decode_unusedField_of_op_zero, fun s a =>
    ⟨word_a1_toNat (by decide) a, word_a1_toNat (by decide) a, exec_nop s, exec_hashb s a, exec_hashbm_of_le a,
      exec_hashbm_of_gt a⟩⟩

end Sys2Proof.Machine
end

