-- ==== Sys2Proof/Proofs/RoundTrip.lean ====
section
/-! No bit of an encoding is dropped (R65 to R69, R73), and the words the spec writes out (R70, R73). -/

namespace Sys2Proof

/-- Settles O1: the round trip is the lemma about each format, `decode_encode`. -/
theorem decodeEncodeRoundTrip : Obligations.DecodeEncodeRoundTrip :=
  fun _ hwf => decode_encode hwf

/-- Settles O4: a legal word is the word of its command, decoded by the round trip; an illegal one fails the test of R70
its detail names. -/
theorem sampleWordsDecode : Obligations.SampleWordsDecode := by
  have legal (w : Word) (i : Instr) (hwf : i.wf = true) (hw : encode i = w) : decode w = .ok i :=
    decode_eq_ok_iff.2 ⟨hwf, hw⟩
  have illegal (w : Word) (r : Illegal) (hr : Machine.firstFailure w = some r) : decode w = .error r :=
    Machine.decode_eq_error_iff.2 hr
  exact ⟨legal _ _ rfl rfl, legal _ _ rfl rfl, legal _ _ rfl rfl, legal _ _ rfl rfl, legal _ _ rfl rfl,
    legal _ _ rfl rfl, legal _ _ rfl rfl, legal _ _ rfl rfl, illegal _ _ rfl, illegal _ _ rfl, illegal _ _ rfl,
    illegal _ _ rfl⟩

end Sys2Proof
end

