-- ==== Sys2Proof/Proofs/Alike.lean ====
section
/-! Two states that differ at most in what their point registers, their key context and their session contexts hold, each
pair of points related by `pt`, of keys by `kr`, of draws by `dr`: every command, and every step, of one is matched by the
other. With `pt` equality of classes this is R16; with `kr` and `dr` any two keys and draws it is R41. -/

namespace Sys2Proof.Machine

/-! ### The relation -/

/-- Two registers, both invalid or holding related values. -/
inductive Reg.Related {α : Type} (rel : α → α → Prop) : Reg α → Reg α → Prop where
  | invalid : Related rel .invalid .invalid
  | holds {x y : α} (h : rel x y) : Related rel (.holds x) (.holds y)

/-- Two issuer contexts in one state, with related contents. -/
inductive IssuerSession.Related (pt : Point → Point → Prop) (dr : Draw → Draw → Prop) :
    IssuerSession → IssuerSession → Prop where
  | idle : Related pt dr .idle .idle
  | commit {k l : Draw} {P Q : Point} (hd : dr k l) (hp : pt P Q) : Related pt dr (.commit k P) (.commit l Q)
  | signed {P Q : Point} (hp : pt P Q) : Related pt dr (.signed P) (.signed Q)

/-- Two user contexts in one state, with related contents. -/
inductive UserSession.Related (pt : Point → Point → Prop) (dr : Draw → Draw → Prop) :
    UserSession → UserSession → Prop where
  | idle : Related pt dr .idle .idle
  | blinded {a b : Draw} {P Q : Point} (hd : dr a b) (hp : pt P Q) : Related pt dr (.blinded a P) (.blinded b Q)
  | done {P Q : Point} (hp : pt P Q) : Related pt dr (.done P) (.done Q)

/-- The state with other contents of its point registers, its key context and its session contexts. -/
def State.withHeld (s : State) (pregs : Vector (Reg Point) 8) (key : Reg KeyPair) (kp : Reg Point)
    (issuer : IssuerSession) (user : UserSession) : State :=
  { s with pregs := pregs, key := key, kp := kp, issuer := issuer, user := user }

variable {pt : Point → Point → Prop} {kr : KeyPair → KeyPair → Prop} {dr : Draw → Draw → Prop}

/-- The states are the same but for what the registers of points, keys and draws hold, and there they are related. -/
inductive Alike (pt : Point → Point → Prop) (kr : KeyPair → KeyPair → Prop) (dr : Draw → Draw → Prop) (s : State) :
    State → Prop where
  | intro {pregs : Vector (Reg Point) 8} {key : Reg KeyPair} {kp : Reg Point} {issuer : IssuerSession}
      {user : UserSession} (hpregs : ∀ i : RegNum, (s.pregs.get i).Related pt (pregs.get i)) (hkey : s.key.Related kr key)
      (hkp : s.kp.Related pt kp) (hissuer : s.issuer.Related pt dr issuer) (huser : s.user.Related pt dr user) :
      Alike pt kr dr s (s.withHeld pregs key kp issuer user)

section Held

variable {s t : State} (h : Alike pt kr dr s t)

include h

theorem Alike.pregs (i : RegNum) : (s.pregs.get i).Related pt (t.pregs.get i) := by
  obtain ⟨hpregs, -, -, -, -⟩ := h
  exact hpregs i

theorem Alike.key : s.key.Related kr t.key := by
  obtain ⟨-, hkey, -, -, -⟩ := h
  exact hkey

theorem Alike.kp : s.kp.Related pt t.kp := by
  obtain ⟨-, -, hkp, -, -⟩ := h
  exact hkp

theorem Alike.issuer : s.issuer.Related pt dr t.issuer := by
  obtain ⟨-, -, -, hissuer, -⟩ := h
  exact hissuer

theorem Alike.user : s.user.Related pt dr t.user := by
  obtain ⟨-, -, -, -, huser⟩ := h
  exact huser

/-- What the rest of the state says is the same. -/
theorem Alike.rest {α : Type} (f : State → α)
    (hf : ∀ u pregs key kp issuer user, f (u.withHeld pregs key kp issuer user) = f u) : f t = f s := by
  obtain ⟨-, -, -, -, -⟩ := h
  exact hf s _ _ _ _ _

end Held

/-- The operations on points do not tell related points apart. -/
structure Congruence (pt : Point → Point → Prop) : Prop where
  add {P P' Q Q' : Point} : pt P P' → pt Q Q' → pt (pointAdd Config.curve P Q) (pointAdd Config.curve P' Q')
  double {P P' : Point} : pt P P' → pt (pointDouble P) (pointDouble P')
  mul {P P' : Point} {n : Nat} : n < 2 ^ 256 → pt P P' → pt (pointMul Config.curve n P) (pointMul Config.curve n P')
  neutral : pt pointNeutral pointNeutral
  base : pt (pointBase Config.curve) (pointBase Config.curve)
  decompress {b : Bytes32} {Q : Point} : decompress Config.curve b = some Q → pt Q Q
  compress {P P' : Point} : pt P P' → compress P = compress P'
  equal {P P' Q Q' : Point} : pt P P' → pt Q Q' → pointEqual P Q = pointEqual P' Q'

/-! ### Writes -/

theorem related_set {α : Type} {rel : α → α → Prop} {u v : Vector (Reg α) 8} {x y : α} (d : RegNum)
    (h : ∀ i : RegNum, (u.get i).Related rel (v.get i)) (hxy : rel x y) (i : RegNum) :
    ((u.set d.val (.holds x) d.isLt).get i).Related rel ((v.set d.val (.holds y) d.isLt).get i) := by
  rw [vector_get_set, vector_get_set]
  split
  · exact .holds hxy
  · exact h i

/-- A function of the state that passes by the held values keeps the relation. -/
theorem Alike.map {s t : State} (h : Alike pt kr dr s t) (f : State → State)
    (hf : ∀ u pregs key kp issuer user,
      f (u.withHeld pregs key kp issuer user) = (f u).withHeld pregs key kp issuer user) :
    Alike pt kr dr (f s) (f t) := by
  obtain ⟨hpregs, hkey, hkp, hissuer, huser⟩ := h
  have keeps : f s = (f s).withHeld s.pregs s.key s.kp s.issuer s.user := hf s _ _ _ _ _
  rw [hf]
  refine .intro ?_ ?_ ?_ ?_ ?_ <;> rw [keeps] <;> assumption

section Writes

variable {s t : State} (h : Alike pt kr dr s t)

include h

theorem Alike.setF (d : RegNum) (v : Fp) : Alike pt kr dr (s.setF d v) (t.setF d v) :=
  h.map (·.setF d v) fun _ _ _ _ _ _ => rfl

theorem Alike.setS (d : RegNum) (v : Fq) : Alike pt kr dr (s.setS d v) (t.setS d v) :=
  h.map (·.setS d v) fun _ _ _ _ _ _ => rfl

theorem Alike.setB (d : RegNum) (v : Bytes32) : Alike pt kr dr (s.setB d v) (t.setB d v) :=
  h.map (·.setB d v) fun _ _ _ _ _ _ => rfl

theorem Alike.setPair (d : RegNum) (lo hi : Bytes32) : Alike pt kr dr (s.setPair d lo hi) (t.setPair d lo hi) :=
  h.map (·.setPair d lo hi) fun _ _ _ _ _ _ => rfl

theorem Alike.setHd (v : Bytes64) : Alike pt kr dr (s.setHd v) (t.setHd v) :=
  h.map (·.setHd v) fun _ _ _ _ _ _ => rfl

theorem Alike.setEq (v : Bool) : Alike pt kr dr (s.setEq v) (t.setEq v) :=
  h.map (·.setEq v) fun _ _ _ _ _ _ => rfl

theorem Alike.setValid (v : Bool) : Alike pt kr dr (s.setValid v) (t.setValid v) :=
  h.map (·.setValid v) fun _ _ _ _ _ _ => rfl

theorem Alike.setP (d : RegNum) {P Q : Point} (hpq : pt P Q) : Alike pt kr dr (s.setP d P) (t.setP d Q) := by
  obtain ⟨hpregs, hkey, hkp, hissuer, huser⟩ := h
  exact .intro (related_set d hpregs hpq) hkey hkp hissuer huser

theorem Alike.setKey {k l : KeyPair} (hkl : kr k l) : Alike pt kr dr (s.setKey k) (t.setKey l) := by
  obtain ⟨hpregs, -, -, hissuer, huser⟩ := h
  exact .intro hpregs (.holds hkl) .invalid hissuer huser

theorem Alike.setKp {P Q : Point} (hpq : pt P Q) : Alike pt kr dr (s.setKp P) (t.setKp Q) := by
  obtain ⟨hpregs, hkey, -, hissuer, huser⟩ := h
  exact .intro hpregs hkey (.holds hpq) hissuer huser

theorem Alike.setIssuer {c c' : IssuerSession} (hc : c.Related pt dr c') :
    Alike pt kr dr (s.setIssuer c) (t.setIssuer c') := by
  obtain ⟨hpregs, hkey, hkp, -, huser⟩ := h
  exact .intro hpregs hkey hkp hc huser

theorem Alike.setUser {c c' : UserSession} (hc : c.Related pt dr c') :
    Alike pt kr dr (s.setUser c) (t.setUser c') := by
  obtain ⟨hpregs, hkey, hkp, hissuer, -⟩ := h
  exact .intro hpregs hkey hkp hissuer hc

theorem Alike.setEntropy (q : List PortAnswer) : Alike pt kr dr { s with entropy := q } { t with entropy := q } :=
  h.map (fun u => { u with entropy := q }) fun _ _ _ _ _ _ => rfl

theorem Alike.setBlindA (v : Option Draw) : Alike pt kr dr { s with blindA := v } { t with blindA := v } :=
  h.map (fun u => { u with blindA := v }) fun _ _ _ _ _ _ => rfl

theorem Alike.setAnswer (a : BusAnswer) : Alike pt kr dr { s with answer := a } { t with answer := a } :=
  h.map (fun u => { u with answer := a }) fun _ _ _ _ _ _ => rfl

theorem Alike.setEvents (es : List Event) : Alike pt kr dr { s with events := es } { t with events := es } :=
  h.map (fun u => { u with events := es }) fun _ _ _ _ _ _ => rfl

theorem Alike.complete : Alike pt kr dr (complete s) (complete t) :=
  h.map Machine.complete fun _ _ _ _ _ _ => rfl

theorem Alike.abort (e : CmdError) : Alike pt kr dr (abort e s) (abort e t) :=
  h.map (Machine.abort e) fun _ _ _ _ _ _ => rfl

/-- `ZEROIZE` and the reset input leave nothing held (R153, R181). -/
theorem Alike.resetAll : Alike pt kr dr (resetAll s) (resetAll t) := by
  obtain ⟨-, -, -, -, -⟩ := h
  refine .intro (fun i => ?_) .invalid .invalid .idle .idle
  have reset : State.reset.pregs.get i = .invalid := by revert i; decide
  show (State.reset.pregs.get i).Related pt (State.reset.pregs.get i)
  rw [reset]
  exact .invalid

end Writes

/-! ### Results of a command's checks and writes -/

/-- Both results are values related by `rel`, or the same error. -/
inductive ResultsAlike {α β : Type} (rel : α → β → Prop) : Except CmdError α → Except CmdError β → Prop where
  | ok {x : α} {y : β} (h : rel x y) : ResultsAlike rel (.ok x) (.ok y)
  | error (e : CmdError) : ResultsAlike rel (.error e) (.error e)

theorem ResultsAlike.bind {α β γ δ : Type} {rel : α → β → Prop} {rel' : γ → δ → Prop} {x : Except CmdError α}
    {y : Except CmdError β} {f : α → Except CmdError γ} {g : β → Except CmdError δ} (h : ResultsAlike rel x y)
    (hfg : ∀ a b, rel a b → ResultsAlike rel' (f a) (g b)) : ResultsAlike rel' (x >>= f) (y >>= g) := by
  cases h with
  | ok h => exact hfg _ _ h
  | error e => exact .error e

/-- The checks that read nothing held give the same on both sides. -/
theorem ResultsAlike.bind_same {α γ δ : Type} {rel : γ → δ → Prop} (x : Except CmdError α) {f : α → Except CmdError γ}
    {g : α → Except CmdError δ} (hfg : ∀ a, ResultsAlike rel (f a) (g a)) : ResultsAlike rel (x >>= f) (x >>= g) := by
  cases x with
  | ok a => exact hfg a
  | error e => exact .error e

theorem readReg_alike {α : Type} {rel : α → α → Prop} {r r' : Reg α} (o : Source) (h : r.Related rel r') :
    ResultsAlike rel (readReg o r) (readReg o r') := by
  cases h with
  | invalid => exact .error _
  | holds h => exact .ok h

/-- Both outcomes are next states, which are related. -/
def OutcomesAlike (rel : State → State → Prop) (o o' : Host.Outcome State Fault Refusal) : Prop :=
  ∃ s t, o = .next s ∧ o' = .next t ∧ rel s t

theorem OutcomesAlike.next {rel : State → State → Prop} {s t : State} (h : rel s t) :
    OutcomesAlike rel (.next s) (.next t) := ⟨s, t, rfl, rfl, h⟩

theorem finish_alike {s t : State} {r r' : Except CmdError State} (h : Alike pt kr dr s t)
    (hr : ResultsAlike (Alike pt kr dr) r r') : OutcomesAlike (Alike pt kr dr) (finish s r) (finish t r') := by
  cases hr with
  | ok hu => exact .next hu.complete
  | error e => exact .next (h.abort e)

end Sys2Proof.Machine
end

