-- ==== Sys2Proof/Proofs/AlikeCommands.lean ====
section
/-! Every command, run on two states that are alike but for what they hold, comes to states that are alike again; the three
commands that let a secret reach what the host reads (R41) need the secrets to be the same. -/

namespace Sys2Proof.Machine

variable {pt : Point → Point → Prop} {kr : KeyPair → KeyPair → Prop} {dr : Draw → Draw → Prop}

/-- The commands by which a secret reaches what the host reads (R41). -/
def showsSecret : Instr → Bool
  | .kderive _ | .bsign _ _ | .bunblind _ _ => true
  | _ => false

/-! ### Sources -/

section Sources

variable {s t : State} (h : Alike pt kr dr s t)

include h

theorem readF_alike (a : RegNum) : readF t a = readF s a := h.rest (readF · a) fun _ _ _ _ _ _ => rfl

theorem readS_alike (a : RegNum) : readS t a = readS s a := h.rest (readS · a) fun _ _ _ _ _ _ => rfl

theorem b_alike (a : RegNum) : t.b a = s.b a := h.rest (·.b a) fun _ _ _ _ _ _ => rfl

theorem message_alike : message t = message s := h.rest message fun _ _ _ _ _ _ => rfl

theorem needKlen_alike (o : LengthOperand) : needKlen t o = needKlen s o :=
  h.rest (needKlen · o) fun _ _ _ _ _ _ => rfl

theorem needSlen_alike : needSlen t = needSlen s := h.rest needSlen fun _ _ _ _ _ _ => rfl

theorem readP_alike (a : RegNum) : ResultsAlike pt (readP s a) (readP t a) := readReg_alike _ (h.pregs a)

theorem readKey_alike : ResultsAlike kr (readKey s) (readKey t) := readReg_alike _ h.key

theorem pointOperand_alike (hc : Congruence pt) (o : PointOperand) (a : RegNum) :
    ResultsAlike pt (pointOperand s o a) (pointOperand t o a) := by
  rw [pointOperand, pointOperand, b_alike h]
  cases hQ : decompress Config.curve (s.b a) with
  | some Q => exact .ok (hc.decompress hQ)
  | none => exact .error _

theorem needIssuerIdle_alike : needIssuerIdle t = needIssuerIdle s := by
  have hissuer := h.issuer
  unfold needIssuerIdle
  generalize s.issuer = c at hissuer
  generalize t.issuer = c' at hissuer
  cases hissuer <;> rfl

theorem needUserIdle_alike : needUserIdle t = needUserIdle s := by
  have huser := h.user
  unfold needUserIdle
  generalize s.user = c at huser
  generalize t.user = c' at huser
  cases huser <;> rfl

theorem needCommit_alike :
    ResultsAlike (fun x y => dr x.1 y.1 ∧ pt x.2 y.2) (needCommit s) (needCommit t) := by
  have hissuer := h.issuer
  unfold needCommit
  generalize s.issuer = c at hissuer
  generalize t.issuer = c' at hissuer
  cases hissuer with
  | idle => exact .error _
  | commit hd hp => exact .ok ⟨hd, hp⟩
  | signed hp => exact .error _

theorem needBlinded_alike :
    ResultsAlike (fun x y => dr x.1 y.1 ∧ pt x.2 y.2) (needBlinded s) (needBlinded t) := by
  have huser := h.user
  unfold needBlinded
  generalize s.user = c at huser
  generalize t.user = c' at huser
  cases huser with
  | idle => exact .error _
  | blinded hd hp => exact .ok ⟨hd, hp⟩
  | done hp => exact .error _

/-- The checks of `BBLIND` find the same message and related points. -/
theorem blindOperands_alike (hc : Congruence pt) (a b : RegNum) :
    ResultsAlike (fun x y => x.1 = y.1 ∧ pt x.2.1 y.2.1 ∧ pt x.2.2 y.2.2) (blindOperands a b s)
      (blindOperands a b t) := by
  rw [blindOperands, blindOperands, needUserIdle_alike h, message_alike h]
  exact .bind_same _ fun _ => .bind_same _ fun m => (pointOperand_alike h hc .ra a).bind fun R R' hR =>
    (pointOperand_alike h hc .rb b).bind fun P P' hP => .ok ⟨rfl, hR, hP⟩

end Sources

/-! ### The drawing commands -/

section Draws

variable {s t : State} (h : Alike pt kr dr s t)

include h

theorem entropy_alike : t.entropy = s.entropy := h.rest State.entropy fun _ _ _ _ _ _ => rfl

/-- What a request of the port comes to is one answer for both, or none for both. -/
theorem draw_alike :
    (draw s = .waiting ∧ draw t = .waiting) ∨
    (∃ v s' t', draw s = .value v s' ∧ draw t = .value v t' ∧ Alike pt kr dr s' t') ∨
    (∃ s' t', draw s = .failed s' ∧ draw t = .failed t' ∧ Alike pt kr dr s' t') := by
  unfold draw
  rw [entropy_alike h]
  match s.entropy with
  | [] => exact .inl ⟨rfl, rfl⟩
  | .value v :: rest => exact .inr (.inl ⟨v, _, _, rfl, rfl, h.setEntropy rest⟩)
  | .fail :: rest => exact .inr (.inr ⟨_, _, rfl, rfl, h.setEntropy rest⟩)

theorem drawBlindA_alike :
    (drawBlindA s = .waiting ∧ drawBlindA t = .waiting) ∨
    (∃ v s' t', drawBlindA s = .value v s' ∧ drawBlindA t = .value v t' ∧ Alike pt kr dr s' t') ∨
    (∃ s' t', drawBlindA s = .failed s' ∧ drawBlindA t = .failed t' ∧ Alike pt kr dr s' t') := by
  rw [drawBlindA, drawBlindA, h.rest State.blindA fun _ _ _ _ _ _ => rfl]
  cases s.blindA with
  | none => exact draw_alike h
  | some v => exact .inr (.inl ⟨v, s, t, rfl, rfl, h⟩)

theorem rnds_alike (d : RegNum) : OutcomesAlike (Alike pt kr dr) (exec (.rnds d) s) (exec (.rnds d) t) := by
  show OutcomesAlike _ (execRnds d s) (execRnds d t)
  unfold execRnds
  obtain ⟨hs, ht⟩ | ⟨v, s', t', hs, ht, h'⟩ | ⟨s', t', hs, ht, h'⟩ := draw_alike h <;> rw [hs, ht]
  · exact .next h
  · exact finish_alike h' (.ok (h'.setS d _))
  · exact finish_alike h' (.error _)

theorem bcommit_alike (hc : Congruence pt) (hdr : ∀ v, dr v v) (d : RegNum) :
    OutcomesAlike (Alike pt kr dr) (exec (.bcommit d) s) (exec (.bcommit d) t) := by
  show OutcomesAlike _ (execBcommit d s) (execBcommit d t)
  unfold execBcommit
  rw [needIssuerIdle_alike h]
  cases needIssuerIdle s with
  | error e => exact finish_alike h (.error e)
  | ok _ =>
    obtain ⟨hs, ht⟩ | ⟨k, s', t', hs, ht, h'⟩ | ⟨s', t', hs, ht, h'⟩ := draw_alike h <;> rw [hs, ht]
    · exact .next h
    · exact finish_alike h' (.ok ((h'.setIssuer (.commit (hdr k) (hc.mul (draw_lt k) hc.base))).setB d _))
    · exact finish_alike h' (.error _)

theorem bblind_alike (hc : Congruence pt) (hdr : ∀ v, dr v v) (d a b : RegNum) :
    OutcomesAlike (Alike pt kr dr) (exec (.bblind d a b) s) (exec (.bblind d a b) t) := by
  have operands := blindOperands_alike h hc a b
  show OutcomesAlike _ (execBblind d a b s) (execBblind d a b t)
  unfold execBblind
  generalize blindOperands a b s = x at operands ⊢
  generalize blindOperands a b t = y at operands ⊢
  cases operands with
  | error e => exact finish_alike h (.error e)
  | @ok x y operands =>
    obtain ⟨m, R, P⟩ := x
    obtain ⟨m', R', P'⟩ := y
    obtain ⟨rfl, hR, hP⟩ := operands
    obtain ⟨hs, ht⟩ | ⟨va, s', t', hs, ht, h'⟩ | ⟨s', t', hs, ht, h'⟩ := drawBlindA_alike h <;> simp only [hs, ht]
    · exact .next h
    · obtain ⟨hs, ht⟩ | ⟨vb, s'', t'', hs, ht, h''⟩ | ⟨s'', t'', hs, ht, h''⟩ := draw_alike h' <;> simp only [hs, ht]
      · exact .next (h'.setBlindA _)
      · have commitment : pt (blindedCommitment R P va vb) (blindedCommitment R' P' va vb) :=
          hc.add (hc.add hR (hc.mul (draw_lt va) hc.base)) (hc.mul (draw_lt vb) hP)
        rw [hc.compress commitment]
        exact finish_alike h'' (.ok ((h''.setUser (.blinded (hdr va) commitment)).setB d _))
      · exact finish_alike h'' (.error _)
    · exact finish_alike h' (.error _)

end Draws

/-! ### Every command -/

section Ends

variable {s t : State} (h : Alike pt kr dr s t)

include h

theorem fieldOp2_alike (op : Fp → Fp → Fp) (d a b : RegNum) :
    OutcomesAlike (Alike pt kr dr) (fieldOp2 op d a b s) (fieldOp2 op d a b t) := by
  rw [fieldOp2, fieldOp2, readF_alike h, readF_alike h]
  exact finish_alike h (.bind_same _ fun x => .bind_same _ fun y => .ok (h.setF d _))

theorem fieldOp1_alike (op : Fp → Fp) (d a : RegNum) :
    OutcomesAlike (Alike pt kr dr) (fieldOp1 op d a s) (fieldOp1 op d a t) := by
  rw [fieldOp1, fieldOp1, readF_alike h]
  exact finish_alike h (.bind_same _ fun x => .ok (h.setF d _))

theorem finv_alike (d a : RegNum) : OutcomesAlike (Alike pt kr dr) (execFinv d a s) (execFinv d a t) := by
  rw [execFinv, execFinv, readF_alike h]
  refine finish_alike h (.bind_same _ fun x => ?_)
  split
  · exact .error _
  · exact .ok (h.setF d _)

theorem scalarOp2_alike (op : Fq → Fq → Fq) (d a b : RegNum) :
    OutcomesAlike (Alike pt kr dr) (scalarOp2 op d a b s) (scalarOp2 op d a b t) := by
  rw [scalarOp2, scalarOp2, readS_alike h, readS_alike h]
  exact finish_alike h (.bind_same _ fun x => .bind_same _ fun y => .ok (h.setS d _))

theorem zeroize_alike : OutcomesAlike (Alike pt kr dr) (execZeroize s) (execZeroize t) := by
  rw [execZeroize, execZeroize, h.rest State.errs fun _ _ _ _ _ _ => rfl]
  exact finish_alike h (.ok (h.resetAll.map (fun u => { u with errs := s.errs }) fun _ _ _ _ _ _ => rfl))

theorem bdiscard_alike (m : Imm) : OutcomesAlike (Alike pt kr dr) (execBdiscard m s) (execBdiscard m t) := by
  rw [execBdiscard, execBdiscard]
  refine finish_alike h (.bind_same _ fun n => ?_)
  have issuerDone : Alike pt kr dr (if n % 2 = 1 then s.setIssuer .idle else s)
      (if n % 2 = 1 then t.setIssuer .idle else t) := by
    split
    · exact h.setIssuer .idle
    · exact h
  refine .ok ?_
  split
  · exact issuerDone.setUser .idle
  · exact issuerDone

end Ends

/-- The branches are the families of R69: a command reads the registers both states share, or points it treats alike, or
draws; only the last three read a secret. -/
theorem exec_alike (hc : Congruence pt) (hkr : ∀ k, kr k k) (hdr : ∀ v, dr v v) {i : Instr}
    (hi : showsSecret i = true → (∀ {k l}, kr k l → k = l) ∧ ∀ {v w}, dr v w → v = w) {s t : State}
    (h : Alike pt kr dr s t) : OutcomesAlike (Alike pt kr dr) (exec i s) (exec i t) := by
  cases i
  case nop => exact finish_alike h (.ok h)
  case zeroize => exact zeroize_alike h
  case hashb a =>
    rw [exec, exec, execHashb, execHashb, b_alike h]
    exact finish_alike h (.ok (h.setHd _))
  case hashbm a =>
    rw [exec, exec, execHashbm, execHashbm, message_alike h, b_alike h]
    exact finish_alike h (.bind_same _ fun m => .ok (h.setHd _))
  case fadd d a b | fsub d a b | fmul d a b => exact fieldOp2_alike h _ d a b
  case fneg d a | fsqrtc d a => exact fieldOp1_alike h _ d a
  case finv d a => exact finv_alike h d a
  case fld d a =>
    rw [exec, exec, execFld, execFld, b_alike h]
    exact finish_alike h (.ok (h.setF d _))
  case fst d a =>
    rw [exec, exec, execFst, execFst, readF_alike h]
    exact finish_alike h (.bind_same _ fun x => .ok (h.setB d _))
  case fldc d c => exact finish_alike h (.bind_same _ fun x => .ok (h.setF d _))
  case sadd d a b | ssub d a b | smul d a b => exact scalarOp2_alike h _ d a b
  case h2s d =>
    rw [exec, exec, execH2s, execH2s, h.rest State.hd fun _ _ _ _ _ _ => rfl]
    exact finish_alike h (.ok (h.setS d _))
  case rnds d => exact rnds_alike h d
  case sld d a =>
    rw [exec, exec, execSld, execSld, b_alike h]
    exact finish_alike h (.ok (h.setS d _))
  case sst d a =>
    rw [exec, exec, execSst, execSst, readS_alike h]
    exact finish_alike h (.bind_same _ fun x => .ok (h.setB d _))
  case padd d a b =>
    exact finish_alike h ((readP_alike h a).bind fun _ _ hx => (readP_alike h b).bind fun _ _ hy =>
      .ok (h.setP d (hc.add hx hy)))
  case pdbl d a => exact finish_alike h ((readP_alike h a).bind fun _ _ hx => .ok (h.setP d (hc.double hx)))
  case psmul d a b =>
    rw [exec, exec, execPsmul, execPsmul, readS_alike h]
    exact finish_alike h (.bind_same _ fun n => (readP_alike h b).bind fun _ _ hx =>
      .ok (h.setP d (hc.mul (fq_lt n) hx)))
  case psmulg d a =>
    rw [exec, exec, execPsmulg, execPsmulg, readS_alike h]
    exact finish_alike h (.bind_same _ fun n => .ok (h.setP d (hc.mul (fq_lt n) hc.base)))
  case peq a b =>
    refine finish_alike h ((readP_alike h a).bind fun _ _ hx => (readP_alike h b).bind fun _ _ hy => ?_)
    rw [hc.equal hx hy]
    exact .ok (h.setEq _)
  case pcmp d a =>
    refine finish_alike h ((readP_alike h a).bind fun _ _ hx => ?_)
    rw [hc.compress hx]
    exact .ok (h.setB d _)
  case pdec d a => exact finish_alike h ((pointOperand_alike h hc .sole a).bind fun _ _ hx => .ok (h.setP d hx))
  case pldc d c =>
    refine finish_alike h ?_
    cases hx : pointConstant c with
    | error e => exact .error e
    | ok x =>
      refine .ok (h.setP d ?_)
      obtain rfl | rfl := pointConstant_ok hx
      · exact hc.neutral
      · exact hc.base
  case kexpand a =>
    rw [exec, exec, execKexpand, execKexpand, needKlen_alike h, b_alike h]
    exact finish_alike h (.bind_same _ fun _ => .ok (h.setKey (hkr _)))
  case sign d a =>
    rw [exec, exec, execSign, execSign, needKlen_alike h, message_alike h, b_alike h]
    exact finish_alike h (.bind_same _ fun d => .bind_same _ fun _ => .bind_same _ fun m =>
      .ok ((h.setKey (hkr _)).setPair d _ _))
  case verify a b =>
    rw [exec, exec, execVerify, execVerify, needKlen_alike h, needSlen_alike h, message_alike h]
    refine finish_alike h (.bind_same _ fun b => .bind_same _ fun _ => .bind_same _ fun _ => .bind_same _ fun m => ?_)
    rw [b_alike h, b_alike h, b_alike h]
    exact .ok (h.setValid _)
  case bcommit d => exact bcommit_alike h hc hdr d
  case bblind d a b => exact bblind_alike h hc hdr d a b
  case bdiscard m => exact bdiscard_alike h m
  case kderive d =>
    refine finish_alike h ((readKey_alike h).bind fun k l hkl => ?_)
    obtain rfl := (hi rfl).1 hkl
    exact .ok ((h.setKp (hc.mul k.kx.isLt hc.base)).setB d _)
  case bsign d a =>
    rw [exec, exec, execBsign, execBsign, b_alike h]
    refine finish_alike h ((needCommit_alike h).bind fun ⟨ik, ir⟩ ⟨ik', ir'⟩ ⟨hik, hir⟩ =>
      (readKey_alike h).bind fun k l hkl => ?_)
    obtain rfl := (hi rfl).1 hkl
    obtain rfl := (hi rfl).2 hik
    exact .ok ((h.setIssuer (.signed hir)).setB d _)
  case bunblind d a =>
    rw [exec, exec, execBunblind, execBunblind, b_alike h]
    refine finish_alike h (.bind_same _ fun d => (needBlinded_alike h).bind fun ⟨ua, urp⟩ ⟨ua', urp'⟩ ⟨hua, hurp⟩ => ?_)
    obtain rfl := (hi rfl).2 hua
    simp only [hc.compress hurp]
    exact .ok ((h.setUser (.done hurp)).setPair d _ _)

end Sys2Proof.Machine
end

