-- ==== Sys2Proof/Proofs/AlikeSteps.lean ====
section
/-! What the host reads of two states that are alike but for what they hold is the same, and so is what a step does
(R16, R41): no step observes which quadruple stands for a point, no step takes a point off the curve, and no command but
`KDERIVE`, `BSIGN` and `BUNBLIND` shows a secret. -/

namespace Sys2Proof.Machine

variable {pt : Point → Point → Prop} {kr : KeyPair → KeyPair → Prop} {dr : Draw → Draw → Prop}

/-! ### What the host reads -/

theorem valid_related {α : Type} {rel : α → α → Prop} {r r' : Reg α} (h : r.Related rel r') : r'.valid = r.valid := by
  cases h <;> rfl

theorem issuerNumber_related {c c' : IssuerSession} (h : c.Related pt dr c') : c'.number = c.number := by
  cases h <;> rfl

theorem userNumber_related {c c' : UserSession} (h : c.Related pt dr c') : c'.number = c.number := by
  cases h <;> rfl

section View

variable {s t : State} (h : Alike pt kr dr s t)

include h

theorem busy_alike : t.busy = s.busy := h.rest State.busy fun _ _ _ _ _ _ => rfl

theorem statusWord_alike : statusWord t = statusWord s := by
  rw [statusWord, statusWord, valid_related h.key, valid_related h.kp, issuerNumber_related h.issuer,
    userNumber_related h.user, busy_alike h, h.rest State.eqFlag fun _ _ _ _ _ _ => rfl,
    h.rest State.validFlag fun _ _ _ _ _ _ => rfl]

theorem sameHostView_of_alike : sameHostView s t :=
  ⟨(statusWord_alike h).symm, (h.rest rcWord fun _ _ _ _ _ _ => rfl).symm,
    (h.rest errsWord fun _ _ _ _ _ _ => rfl).symm, (h.rest State.mlen fun _ _ _ _ _ _ => rfl).symm,
    (h.rest arglenWord fun _ _ _ _ _ _ => rfl).symm, (h.rest State.hd fun _ _ _ _ _ _ => rfl).symm,
    (h.rest State.bregs fun _ _ _ _ _ _ => rfl).symm, (h.rest State.msg fun _ _ _ _ _ _ => rfl).symm⟩

end View

/-- A location reads the same in states with the same view. -/
theorem readLoc_of_sameHostView {s t : State} (h : sameHostView s t) (l : Loc) : readLoc s l = readLoc t l := by
  obtain ⟨hstatus, hrc, herrs, hmlen, harglen, hhd, hbregs, hmsg⟩ := h
  cases l with
  | id | cmd | reserved => rfl
  | status => exact congrArg some hstatus
  | rc => exact congrArg some hrc
  | errs => exact congrArg some herrs
  | mlen => exact congrArg some hmlen
  | arglen => exact congrArg some harglen
  | hd k => rw [readLoc, readLoc, hhd]
  | b i k => rw [readLoc, readLoc, State.b, State.b, hbregs]
  | msg o => rw [readLoc, readLoc, hmsg]

/-- `BUSY` is bit 0 of `STATUS`, so the host sees it. -/
theorem busy_of_sameHostView {s t : State} (h : sameHostView s t) : s.busy = t.busy := by
  rw [← (statusWord_fields s).1, ← (statusWord_fields t).1, h.1]

/-- The answer to a read is a function of the view (R41). -/
theorem busRead_answer_of_sameHostView {s t : State} (h : sameHostView s t) (w : Width) (off : Offset) :
    (busRead w off s).answer = (busRead w off t).answer := by
  unfold busRead
  rw [busy_of_sameHostView h, readLoc_of_sameHostView h, h.1]
  split
  · split <;> rfl
  · split
    · split <;> rfl
    · rfl

/-! ### Bus accesses -/

section Bus

variable {s t : State} (h : Alike pt kr dr s t)

include h

theorem busyRefusal_alike : Alike pt kr dr (busyRefusal s) (busyRefusal t) :=
  h.map busyRefusal fun _ _ _ _ _ _ => rfl

theorem busRead_alike (w : Width) (off : Offset) : Alike pt kr dr (busRead w off s) (busRead w off t) := by
  unfold busRead
  rw [busy_alike h, statusWord_alike h, ← readLoc_of_sameHostView (sameHostView_of_alike h)]
  split
  · split
    · exact h.setAnswer _
    · exact busyRefusal_alike h
  · split
    · split <;> exact h.setAnswer _
    · exact h.setAnswer _

/-- A write is refused in both states, or stores the same. -/
theorem writeLoc_alike (w : Word) (l : Loc) :
    (writeLoc s w l = none ∧ writeLoc t w l = none) ∨
    ∃ s' t', writeLoc s w l = some s' ∧ writeLoc t w l = some t' ∧ Alike pt kr dr s' t' := by
  have stores (f : State → State) (hf : ∀ u pregs key kp issuer user,
      f (u.withHeld pregs key kp issuer user) = (f u).withHeld pregs key kp issuer user)
      (hw : ∀ u, writeLoc u w l = some (f u)) :
      ∃ s' t', writeLoc s w l = some s' ∧ writeLoc t w l = some t' ∧ Alike pt kr dr s' t' :=
    ⟨f s, f t, hw s, hw t, h.map f hf⟩
  cases l with
  | id | status | rc | reserved => exact .inl ⟨rfl, rfl⟩
  | cmd => exact .inr (stores (startCommand · w) (fun _ _ _ _ _ _ => rfl) fun _ => rfl)
  | errs => exact .inr (stores (·.clearErrs w) (fun _ _ _ _ _ _ => rfl) fun _ => rfl)
  | mlen => exact .inr (stores (·.setMlen w) (fun _ _ _ _ _ _ => rfl) fun _ => rfl)
  | arglen => exact .inr (stores (·.setArglen w) (fun _ _ _ _ _ _ => rfl) fun _ => rfl)
  | hd k => exact .inr (stores (fun u => u.setHd (setWord u.hd k w)) (fun _ _ _ _ _ _ => rfl) fun _ => rfl)
  | b i k => exact .inr (stores (fun u => u.setB i (setWord (u.b i) k w)) (fun _ _ _ _ _ _ => rfl) fun _ => rfl)
  | msg o =>
    exact .inr (stores (fun u => { u with msg := memWriteWord u.msg o w }) (fun _ _ _ _ _ _ => rfl) fun _ => rfl)

theorem busWrite_alike (w : Width) (off : Offset) (data : Word) :
    Alike pt kr dr (busWrite w off data s) (busWrite w off data t) := by
  unfold busWrite
  rw [busy_alike h]
  split
  · exact busyRefusal_alike h
  · split
    · obtain ⟨hs, ht⟩ | ⟨s', t', hs, ht, h'⟩ := writeLoc_alike h data (locate off.toNat) <;> rw [hs, ht]
      · exact h.setAnswer _
      · exact h'.setAnswer _
    · exact h.setAnswer _

end Bus

/-! ### Steps -/

/-- The core's move on states that agree on keys and draws: the same word in flight, the same command. -/
theorem runCore_alike (hc : Congruence pt) {s t : State} (h : Alike pt Eq Eq s t) :
    OutcomesAlike (Alike pt Eq Eq) (runCore s) (runCore t) := by
  unfold runCore
  rw [h.rest State.inflight fun _ _ _ _ _ _ => rfl]
  cases s.inflight with
  | none => exact .next h
  | some w =>
    dsimp only
    cases decode w with
    | error r => exact finish_alike h (.error _)
    | ok i => exact exec_alike hc (fun _ => rfl) (fun _ => rfl) (fun _ => ⟨id, id⟩) h

theorem step_alike (hc : Congruence pt) {s t : State} (h : Alike pt Eq Eq s t) :
    OutcomesAlike (Alike pt Eq Eq) (step s) (step t) := by
  unfold step
  rw [h.rest State.events fun _ _ _ _ _ _ => rfl]
  cases s.events with
  | nil => exact runCore_alike hc h
  | cons e rest =>
    have h := h.setEvents rest
    cases e with
    | coreRuns => exact runCore_alike hc h
    | read w off => exact .next (busRead_alike h w off)
    | write w off data => exact .next (busWrite_alike h w off data)
    | portAnswers a => exact .next (h.map (fun u => { u with entropy := u.entropy ++ [a] }) fun _ _ _ _ _ _ => rfl)
    | reset => exact .next h.resetAll

/-! ### Quadruples of one class (R16) -/

theorem samePoint_self {P : Point} (h : P.live Config.curve) : samePoint P P := ⟨h, h, rfl⟩

/-- The reference formulas compute on classes (R111, R112, R119), and so do `compress` and `equal` (R115, R116). -/
theorem samePoint_congruence : Congruence samePoint where
  add := fun ⟨lP, lP', hP⟩ ⟨lQ, lQ', hQ⟩ => by
    obtain ⟨l, c⟩ := pointAdd_class curve_nonSquare lP lQ
    obtain ⟨l', c'⟩ := pointAdd_class curve_nonSquare lP' lQ'
    exact ⟨l, l', by rw [c, c', hP, hQ]⟩
  double := fun ⟨lP, lP', hP⟩ => by
    obtain ⟨l, c⟩ := pointDouble_class curve_nonSquare lP
    obtain ⟨l', c'⟩ := pointDouble_class curve_nonSquare lP'
    exact ⟨l, l', by rw [c, c', hP]⟩
  mul := fun hn ⟨lP, lP', hP⟩ => by
    obtain ⟨l, c⟩ := pointMul_class curve_nonSquare lP _ hn
    obtain ⟨l', c'⟩ := pointMul_class curve_nonSquare lP' _ hn
    exact ⟨l, l', by rw [c, c', hP]⟩
  neutral := samePoint_self pointNeutral_live.1
  base := samePoint_self (pointBase_live curve_baseOk).1
  decompress := fun h => samePoint_self (decompress_some curve_nonSquare h).1
  compress := fun ⟨lP, lP', hP⟩ => (compress_inj curve_nonSquare lP lP').2 hP
  equal := fun ⟨lP, lP', hP⟩ ⟨lQ, lQ', hQ⟩ => by
    rw [Bool.eq_iff_iff, pointEqual_iff lP lQ, pointEqual_iff lP' lQ', hP, hQ]

theorem related_samePoint_iff {r r' : Reg Point} : r.Related samePoint r' ↔ samePointReg r r' := by
  constructor <;> (intro h; cases h)
  · exact .invalid
  · exact .holds ‹_›
  · exact .invalid
  · exact .holds ‹_›

theorem related_sameIssuer_iff {c c' : IssuerSession} : c.Related samePoint Eq c' ↔ sameIssuer c c' := by
  constructor
  · rintro (_ | ⟨rfl, hp⟩ | hp)
    exacts [.idle, .commit hp, .signed hp]
  · rintro (_ | hp | hp)
    exacts [.idle, .commit rfl hp, .signed hp]

theorem related_sameUser_iff {c c' : UserSession} : c.Related samePoint Eq c' ↔ sameUser c c' := by
  constructor
  · rintro (_ | ⟨rfl, hp⟩ | hp)
    exacts [.idle, .blinded hp, .done hp]
  · rintro (_ | hp | hp)
    exacts [.idle, .blinded rfl hp, .done hp]

theorem related_eq_iff {α : Type} {r r' : Reg α} : r.Related Eq r' ↔ r = r' := by
  constructor
  · rintro (_ | rfl)
    exacts [rfl, rfl]
  · rintro rfl
    cases r
    exacts [.invalid, .holds rfl]

/-- To differ at most in the quadruples is to be alike with equal keys and draws. -/
theorem alike_samePoint_iff {s t : State} : Alike samePoint Eq Eq s t ↔ sameButPoints s t := by
  constructor
  · intro h
    refine ⟨fun i => related_samePoint_iff.1 (h.pregs i), related_samePoint_iff.1 h.kp,
      related_sameIssuer_iff.1 h.issuer, related_sameUser_iff.1 h.user, ?_⟩
    obtain ⟨-, hkey, -, -, -⟩ := h
    obtain rfl := related_eq_iff.1 hkey
    rfl
  · rintro ⟨hpregs, hkp, hissuer, huser, rest⟩
    have key : s.key = t.key := by simpa using congrArg State.key rest
    have held : t = s.withHeld t.pregs t.key t.kp t.issuer t.user := by
      rw [← key]
      exact rest.symm
    rw [held]
    exact .intro (fun i => related_samePoint_iff.2 (hpregs i)) (related_eq_iff.2 key) (related_samePoint_iff.2 hkp)
      (related_sameIssuer_iff.2 hissuer) (related_sameUser_iff.2 huser)

/-- Settles O28: both halves hold of any two states that are alike with equal keys and draws (`sameHostView_of_alike`,
`step_alike`), for the operations on points compute on classes (`samePoint_congruence`). -/
theorem representativesUnobservable : Obligations.RepresentativesUnobservable := by
  refine ⟨fun s t h => ?_, fun s t s' h hs => ?_⟩
  · have h := alike_samePoint_iff.2 h
    exact ⟨sameHostView_of_alike h, (h.rest State.answer fun _ _ _ _ _ _ => rfl).symm⟩
  · obtain ⟨u, t', hu, ht, h'⟩ := step_alike samePoint_congruence (alike_samePoint_iff.2 h)
    obtain rfl := Host.Outcome.next.inj (hs.symm.trans hu)
    exact ⟨t', ht, alike_samePoint_iff.1 h'⟩

/-! ### Points of the curve (R15, R108) -/

theorem samePointReg_self_iff {r : Reg Point} : samePointReg r r ↔ r.live := by
  constructor
  · rintro (_ | ⟨live, -, -⟩)
    exacts [trivial, live]
  · cases r with
    | invalid => exact fun _ => .invalid
    | holds P => exact fun h => .holds (samePoint_self h)

theorem sameIssuer_self_iff {c : IssuerSession} : sameIssuer c c ↔ c.live := by
  constructor
  · rintro (_ | ⟨live, -, -⟩ | ⟨live, -, -⟩)
    exacts [trivial, live, live]
  · cases c with
    | idle => exact fun _ => .idle
    | commit k P => exact fun h => .commit (samePoint_self h)
    | signed P => exact fun h => .signed (samePoint_self h)

theorem sameUser_self_iff {c : UserSession} : sameUser c c ↔ c.live := by
  constructor
  · rintro (_ | ⟨live, -, -⟩ | ⟨live, -, -⟩)
    exacts [trivial, live, live]
  · cases c with
    | idle => exact fun _ => .idle
    | blinded a P => exact fun h => .blinded (samePoint_self h)
    | done P => exact fun h => .done (samePoint_self h)

/-- Only a state whose points are all on the curve is the same as itself but for the quadruples. -/
theorem sameButPoints_self_iff {s : State} : sameButPoints s s ↔ s.PointsLive :=
  ⟨fun ⟨hpregs, hkp, hissuer, huser, _⟩ => ⟨fun i => samePointReg_self_iff.1 (hpregs i), samePointReg_self_iff.1 hkp,
      sameIssuer_self_iff.1 hissuer, sameUser_self_iff.1 huser⟩,
    fun ⟨hpregs, hkp, hissuer, huser⟩ => ⟨fun i => samePointReg_self_iff.2 (hpregs i), samePointReg_self_iff.2 hkp,
      sameIssuer_self_iff.2 hissuer, sameUser_self_iff.2 huser, rfl⟩⟩

/-- Settles O11: by `sameButPoints_self_iff` it is the second half of `representativesUnobservable` on a state and
itself, the step of a state being one. -/
theorem everyStepKeepsPointsLive : Obligations.EveryStepKeepsPointsLive := by
  intro s t hs ht
  obtain ⟨t', ht', h⟩ := representativesUnobservable.2 s s t (sameButPoints_self_iff.2 hs) ht
  obtain rfl := Host.Outcome.next.inj (ht.symm.trans ht')
  exact sameButPoints_self_iff.1 h

/-! ### Secrets (R41) -/

theorem eq_congruence : Congruence Eq where
  add := fun hP hQ => by rw [hP, hQ]
  double := fun hP => by rw [hP]
  mul := fun _ hP => by rw [hP]
  neutral := rfl
  base := rfl
  decompress := fun _ => rfl
  compress := fun hP => by rw [hP]
  equal := fun hP hQ => by rw [hP, hQ]

/-- Other secrets in the same registers: any two keys and draws are related, and points only to themselves. -/
theorem withSecrets_alike (s : State) (k : KeyPair) (ik ua : Draw) :
    Alike Eq (fun _ _ => True) (fun _ _ => True) s (withSecrets s k ik ua) := by
  refine .intro (fun i => related_eq_iff.2 rfl) ?_ (related_eq_iff.2 rfl) ?_ ?_
  · cases s.key
    exacts [.invalid, .holds trivial]
  · cases s.issuer
    exacts [.idle, .commit trivial rfl, .signed rfl]
  · cases s.user
    exacts [.idle, .blinded trivial rfl, .done rfl]

/-- Settles O27: a read is a function of the view (`busRead_answer_of_sameHostView`), and states with other secrets are
alike, which every command that shows no secret keeps (`exec_alike`). -/
theorem secretsHaveNoReadPath : Obligations.SecretsHaveNoReadPath := by
  refine ⟨fun s t w off h => busRead_answer_of_sameHostView h w off,
    fun i s s' t' k ik ua hkderive hbsign hbunblind hs ht => ?_⟩
  have quiet : showsSecret i = false := by
    cases i
    case kderive d => exact absurd rfl (hkderive d)
    case bsign d a => exact absurd rfl (hbsign d a)
    case bunblind d a => exact absurd rfl (hbunblind d a)
    all_goals rfl
  obtain ⟨u, v, hu, hv, h⟩ := exec_alike (i := i) eq_congruence (fun _ => trivial) (fun _ => trivial)
    (fun shows => absurd (quiet.symm.trans shows) (by decide)) (withSecrets_alike s k ik ua)
  obtain rfl := Host.Outcome.next.inj (hs.symm.trans hu)
  obtain rfl := Host.Outcome.next.inj (ht.symm.trans hv)
  exact sameHostView_of_alike h

end Sys2Proof.Machine
end

