-- ==== Sys2Proof/Proofs/CommandEnds.lean ====
section
/-! The three ways a command goes, with what an abort and a wait write said exactly (R161, R162, R164, R188), and what
follows for `RC`, `ERRS` and the commands that wait. -/

namespace Sys2Proof.Machine

/-! ### An abort and a wait -/

/-- An abort is taken on the old state but for the answers a drawing command has consumed (R161, R170). -/
theorem abort_of_failure {i : Instr} {s v : State} {e : CmdError} (h : Failure i s e v) :
    ∃ n, (draws i = false → n = 0) ∧ abort e v = abort e { s with entropy := s.entropy.drop n } := by
  obtain ⟨-, rfl | ⟨hd, n, hv⟩⟩ := h
  · exact ⟨0, fun _ => rfl, rfl⟩
  · refine ⟨n, fun hd' => absurd (hd'.symm.trans hd) (by decide), ?_⟩
    rw [hv]
    rfl

/-- A waiting command has left the port without an answer (R188). -/
theorem state_of_waits {i : Instr} {s t : State} (h : Waits i s t) :
    draws i = true ∧ ∃ v, t = { s with entropy := [], blindA := v } := by
  obtain ⟨hd, ⟨he, rfl⟩ | ⟨_, _, _, v, _, _, _, _, _, _, _, _, rfl⟩⟩ := h
  · refine ⟨hd, t.blindA, ?_⟩
    rw [← he]
  · exact ⟨hd, some v, rfl⟩

/-- `exec_cases` with the states of an abort and of a wait written out. -/
theorem exec_ends {i : Instr} {s t : State} (h : exec i s = .next t) :
    (∃ u, Effect i s u ∧ t = complete u) ∨
    (∃ e n, (draws i = false → n = 0) ∧ t = abort e { s with entropy := s.entropy.drop n }) ∨
    (draws i = true ∧ ∃ v, t = { s with entropy := [], blindA := v }) := by
  obtain hu | ⟨e, v, hf, rfl⟩ | hw := exec_cases h
  · exact .inl hu
  · obtain ⟨n, hn, hv⟩ := abort_of_failure hf
    exact .inr (.inl ⟨e, n, hn, hv⟩)
  · exact .inr (.inr (state_of_waits hw))

/-- A command that is still in flight waits: only a wait leaves `BUSY` as it is (R188). -/
theorem waits_of_inflight {i : Instr} {s t : State} (h : exec i s = .next t) (ht : t.inflight ≠ none) :
    draws i = true ∧ ∃ v, t = { s with entropy := [], blindA := v } := by
  obtain ⟨u, -, rfl⟩ | ⟨e, n, -, rfl⟩ | hw := exec_ends h
  · exact absurd rfl ht
  · exact absurd rfl ht
  · exact hw

/-- No command writes `ERRS` before its end; `ZEROIZE` keeps it (R34, R153). -/
theorem effect_errs {i : Instr} {s u : State} (h : Effect i s u) : u.errs = s.errs := by
  cases h <;> rfl

/-! ### What a command writes besides its results -/

/-- Settles O7: the three ways are those of `exec_ends`; a command that completes leaves `ERRS` to `effect_errs`. -/
theorem abortWritesOnlyTheResult : Obligations.AbortWritesOnlyTheResult := by
  intro i s t h
  obtain ⟨u, hu, rfl⟩ | ⟨e, n, hn, rfl⟩ | hw := exec_ends h
  · exact .inl ⟨rfl, rfl, rfl, (complete_errs u).trans (effect_errs hu)⟩
  · obtain ⟨h1, h8⟩ := number_range e
    exact .inr (.inl ⟨e, n, h1, h8, hn, rfl⟩)
  · exact .inr (.inr hw)

/-- Settles O8: an error of a well-formed command is one of its codes by `Failure`, and a command that waits has not
ended. -/
theorem reportedCodes : Obligations.ReportedCodes := by
  intro i s t hwf hs h ht
  obtain ⟨u, -, rfl⟩ | ⟨e, v, ⟨hcode, -⟩, rfl⟩ | hw := exec_cases h
  · exact .inl rfl
  · obtain ⟨-, hill⟩ | hcode := hcode
    · rw [hwf] at hill
      cases hill
    · exact .inr ⟨e.number, hcode, rfl⟩
  · obtain ⟨-, v, rfl⟩ := state_of_waits hw
    exact absurd ht hs

/-- Settles O25: what is still in flight waits (`waits_of_inflight`), and a wait writes two fields. -/
theorem onlyDrawingCommandsWait : Obligations.OnlyDrawingCommandsWait := by
  intro i s t _ h ht
  obtain ⟨hd, v, rfl⟩ := waits_of_inflight h ht
  exact ⟨hd, rfl, rfl⟩

/-! ### `ERRS` (R34) -/

theorem code_toNat (e : CmdError) : e.code.toNat = e.number := by
  have := number_range e
  rw [CmdError.code, BitVec.toNat_ofNat, Nat.mod_eq_of_lt (by omega)]

theorem errsBit_getLsbD (e : CmdError) : e.errsBit.getLsbD e.number = true := by
  have hn : e.number < 32 := by have := number_range e; omega
  rw [CmdError.errsBit, BitVec.getLsbD_shiftLeft]
  simp [hn]

/-- A host write clears exactly the bits written 1 (R34). -/
theorem clearErrs_getLsbD (s : State) (d : Word) (n : Nat) :
    (s.clearErrs d).errs.getLsbD n = (s.errs.getLsbD n && !d.getLsbD n) := by
  rw [State.clearErrs_errs, BitVec.getLsbD_and, BitVec.getLsbD_not]
  by_cases hn : n < 32
  · simp [hn]
  · rw [BitVec.getLsbD_of_ge s.errs n (by omega), Bool.false_and, Bool.false_and]

theorem busRead_errs {s : State} (h : s.inflight = none) :
    busRead .word 0x0010 s = { s with answer := .okayData (errsWord s) } :=
  busRead_word h (by decide)

/-- An abort sets the bit of its code; a completed or a waiting command sets none. -/
theorem exec_errs {i : Instr} {s t : State} (h : exec i s = .next t) :
    (t.errs = s.errs ∧ (t.inflight = none → s.inflight ≠ none → t.rcCode = 0)) ∨
    ∃ e : CmdError, t.inflight = none ∧ t.rcCode = e.code ∧ t.errs = s.errs ||| e.errsBit := by
  obtain ⟨u, hu, rfl⟩ | ⟨e, n, -, rfl⟩ | ⟨-, v, rfl⟩ := exec_ends h
  · exact .inl ⟨(complete_errs u).trans (effect_errs hu), fun _ _ => rfl⟩
  · exact .inr ⟨e, rfl, rfl, rfl⟩
  · exact .inl ⟨rfl, fun ht hs => absurd ht hs⟩

/-- Settles O21: the host's side is the layout of the register, the commands' side `exec_errs`. -/
theorem errsRegister : Obligations.ErrsRegister := by
  refine ⟨fun s d h => ⟨?_, fun n => ?_⟩, fun i s t h => ?_, fun i s t hs h => ⟨fun ht => ?_, fun ht hrc => ?_,
    fun ht hrc => ?_⟩, fun s t h => ?_, rfl⟩
  · rw [busRead_errs h]
    rfl
  · rw [busWrite_errs d h]
    exact clearErrs_getLsbD s d n
  · obtain ⟨he, -⟩ | ⟨e, -, hrc, he⟩ := exec_errs h
    · exact .inl he
    · obtain ⟨h1, h8⟩ := number_range e
      exact .inr ⟨e.number, h1, h8, hrc, he⟩
  · obtain ⟨he, -⟩ | ⟨e, hnone, -, -⟩ := exec_errs h
    · exact he
    · exact absurd hnone ht
  · obtain ⟨he, -⟩ | ⟨e, -, hcode, -⟩ := exec_errs h
    · exact he
    · exact absurd (hcode.symm.trans hrc) (abort_code_ne e s)
  · obtain ⟨-, hdone⟩ | ⟨e, -, hcode, he⟩ := exec_errs h
    · exact absurd (hdone ht hs) hrc
    · rw [hcode, code_toNat, he]
      refine ⟨rfl, ?_⟩
      rw [BitVec.getLsbD_or, errsBit_getLsbD, Bool.or_true]
  · obtain rfl := Host.Outcome.next.inj ((exec_zeroize s).symm.trans h)
    rfl

end Sys2Proof.Machine
end

