-- ==== Sys2Proof/Proofs/Waiting.lean ====
section
/-! A command that has waited goes on as if the new answer had stood behind the earlier ones (R175, R188). -/

namespace Sys2Proof.Machine

theorem inflight_of_finish {s t : State} {r : Except CmdError State} (h : finish s r = .next t) :
    t.inflight = none := by
  obtain ⟨u, -, rfl⟩ | ⟨e, -, rfl⟩ := finish_next h <;> rfl

/-- A `BBLIND` that waits has consumed nothing, or the one answer it keeps (R188). -/
theorem bblind_waits {d a b : RegNum} {s t : State} (h : exec (.bblind d a b) s = .next t) (ht : t.inflight ≠ none) :
    (s.entropy = [] ∧ t = s) ∨
    ∃ v operands, blindOperands a b s = .ok operands ∧ s.blindA = none ∧ s.entropy = [.value v] ∧
      t = { s with entropy := [], blindA := some v } := by
  change execBblind d a b s = _ at h
  unfold execBblind at h
  cases ho : blindOperands a b s with
  | error e =>
    rw [ho] at h
    exact absurd (inflight_of_finish h) ht
  | ok operands =>
    rw [ho] at h
    obtain ⟨hb, he, hd⟩ | ⟨v, hb, hd⟩ | ⟨v, rest, hb, he, hd⟩ | ⟨rest, hb, he, hd⟩ := drawBlindA_cases s <;>
      simp only [hd] at h
    · exact .inl ⟨he, (Host.Outcome.next.inj h).symm⟩
    · obtain ⟨he, hd⟩ | ⟨vb, rest, he, hd⟩ | ⟨rest, he, hd⟩ := draw_cases s <;> simp only [hd] at h
      · refine .inl ⟨he, (Host.Outcome.next.inj h).symm.trans ?_⟩
        rw [← hb]
      · exact absurd (inflight_of_finish h) ht
      · exact absurd (inflight_of_finish h) ht
    · obtain ⟨hn, hd⟩ | ⟨vb, rest', hn, hd⟩ | ⟨rest', hn, hd⟩ := draw_cases { s with entropy := rest } <;>
        simp only [hd] at h
      · obtain rfl : rest = [] := hn
        exact .inr ⟨v, operands, rfl, hb, he, (Host.Outcome.next.inj h).symm⟩
      · exact absurd (inflight_of_finish h) ht
      · exact absurd (inflight_of_finish h) ht
    · exact absurd (inflight_of_finish h) ht

/-- The checks of `BBLIND` read neither the port nor the draw it keeps (R142). -/
theorem blindOperands_keeps (a b : RegNum) (s : State) (q : List PortAnswer) (v : Option Draw) :
    blindOperands a b { s with entropy := q, blindA := v } = blindOperands a b s := rfl

/-- With its second answer there, it makes no difference whether a `BBLIND` that has passed its checks kept the first or
finds it at the port: its end clears what it kept (R39, R142). -/
theorem bblind_resumes {d a b : RegNum} {s : State} {operands : List Byte × Point × Point} (v : Draw) (x : PortAnswer)
    (ho : blindOperands a b s = .ok operands) (hb : s.blindA = none) :
    exec (.bblind d a b) { s with entropy := [x], blindA := some v } =
      exec (.bblind d a b) { s with entropy := [.value v, x] } := by
  show execBblind d a b _ = execBblind d a b _
  simp only [execBblind, drawBlindA, hb, draw, blindOperands_keeps, ho]
  cases x <;> rfl

/-- Settles O26: a command that has consumed nothing is where it was, and of the others only `BBLIND` can wait, which
keeps its one answer (`bblind_waits`, `bblind_resumes`). -/
theorem waitingKeepsTheDraws : Obligations.WaitingKeepsTheDraws := by
  intro i s t x hs h ht
  obtain ⟨u, -, rfl⟩ | ⟨e, v, -, rfl⟩ | ⟨-, ⟨-, rfl⟩ | ⟨d, a, b, -, -, -, -, rfl, -⟩⟩ := exec_cases h
  · exact absurd rfl ht
  · exact absurd rfl ht
  · rfl
  · obtain ⟨-, rfl⟩ | ⟨v, operands, ho, hb, he, rfl⟩ := bblind_waits h ht
    · rfl
    · rw [he]
      exact bblind_resumes v x ho hb

end Sys2Proof.Machine
end

