-- ==== Sys2Proof/Proofs/Frames.lean ====
section
/-! What a command leaves unchanged: one lemma for each register file, the flags and contexts, the message and the port, for
every command; from them the frames of the six families (R80, R95, R107, R127, R139, R151); and the transitions of the two
session contexts (R140, R172). -/

namespace Sys2Proof.Machine

/-- A command completes with its effect, or writes its results and what it consumed of the port, and nothing else. -/
theorem exec_effect_or_result {i : Instr} {s t : State} (h : exec i s = .next t) :
    (∃ u, Effect i s u ∧ t = complete u) ∨
    ∃ inflight blindA rcCode rcInfo errs entropy, (draws i = false → entropy = s.entropy) ∧
      t = { s with inflight := inflight, blindA := blindA, rcCode := rcCode, rcInfo := rcInfo, errs := errs,
                   entropy := entropy } := by
  obtain hu | ⟨e, n, hn, rfl⟩ | ⟨hd, v, rfl⟩ := exec_ends h
  · exact .inl hu
  · exact .inr ⟨_, _, _, _, _, _, fun hd => by rw [hn hd, List.drop_zero], rfl⟩
  · exact .inr ⟨_, _, _, _, _, _, fun hd' => absurd (hd'.symm.trans hd) (by decide), rfl⟩

/-! ### Register files -/

theorem get_set_of_not_mem {α : Type} (v : Vector α 8) (x : α) {d r : RegNum} (hr : r ∉ [d]) :
    (v.set d.val x d.isLt).get r = v.get r := by
  rw [vector_get_set, if_neg]
  rintro rfl
  exact hr (List.mem_singleton.2 rfl)

theorem setPair_b_of_not_mem (s : State) (lo hi : Bytes32) {d r : RegNum} (hr : r ∉ [d, pairHigh d]) :
    (s.setPair d lo hi).b r = s.b r := by
  simp only [List.mem_cons, List.not_mem_nil, or_false, not_or] at hr
  rw [State.setPair_get, if_neg (Ne.symm hr.2), if_neg (Ne.symm hr.1)]

section Files

variable {i : Instr} {s u : State} (h : Effect i s u) (hz : i ≠ .zeroize)

include h hz

theorem effect_fregs {r : RegNum} (hr : r ∉ writesF i) : u.fregs.get r = s.fregs.get r := by
  cases h
  case zeroize => exact absurd rfl hz
  case fadd | fsub | fmul | fneg | finv | fsqrtc | fld | fldc => exact get_set_of_not_mem _ _ hr
  all_goals rfl

theorem effect_sregs {r : RegNum} (hr : r ∉ writesS i) : u.sregs.get r = s.sregs.get r := by
  cases h
  case zeroize => exact absurd rfl hz
  case sadd | ssub | smul | h2s | rnds | sld => exact get_set_of_not_mem _ _ hr
  all_goals rfl

theorem effect_pregs {r : RegNum} (hr : r ∉ writesP i) : u.pregs.get r = s.pregs.get r := by
  cases h
  case zeroize => exact absurd rfl hz
  case padd | pdbl | psmul | psmulg | pdec | pldc => exact get_set_of_not_mem _ _ hr
  all_goals rfl

theorem effect_b {r : RegNum} (hr : r ∉ writesB i) : u.b r = s.b r := by
  cases h
  case zeroize => exact absurd rfl hz
  case fst | sst | pcmp | kderive | bcommit | bblind | bsign => exact get_set_of_not_mem _ _ hr
  case sign | bunblind => exact setPair_b_of_not_mem _ _ _ hr
  all_goals rfl

/-- Which command writes which flag and context, and that none writes the message or the lengths (R19, R23, R25, R37). -/
theorem effect_writers :
    (u.eqFlag ≠ s.eqFlag → ∃ a b, i = .peq a b) ∧
    (u.validFlag ≠ s.validFlag → ∃ a b, i = .verify a b) ∧
    (u.key ≠ s.key → (∃ a, i = .kexpand a) ∨ ∃ d a, i = .sign d a) ∧
    (u.kp ≠ s.kp → (∃ a, i = .kexpand a) ∨ (∃ d a, i = .sign d a) ∨ ∃ d, i = .kderive d) ∧
    (u.hd ≠ s.hd → (∃ a, i = .hashb a) ∨ ∃ a, i = .hashbm a) ∧
    u.msg = s.msg ∧ u.mlen = s.mlen ∧ u.klen = s.klen ∧ u.slen = s.slen := by
  cases h
  case zeroize => exact absurd rfl hz
  all_goals simp [State.setPair]

omit hz

theorem effect_entropy (hd : draws i = false) : u.entropy = s.entropy := by
  cases h
  case rnds | bcommit | bblind => cases hd
  all_goals rfl

end Files

/-! ### The same of the next state -/

section Next

variable {i : Instr} {s t : State} (h : exec i s = .next t)

include h

theorem exec_entropy (hd : draws i = false) : t.entropy = s.entropy := by
  obtain ⟨u, hu, rfl⟩ | ⟨_, _, _, _, _, _, hq, rfl⟩ := exec_effect_or_result h
  · exact (complete_entropy u).trans (effect_entropy hu hd)
  · exact hq hd

variable (hz : i ≠ .zeroize)

include hz

theorem exec_fregs {r : RegNum} (hr : r ∉ writesF i) : t.fregs.get r = s.fregs.get r := by
  obtain ⟨u, hu, rfl⟩ | ⟨_, _, _, _, _, _, -, rfl⟩ := exec_effect_or_result h
  · exact effect_fregs hu hz hr
  · rfl

theorem exec_sregs {r : RegNum} (hr : r ∉ writesS i) : t.sregs.get r = s.sregs.get r := by
  obtain ⟨u, hu, rfl⟩ | ⟨_, _, _, _, _, _, -, rfl⟩ := exec_effect_or_result h
  · exact effect_sregs hu hz hr
  · rfl

theorem exec_pregs {r : RegNum} (hr : r ∉ writesP i) : t.pregs.get r = s.pregs.get r := by
  obtain ⟨u, hu, rfl⟩ | ⟨_, _, _, _, _, _, -, rfl⟩ := exec_effect_or_result h
  · exact effect_pregs hu hz hr
  · rfl

theorem exec_b {r : RegNum} (hr : r ∉ writesB i) : t.b r = s.b r := by
  obtain ⟨u, hu, rfl⟩ | ⟨_, _, _, _, _, _, -, rfl⟩ := exec_effect_or_result h
  · exact effect_b hu hz hr
  · rfl

end Next

/-- Settles O23: what completes is `effect_writers`; an abort and a wait write none of these. -/
theorem contextWriters : Obligations.ContextWriters := by
  intro i s t h hz
  obtain ⟨u, hu, rfl⟩ | ⟨_, _, _, _, _, _, -, rfl⟩ := exec_effect_or_result h
  · have writers := effect_writers hu hz
    exact writers
  · exact ⟨fun hne => absurd rfl hne, fun hne => absurd rfl hne, fun hne => absurd rfl hne, fun hne => absurd rfl hne,
      fun hne => absurd rfl hne, rfl, rfl, rfl, rfl⟩

/-- No command but `ZEROIZE` changes a byte of the message (R38). -/
theorem exec_memRead {i : Instr} {s t : State} (h : exec i s = .next t) (hz : i ≠ .zeroize) (a : Nat) :
    memRead t.msg a = memRead s.msg a := by
  obtain ⟨-, -, -, -, -, hmsg, -⟩ := contextWriters i s t h hz
  rw [hmsg]

/-! ### The frames of the families -/

/-- Only the system family has `ZEROIZE`. -/
theorem ne_zeroize_of_family {i : Instr} {f : Family} (hf : i.family = f) (hs : f ≠ .system) : i ≠ .zeroize := by
  rintro rfl
  exact hs hf.symm

/-- Only the scalar and the blind-signature families draw (R175). -/
theorem draws_of_family {i : Instr} {f : Family} (hf : i.family = f) (hs : f ≠ .scalar) (hb : f ≠ .blind) :
    draws i = false := by
  subst hf
  cases i
  case rnds => exact absurd rfl hs
  case bcommit | bblind => exact absurd rfl hb
  all_goals rfl

/-- A command that does not draw completes with its effect or writes its results alone. -/
theorem exec_effect_or_result_of_quiet {i : Instr} {s t : State} (h : exec i s = .next t) (hd : draws i = false) :
    (∃ u, Effect i s u ∧ t = complete u) ∨
    ∃ inflight blindA rcCode rcInfo errs,
      t = { s with inflight := inflight, blindA := blindA, rcCode := rcCode, rcInfo := rcInfo, errs := errs } := by
  obtain hu | ⟨_, _, _, _, _, _, hq, rfl⟩ := exec_effect_or_result h
  · exact .inl hu
  · obtain rfl := hq hd
    exact .inr ⟨_, _, _, _, _, rfl⟩

/-- Settles O55: the registers and the message by the lemmas above; every effect of the family writes one `F` or one `B`
register. -/
theorem fieldFrame : Obligations.FieldFrame := by
  intro i s t hf h
  have hz := ne_zeroize_of_family hf (by decide)
  refine ⟨fun r => exec_fregs h hz, fun r => exec_b h hz, exec_memRead h hz, ?_⟩
  obtain ⟨u, hu, rfl⟩ | ⟨_, _, _, _, _, rfl⟩ :=
    exec_effect_or_result_of_quiet h (draws_of_family hf (by decide) (by decide))
  · cases hu <;> cases hf <;> rfl
  · rfl

/-- Settles O56: as for the field commands, with the `S` file, and the port left to `RNDS`. -/
theorem scalarFrame : Obligations.ScalarFrame := by
  intro i s t hf h
  have hz := ne_zeroize_of_family hf (by decide)
  refine ⟨fun r => exec_sregs h hz, fun r => exec_b h hz, exec_memRead h hz, exec_entropy h, ?_⟩
  obtain ⟨u, hu, rfl⟩ | ⟨_, _, _, _, _, _, -, rfl⟩ := exec_effect_or_result h
  · cases hu <;> cases hf <;> rfl
  · rfl

/-- Settles O57: as for the field commands, with the `P` file, and `EQ` left to `PEQ` by `contextWriters`. -/
theorem pointFrame : Obligations.PointFrame := by
  intro i s t hf h
  have hz := ne_zeroize_of_family hf (by decide)
  obtain ⟨heq, -⟩ := contextWriters i s t h hz
  refine ⟨fun r => exec_pregs h hz, fun r => exec_b h hz, exec_memRead h hz,
    fun hpeq => not_not.1 (mt heq fun ⟨a, b, hi⟩ => hpeq a b hi), ?_⟩
  obtain ⟨u, hu, rfl⟩ | ⟨_, _, _, _, _, rfl⟩ :=
    exec_effect_or_result_of_quiet h (draws_of_family hf (by decide) (by decide))
  · cases hu <;> cases hf <;> rfl
  · rfl

/-- Settles O58: `VALID` and the key context by `contextWriters`; the effects of the family write byte registers, `VALID`
and the key context. -/
theorem keySignFrame : Obligations.KeySignFrame := by
  intro i s t hf h
  have hz := ne_zeroize_of_family hf (by decide)
  obtain ⟨-, hvalid, hkey, hkp, -⟩ := contextWriters i s t h hz
  refine ⟨fun r => exec_b h hz, exec_memRead h hz, fun hverify => not_not.1 (mt hvalid fun ⟨a, b, hi⟩ => hverify a b hi),
    ⟨?verify, ?kderive⟩, ?_⟩
  case verify =>
    rintro a b rfl
    exact ⟨not_not.1 (mt hkey (by simp)), not_not.1 (mt hkp (by simp))⟩
  case kderive =>
    rintro d rfl
    exact not_not.1 (mt hkey (by simp))
  obtain ⟨u, hu, rfl⟩ | ⟨_, _, _, _, _, rfl⟩ :=
    exec_effect_or_result_of_quiet h (draws_of_family hf (by decide) (by decide))
  · cases hu <;> cases hf <;> rfl
  · rfl

/-- Settles O60: the effects of `NOP`, `HASHB` and `HASHBM` write `HD` at most. -/
theorem systemFrame : Obligations.SystemFrame := by
  intro i s t hf hz h
  obtain ⟨-, -, -, -, hhd, -⟩ := contextWriters i s t h hz
  refine ⟨exec_memRead h hz, ?_, ?_⟩
  · rintro rfl
    exact not_not.1 (mt hhd (by simp))
  obtain ⟨u, hu, rfl⟩ | ⟨_, _, _, _, _, rfl⟩ :=
    exec_effect_or_result_of_quiet h (draws_of_family hf (by decide) (by decide))
  · cases hu
    case zeroize => exact absurd rfl hz
    case nop | hashb | hashbm => rfl
    all_goals cases hf
  · rfl

/-! ### The session contexts (R140, R172) -/

/-- The transitions of the issuer context (R26, R140). -/
theorem effect_issuer {i : Instr} {s u : State} (h : Effect i s u) (hz : i ≠ .zeroize) :
    u.issuer = s.issuer ∨
    (∃ d k R, i = .bcommit d ∧ s.issuer = .idle ∧ u.issuer = .commit k R) ∨
    (∃ d a k R, i = .bsign d a ∧ s.issuer = .commit k R ∧ u.issuer = .signed R) ∨
    (∃ m, i = .bdiscard m ∧ u.issuer = .idle) := by
  cases h
  case zeroize => exact absurd rfl hz
  case bcommit hi _ => exact .inr (.inl ⟨_, _, _, rfl, hi, rfl⟩)
  case bsign hi _ => exact .inr (.inr (.inl ⟨_, _, _, _, rfl, hi, rfl⟩))
  case bdiscard m _ =>
    by_cases hm : m.toNat % 2 = 1
    · exact .inr (.inr (.inr ⟨m, rfl, if_pos hm⟩))
    · exact .inl (if_neg hm)
  all_goals exact .inl rfl

/-- The transitions of the user context (R27, R140). -/
theorem effect_user {i : Instr} {s u : State} (h : Effect i s u) (hz : i ≠ .zeroize) :
    u.user = s.user ∨
    (∃ d a b v R, i = .bblind d a b ∧ s.user = .idle ∧ u.user = .blinded v R) ∨
    (∃ d a v R, i = .bunblind d a ∧ s.user = .blinded v R ∧ u.user = .done R) ∨
    (∃ m, i = .bdiscard m ∧ u.user = .idle) := by
  cases h
  case zeroize => exact absurd rfl hz
  case bblind hu _ _ _ _ => exact .inr (.inl ⟨_, _, _, _, _, rfl, hu, rfl⟩)
  case bunblind hu => exact .inr (.inr (.inl ⟨_, _, _, _, rfl, hu, rfl⟩))
  case bdiscard m _ =>
    by_cases hm : m.toNat / 2 % 2 = 1
    · exact .inr (.inr (.inr ⟨m, rfl, if_pos hm⟩))
    · exact .inl (if_neg hm)
  all_goals exact .inl rfl

/-- Settles O59: a context that changes does so by one of the transitions, and each names its command. -/
theorem blindFrame : Obligations.BlindFrame := by
  intro i s t hf h
  have hz := ne_zeroize_of_family hf (by decide)
  refine ⟨fun r => exec_b h hz, exec_memRead h hz, exec_entropy h, ?_⟩
  obtain ⟨u, hu, rfl⟩ | ⟨_, _, _, _, _, _, -, rfl⟩ := exec_effect_or_result h
  · have user := effect_user hu hz
    have issuer := effect_issuer hu hz
    refine ⟨?_, ?_, ?_, ?_, ?_⟩
    · rintro d rfl
      simpa using user
    · rintro d a rfl
      simpa using user
    · rintro d a b rfl
      simpa using issuer
    · rintro d a rfl
      simpa using issuer
    · cases hu <;> cases hf <;> rfl
  · exact ⟨fun _ _ => rfl, fun _ _ _ => rfl, fun _ _ _ _ => rfl, fun _ _ _ => rfl, rfl⟩

section Refused

variable {s : State}

theorem exec_bcommit_of_not_idle (d : RegNum) (h : s.issuer ≠ .idle) :
    exec (.bcommit d) s = .next (abort (.sessionState .issuer) s) := by
  rw [exec, execBcommit, needIssuerIdle_error.2 ⟨h, rfl⟩]
  rfl

theorem needCommit_of_number_ne (h : s.issuer.number ≠ 1) : needCommit s = .error (.sessionState .issuer) := by
  cases hc : needCommit s with
  | error e => rw [needCommit_error hc]
  | ok held => exact absurd (congrArg IssuerSession.number (needCommit_ok.1 hc)) h

theorem exec_bsign_of_not_commit (d a : RegNum) (h : s.issuer.number ≠ 1) :
    exec (.bsign d a) s = .next (abort (.sessionState .issuer) s) := by
  rw [exec, execBsign, needCommit_of_number_ne h, except_error_bind, finish]

theorem exec_bblind_of_error (d : RegNum) {a b : RegNum} {e : CmdError} (h : blindOperands a b s = .error e) :
    exec (.bblind d a b) s = .next (abort e s) := by
  rw [exec, execBblind, h]
  rfl

theorem exec_bblind_of_not_idle (d a b : RegNum) (h : s.user ≠ .idle) :
    exec (.bblind d a b) s = .next (abort (.sessionState .user) s) :=
  exec_bblind_of_error d (by rw [blindOperands, needUserIdle_error.2 ⟨h, rfl⟩, except_error_bind])

end Refused

/-- Settles O24: the transitions of a command that completes, an abort and a wait making none; and the four commands
outside their state. -/
theorem sessionMachine : Obligations.SessionMachine := by
  refine ⟨fun i s t h hz => ?_, fun d a b s => ⟨fun hi => ?_, exec_bsign_of_not_commit d a, fun hu => ?_, fun hu hd => ?_,
    rfl, rfl, rfl, rfl⟩⟩
  · obtain ⟨u, hu, rfl⟩ | ⟨_, _, _, _, _, _, -, rfl⟩ := exec_effect_or_result h
    · have issuer := effect_issuer hu hz
      have user := effect_user hu hz
      exact ⟨issuer, user⟩
    · exact ⟨.inl rfl, .inl rfl⟩
  · exact exec_bcommit_of_not_idle d fun idle => hi (congrArg IssuerSession.number idle)
  · exact exec_bblind_of_not_idle d a b fun idle => hu (congrArg UserSession.number idle)
  · exact exec_bunblind_of_not_blinded (by simpa [pairOk] using hd) hu

end Sys2Proof.Machine
end

