-- ==== Sys2Proof/Proofs/Invariant.lean ====
section
/-! The form of the state is kept by every step (R25, R26, R33, R34, R38): what a command, a bus access and the reset input
do to each part of it. -/

namespace Sys2Proof.Machine

/-! ### The parts that only some commands write -/

/-- `State.Inv.clamped` of a key register (R25). -/
def KeyClamped (key : Reg KeyPair) : Prop :=
  ∀ k, key = .holds k → 2 ^ 254 ≤ k.kx.toNat ∧ k.kx.toNat < 2 ^ 255 ∧ k.kx.toNat % 8 = 0

/-- `State.Inv.publicPoint` of the key context (R25). -/
def PublicPointOf (key : Reg KeyPair) (kp : Reg Point) : Prop :=
  ∀ Q, kp = .holds Q → ∃ k, key = .holds k ∧ Q.affine = affineTimes Config.curve k.kx.toNat Config.curve.base

/-- `State.Inv.commitment` of the issuer context (R26). -/
def CommitmentOf (issuer : IssuerSession) : Prop :=
  ∀ k R, issuer = .commit k R → R.affine = affineTimes Config.curve k.val Config.curve.base

/-- A new secret is an expanded seed, and those are clamped (R128). -/
theorem effect_clamped {i : Instr} {s u : State} (h : Effect i s u) (hs : KeyClamped s.key) : KeyClamped u.key := by
  cases h
  case zeroize => exact nofun
  case kexpand | sign =>
    intro k hk
    obtain rfl := Reg.holds.inj hk
    exact expandSecret_clamped _
  all_goals exact hs

/-- `KP` is written by `KDERIVE` from the key that stands there, and a new key makes it invalid (R129, R130, R131). -/
theorem effect_publicPoint {i : Instr} {s u : State} (h : Effect i s u) (hs : PublicPointOf s.key s.kp) :
    PublicPointOf u.key u.kp := by
  cases h
  case zeroize | kexpand | sign => exact nofun
  case kderive k hk =>
    intro Q hQ
    obtain rfl := Reg.holds.inj hQ
    exact ⟨k, hk, (base_mul k.kx.isLt).2⟩
  all_goals exact hs

/-- The committed state is entered by `BCOMMIT`, with the multiple of `G` by its nonce (R141). -/
theorem effect_commitment {i : Instr} {s u : State} (h : Effect i s u) (hs : CommitmentOf s.issuer) :
    CommitmentOf u.issuer := by
  cases h
  case zeroize | bsign => exact nofun
  case bcommit k rest hi he =>
    intro k' R hR
    obtain ⟨rfl, rfl⟩ := IssuerSession.commit.inj hR
    exact (base_mul (draw_lt k)).2
  case bdiscard m hm =>
    intro k R hR
    by_cases hbit : m.toNat % 2 = 1
    · exact nomatch (if_pos hbit).symm.trans hR
    · exact hs k R ((if_neg hbit).symm.trans hR)
  all_goals exact hs

/-! ### `ERRS` (R34) -/

theorem reserved_or {x y : Word} (hx : x &&& ~~~errsLive = 0) (hy : y &&& ~~~errsLive = 0) :
    (x ||| y) &&& ~~~errsLive = 0 := by
  rw [BitVec.and_comm, BitVec.and_or_distrib_left, BitVec.and_comm _ x, BitVec.and_comm _ y, hx, hy]
  rfl

theorem reserved_and {x : Word} (y : Word) (hx : x &&& ~~~errsLive = 0) : (x &&& y) &&& ~~~errsLive = 0 := by
  rw [BitVec.and_assoc, BitVec.and_comm y, ← BitVec.and_assoc, hx]
  exact BitVec.zero_and

theorem busviol_reserved : errsBusviol &&& ~~~errsLive = 0 := by decide

/-! ### Commands -/

theorem reset_inv : State.reset.Inv where
  canonical := rfl
  inBuffer := nofun
  errsReserved := by decide
  code := by decide
  clamped := nofun
  publicPoint := nofun
  commitment := nofun
  waiting := nofun

/-- The reset values, whatever the environment's fields are (R181). -/
theorem resetAll_inv (s : State) : (resetAll s).Inv := { reset_inv with }

theorem complete_inv {i : Instr} {s u : State} (hs : s.Inv) (h : Effect i s u) : (complete u).Inv := by
  have clamped := effect_clamped h hs.clamped
  have publicPoint := effect_publicPoint h hs.publicPoint
  have commitment := effect_commitment h hs.commitment
  have msg : u.msg = s.msg ∨ u.msg = [] := by
    by_cases hz : i = .zeroize
    · subst hz
      cases h
      exact .inr rfl
    · obtain ⟨-, -, -, -, -, hmsg, -⟩ := effect_writers h hz
      exact .inl hmsg
  exact {
    canonical := by
      rw [complete_msg]
      obtain hm | hm := msg <;> rw [hm]
      exacts [hs.canonical, rfl]
    inBuffer := by
      rw [complete_msg]
      obtain hm | hm := msg <;> rw [hm]
      exacts [hs.inBuffer, nofun]
    errsReserved := by
      rw [complete_errs, effect_errs h]
      exact hs.errsReserved
    code := by simp
    clamped := clamped
    publicPoint := publicPoint
    commitment := commitment
    waiting := nofun }

theorem abort_inv {s : State} (e : CmdError) (hs : s.Inv) : (abort e s).Inv :=
  { hs with
    errsReserved := errsBit_live e s.errs hs.errsReserved
    code := code_range e
    waiting := nofun }

/-- A draw is kept only by the `BBLIND` in flight, whose checks found the context idle. -/
theorem waits_inv {i : Instr} {s t : State} {w : Word} (hs : s.Inv) (hw : s.inflight = some w) (hd : decode w = .ok i)
    (h : Waits i s t) : t.Inv := by
  obtain ⟨-, ⟨-, rfl⟩ | ⟨d, a, b, v, m, R, P, rfl, hu, -, -, -, rfl⟩⟩ := h
  · exact hs
  · exact { hs with waiting := fun _ _ => ⟨hu, w, d, a, b, hw, hd⟩ }

theorem exec_inv {i : Instr} {s t : State} {w : Word} (hs : s.Inv) (hw : s.inflight = some w) (hd : decode w = .ok i)
    (h : exec i s = .next t) : t.Inv := by
  obtain ⟨u, hu, rfl⟩ | ⟨e, v, hf, rfl⟩ | hwait := exec_cases h
  · exact complete_inv hs hu
  · obtain ⟨n, -, hv⟩ := abort_of_failure hf
    rw [hv]
    exact abort_inv e { hs with }
  · exact waits_inv hs hw hd hwait

/-! ### Bus accesses -/

theorem busRead_inv {s : State} (hs : s.Inv) (w : Width) (off : Offset) : (busRead w off s).Inv := by
  obtain ⟨ans, h | ⟨-, h⟩⟩ := busRead_cases w off s <;> rw [h]
  · exact { hs with }
  · exact { hs with errsReserved := reserved_or hs.errsReserved busviol_reserved }

theorem stores_inv {s t : State} {data : Word} (hs : s.Inv) (h : Stores s data t) : t.Inv := by
  cases h with
  | cmd => exact { hs with waiting := nofun }
  | errs => exact { hs with errsReserved := reserved_and _ hs.errsReserved }
  | mlen | arglen | hd k | b i k => exact { hs with }
  | msg o hlo hhi =>
    refine { hs with
      canonical := memWriteWord_wf _ _ _ hs.canonical
      inBuffer := fun c hc => ?_ }
    obtain ⟨h1, h2⟩ | hc := mem_memWriteWord _ _ _ _ hc
    · omega
    · exact hs.inBuffer c hc

theorem busWrite_inv {s : State} (hs : s.Inv) (w : Width) (off : Offset) (data : Word) :
    (busWrite w off data s).Inv := by
  obtain ⟨-, h⟩ | ⟨-, h⟩ | ⟨-, t, ht, h⟩ := busWrite_cases w off data s <;> rw [h]
  · exact { hs with errsReserved := reserved_or hs.errsReserved busviol_reserved }
  · exact { hs with }
  · exact { stores_inv hs ht with }

/-! ### Steps -/

/-- Settles O9: one case for each thing a step can be (`step_cases`). -/
theorem everyStepKeepsInvariant : Obligations.EveryStepKeepsInvariant := by
  intro s t hs h
  have hs : State.Inv { s with events := s.events.tail } := { hs with }
  cases step_cases h with
  | idle hn => exact hs
  | illegal hw hd => exact abort_inv _ hs
  | command hw hd h => exact exec_inv hs hw hd h
  | read w off => exact busRead_inv hs w off
  | write w off data => exact busWrite_inv hs w off data
  | portAnswers a => exact { hs with }
  | reset => exact resetAll_inv _

/-- Settles O10: nothing is held at reset. -/
theorem resetMeetsInvariants : Obligations.ResetMeetsInvariants := by
  refine ⟨reset_inv, fun i => ?_, trivial, trivial, trivial⟩
  have hi : State.reset.pregs.get i = .invalid := by revert i; decide
  rw [hi]
  trivial

end Sys2Proof.Machine
end

