-- ==== Sys2Proof/Proofs/Steps.lean ====
section
/-! The step and the core's move (R22, R24, R159), and what reset leaves (R40, R181, R182). -/

namespace Sys2Proof.Machine

theorem step_of_no_event {s : State} (h : s.events = []) : step s = runCore s := by
  rw [step, h]

theorem step_of_event {s : State} {e : Event} {rest : List Event} (h : s.events = e :: rest) :
    step s = handle e { s with events := rest } := by
  rw [step, h]

/-- Settles O5: the core moves on both kinds of list, and its move runs the command (`runCore_command`). -/
theorem stepRunsTheCommand : Obligations.StepRunsTheCommand := by
  intro s w i hw hd
  refine ⟨fun he => ?_, fun rest he => ?_⟩
  · rw [step_of_no_event he]
    exact runCore_command hw hd
  · rw [step_of_event he]
    exact runCore_command (s := { s with events := rest }) hw hd

/-- An event comes to a next state (R159). -/
theorem handle_total (e : Event) (s : State) : ∃ t, handle e s = .next t := by
  cases e with
  | coreRuns => exact runCore_total s
  | read w off => exact ⟨_, rfl⟩
  | write w off data => exact ⟨_, rfl⟩
  | portAnswers a => exact ⟨_, rfl⟩
  | reset => exact ⟨_, rfl⟩

/-- Settles O6: the core's move and every event come to a next state. -/
theorem everyStepCompletes : Obligations.EveryStepCompletes := by
  intro s
  cases he : s.events with
  | nil =>
    rw [step_of_no_event he]
    exact runCore_total s
  | cons e rest =>
    rw [step_of_event he]
    exact handle_total e _

/-- Settles O13: the reset input leaves `resetAll`, which takes only the environment's fields from the old state. -/
theorem resetInput : Obligations.ResetInput :=
  fun s rest he => ⟨resetAll { s with events := rest }, step_of_event he, rfl⟩

/-- Settles O12: register by register; the words are those of the empty fields. -/
theorem resetState : Obligations.ResetState := by
  have files : ∀ i : RegNum, State.reset.fregs.get i = .invalid ∧ State.reset.sregs.get i = .invalid ∧
      State.reset.pregs.get i = .invalid ∧ State.reset.b i = 0 := by decide
  have idWord : (busRead .word 0x0000 State.reset).answer = .okayData 0x42534501#32 := by
    rw [busRead_word rfl (by decide)]
    rfl
  exact ⟨files, rfl, fun _ => rfl, rfl, rfl, rfl, rfl, statusWord_reset, by decide, by decide, rfl, by decide, idWord⟩

end Sys2Proof.Machine
end

