-- ==== Sys2Proof/Proofs/BusAccesses.lean ====
section
/-! The accesses of the host: while a command runs (R185), at the control registers (R30, R31, R33, R35, R36), and in the
windows of `HD`, the byte registers and the message (R38, R46, R47, R51). -/

namespace Sys2Proof.Machine

/-! ### While a command runs (R185) -/

/-- The one access a busy core answers is the 32-bit read at the offset of `STATUS` (log entry 11). -/
theorem busRead_busy_refused {s : State} {w : Width} {off : Offset} (h : s.inflight ≠ none)
    (hother : w ≠ .word ∨ off ≠ 0x0008#16) : busRead w off s = busyRefusal s := by
  rw [busRead, if_pos (busy_of h), if_neg]
  rintro ⟨hacc, hloc⟩
  obtain ⟨hword, -⟩ := acceptable_iff.1 hacc
  exact (hother.resolve_left (· hword)) (BitVec.eq_of_toNat_eq (locate_status hloc))

theorem busWrite_busy_refused {s : State} (h : s.inflight ≠ none) (w : Width) (off : Offset) (d : Word) :
    busWrite w off d s = busyRefusal s := by
  rw [busWrite, if_pos (busy_of h)]

/-- Settles O15: the read of `STATUS` is `busRead_status`, every other access `busyRefusal`. -/
theorem busyAccesses : Obligations.BusyAccesses := by
  intro s h
  refine ⟨busRead_status s, ?_, fun w off hother => busRead_busy_refused h hother, busWrite_busy_refused h⟩
  rw [(statusWord_fields s).1, busy_of h]

/-! ### Control registers -/

section Control

variable {s : State} (h : s.inflight = none) (d : Word)

include h

theorem busWrite_cmd : busWrite .word 0x0004 d s = { startCommand s d with answer := .okay } :=
  busWrite_word h (by decide) rfl

theorem busRead_cmd : busRead .word 0x0004 s = { s with answer := .error } := busRead_word h (by decide)

theorem busRead_id : busRead .word 0x0000 s = { s with answer := .okayData Config.coreId } := busRead_word h (by decide)

theorem busRead_rc : busRead .word 0x000c s = { s with answer := .okayData (rcWord s) } := busRead_word h (by decide)

theorem busWrite_mlen : busWrite .word 0x0014 d s = { s.setMlen d with answer := .okay } :=
  busWrite_word h (by decide) rfl

theorem busRead_mlen : busRead .word 0x0014 s = { s with answer := .okayData s.mlen } := busRead_word h (by decide)

theorem busRead_arglen : busRead .word 0x0018 s = { s with answer := .okayData (arglenWord s) } :=
  busRead_word h (by decide)

end Control

/-- Settles O14: the write of `CMD` is `startCommand`, whose word is in flight; a busy core refuses it. -/
theorem commandStart : Obligations.CommandStart := by
  intro s w
  refine ⟨fun h => ⟨busWrite_cmd h w, ?_, busRead_cmd h⟩, fun v hv => ?_⟩
  · rw [(statusWord_fields _).1, busWrite_cmd h w]
    rfl
  · rw [busWrite_busy_refused (by rw [hv]; exact nofun), busyRefusal_inflight, hv]

/-- The low half of a word, as `ARGLEN` reads it back (R36). -/
theorem lowHalf_bytes (d : Word) : (0#16 ++ d.extractLsb' 8 8 ++ d.extractLsb' 0 8 : Word) = d &&& 0x0000ffff#32 := by
  have mask : ∀ i < 32, (0x0000ffff#32).getLsbD i = decide (i < 16) := by decide
  refine BitVec.eq_of_getLsbD_eq fun i hi => ?_
  rw [BitVec.getLsbD_append, BitVec.getLsbD_append, BitVec.getLsbD_and, mask i hi, BitVec.getLsbD_extractLsb',
    BitVec.getLsbD_extractLsb', BitVec.getLsbD_zero]
  by_cases h8 : i < 8
  · simp [h8, show i < 16 by omega]
  · by_cases h16 : i < 16
    · simp [h8, h16, show i - 8 < 8 by omega, show 8 + (i - 8) = i by omega]
    · simp [h8, h16, show ¬ i - 8 < 8 by omega]

/-- Settles O22: register by register; `ARGLEN` reads back the two bytes it stored. -/
theorem controlRegisters : Obligations.ControlRegisters := by
  intro s d h
  refine ⟨?_, ?_, busWrite_mlen h d, ?_, busWrite_arglen d h, ?_⟩
  · rw [busRead_id h]
    rfl
  · rw [busRead_rc h]
    rfl
  · rw [busWrite_mlen h d, busRead_mlen (s := { s.setMlen d with answer := .okay }) h]
    rfl
  · rw [busWrite_arglen d h, busRead_arglen (s := { s.setArglen d with answer := .okay }) h, ← lowHalf_bytes]
    rfl

/-! ### Side effects (R51) -/

/-- A write with `BUSY = 0` is refused, or stores what the address map says. -/
theorem busWrite_idle_cases {s : State} (h : s.inflight = none) (w : Width) (off : Offset) (d : Word) :
    busWrite w off d s = { s with answer := .error } ∨
    ∃ t, writeLoc s d (locate off.toNat) = some t ∧ busWrite w off d s = { t with answer := .okay } := by
  rw [busWrite, not_busy h, if_neg (by decide)]
  split
  · cases ht : writeLoc s d (locate off.toNat) with
    | none => exact .inl rfl
    | some t => exact .inr ⟨t, rfl, rfl⟩
  · exact .inl rfl

/-- Elsewhere than at `CMD` and `ERRS` a write stores in the length registers, `HD`, a byte register or the message. -/
theorem writeLoc_stores_data {s t : State} {d : Word} {l : Loc} (h : writeLoc s d l = some t) (hcmd : l ≠ .cmd)
    (herrs : l ≠ .errs) :
    { t with mlen := s.mlen, klen := s.klen, slen := s.slen, hd := s.hd, bregs := s.bregs, msg := s.msg } = s := by
  cases l
  case cmd => exact absurd rfl hcmd
  case errs => exact absurd rfl herrs
  case id | status | rc | reserved => cases h
  case mlen | arglen | hd | b | msg =>
    obtain rfl := Option.some.inj h
    rfl

theorem offset_ne_of {off : Offset} {n : Nat} (hn : n < 2 ^ 16) (h : off ≠ BitVec.ofNat 16 n) : off.toNat ≠ n := by
  rintro rfl
  exact h (by rw [BitVec.ofNat_toNat, BitVec.setWidth_eq])

/-- Settles O17: a read gives an answer alone (`busRead_cases`), and a write elsewhere than at `CMD` and `ERRS` stores its
data alone (`writeLoc_stores_data`). -/
theorem accessSideEffects : Obligations.AccessSideEffects := by
  intro s h
  refine ⟨fun w off => ?_, busWrite_cmd h, fun d => busWrite_errs d h, fun w off d hcmd herrs => ?_⟩
  · obtain ⟨ans, hr | ⟨hb, -⟩⟩ := busRead_cases w off s
    · rw [hr]
    · rw [not_busy h] at hb
      cases hb
  · obtain hw | ⟨t, ht, hw⟩ := busWrite_idle_cases h w off d <;> rw [hw]
    have stored := writeLoc_stores_data ht (fun e => offset_ne_of (by decide) hcmd (locate_cmd e))
      (fun e => offset_ne_of (by decide) herrs (locate_errs e))
    exact congrArg (fun u : State => { u with answer := s.answer }) stored

/-! ### The windows (R46, R47) -/

section Words

variable {s : State} (h : s.inflight = none) {off : Offset}

include h

theorem busRead_b (i : RegNum) (k : Fin 8) (hoff : off.toNat = 0x0100 + 32 * i.val + 4 * k.val) :
    busRead .word off s = { s with answer := .okayData (getWord (s.b i) k.val) } := by
  rw [busRead_word h (by omega), hoff, locate_b]
  rfl

theorem busWrite_b (i : RegNum) (k : Fin 8) (hoff : off.toNat = 0x0100 + 32 * i.val + 4 * k.val) (d : Word) :
    busWrite .word off d s = { s.setB i (setWord (s.b i) k.val d) with answer := .okay } :=
  busWrite_word h (by omega) (by rw [hoff, locate_b]; rfl)

theorem busRead_hd (k : Fin 16) (hoff : off.toNat = 0x0040 + 4 * k.val) :
    busRead .word off s = { s with answer := .okayData (getWord s.hd k.val) } := by
  rw [busRead_word h (by omega), hoff, locate_hd]
  rfl

theorem busWrite_hd (k : Fin 16) (hoff : off.toNat = 0x0040 + 4 * k.val) (d : Word) :
    busWrite .word off d s = { s.setHd (setWord s.hd k.val d) with answer := .okay } :=
  busWrite_word h (by omega) (by rw [hoff, locate_hd]; rfl)

variable (ha : off.toNat % 4 = 0) (hlo : 0x1000 ≤ off.toNat) (hhi : off.toNat < 0x1000 + Config.msgMax)

include ha hlo hhi

theorem busRead_msg : busRead .word off s = { s with answer := .okayData (memReadWord s.msg off.toNat) } := by
  rw [busRead_word h ha, locate_msg_word hlo hhi]
  rfl

theorem busWrite_msg (d : Word) :
    busWrite .word off d s = { s with msg := memWriteWord s.msg off.toNat d, answer := .okay } :=
  busWrite_word h ha (by rw [locate_msg_word hlo hhi]; rfl)

end Words

/-- Settles O18: a write replaces one word of the register (`getWord_setWord_same`, `getWord_setWord_other`). -/
theorem byteRegisterWindow : Obligations.ByteRegisterWindow := by
  intro s h
  refine ⟨fun i k off hoff => ⟨by rw [busRead_b h i k hoff]; rfl, fun d => ?_⟩,
    fun k off hoff => ⟨by rw [busRead_hd h k hoff]; rfl, fun d => ?_⟩⟩
  · exact ⟨setWord (s.b i) k.val d, busWrite_b h i k hoff d, getWord_setWord_same _ _ _ (by omega),
      fun j hj => getWord_setWord_other _ _ _ _ (by omega) (by omega) (Fin.val_ne_of_ne hj)⟩
  · exact ⟨setWord s.hd k.val d, busWrite_hd h k hoff d, getWord_setWord_same _ _ _ (by omega),
      fun j hj => getWord_setWord_other _ _ _ _ (by omega) (by omega) (Fin.val_ne_of_ne hj)⟩

/-- The four bytes of a word, byte 0 in the low bits, are the word (R47). -/
theorem word_of_bytes (d : Word) : (byteOf d 3 ++ byteOf d 2 ++ byteOf d 1 ++ byteOf d 0 : Word) = d := by
  refine BitVec.eq_of_getLsbD_eq fun i hi => ?_
  simp only [byteOf, BitVec.getLsbD_append, BitVec.getLsbD_extractLsb']
  by_cases h8 : i < 8
  · simp [h8]
  · by_cases h16 : i - 8 < 8
    · simp [h8, h16, show 8 + (i - 8) = i by omega]
    · by_cases h24 : i - 8 - 8 < 8
      · simp [h8, h16, h24, show 16 + (i - 8 - 8) = i by omega]
      · simp [h8, h16, h24, show i - 8 - 8 - 8 < 8 by omega, show 24 + (i - 8 - 8 - 8) = i by omega]

theorem memRead_written {m : List Host.Cell} (hm : Memory.wf m = true) (a : Nat) (d : Word) (j : Fin 4) :
    memRead (memWriteWord m a d) (a + j.val) = byteOf d j.val := by
  rw [memRead_memWriteWord _ _ _ _ hm, if_pos (by omega), Nat.add_sub_cancel_left]

/-- A word written to a canonical buffer reads back (R38, R47). -/
theorem memReadWord_memWriteWord {m : List Host.Cell} (hm : Memory.wf m = true) (a : Nat) (d : Word) :
    memReadWord (memWriteWord m a d) a = d := by
  have h0 : memRead (memWriteWord m a d) a = byteOf d 0 := memRead_written hm a d 0
  have h1 : memRead (memWriteWord m a d) (a + 1) = byteOf d 1 := memRead_written hm a d 1
  have h2 : memRead (memWriteWord m a d) (a + 2) = byteOf d 2 := memRead_written hm a d 2
  have h3 : memRead (memWriteWord m a d) (a + 3) = byteOf d 3 := memRead_written hm a d 3
  rw [memReadWord, h3, h2, h1, h0, word_of_bytes]

/-- Settles O19: the size is `Config.msgMax_range`; the word is stored and read by `memWriteWord` and `memReadWord`, whose
bytes are those of `memRead_memWriteWord`. -/
theorem messageWindow : Obligations.MessageWindow := by
  refine ⟨Config.msgMax_range, fun s off d h hm ha hlo hhi => ?_⟩
  have hhi : off.toNat < 0x1000 + Config.msgMax := by omega
  refine ⟨memWriteWord s.msg off.toNat d, busWrite_msg h ha hlo hhi d, ?_, memRead_written hm off.toNat d,
    fun a hout => ?_⟩
  · rw [busWrite_msg h ha hlo hhi d,
      busRead_msg (s := { s with msg := memWriteWord s.msg off.toNat d, answer := .okay }) h ha hlo hhi]
    exact congrArg BusAnswer.okayData (memReadWord_memWriteWord hm off.toNat d)
  · rw [memRead_memWriteWord _ _ _ _ hm, if_neg (by omega)]

end Sys2Proof.Machine
end

