-- ==== Sys2Proof/Proofs/FieldMoves.lean ====
section
/-! `FINV`, the moves between bytes and field elements, and the random scalar (R85, R87 to R89, R101). -/

namespace Sys2Proof.Machine

/-! ### `FINV` (R85, R171) -/

theorem fpInv_val (x : Fp) : (fpInv x).val = x.val ^ (Config.p - 2) % Config.p := fpPow_val x _ (by decide)

theorem eq_fpOf_zero_iff {x : Fp} : x = fpOf 0 ↔ x.val = 0 := by
  rw [Fin.ext_iff, fpOf_val, Nat.zero_mod]

/-- The Fermat inverse of an element other than 0 is its inverse. -/
theorem fpInv_mul_val {x : Fp} (hx : x.val ≠ 0) : (fpInv x).val * x.val % Config.p = 1 := by
  have := fact_p_prime
  have hne : fpCast x ≠ 0 := by rwa [Ne, fpCast_eq_zero, eq_fpOf_zero_iff]
  have one : fpMul (fpInv x) x = fpOf 1 := by
    rw [← fpCast_inj, fpCast_mul, fpCast_inv, inv_mul_cancel₀ hne, fpCast_one]
  exact congrArg Fin.val one

section Ends

variable {s : State} {d a : RegNum}

theorem exec_finv_of_ne_zero {x : Fp} (hx : s.fregs.get a = .holds x) (h0 : x ≠ fpOf 0) :
    exec (.finv d a) s = .next { complete s with fregs := s.fregs.set d.val (.holds (fpInv x)) d.isLt } := by
  rw [exec, execFinv, readF_holds hx, except_ok_bind, if_neg h0, finish, complete_setF]

theorem exec_finv_of_zero {x : Fp} (hx : s.fregs.get a = .holds x) (h0 : x = fpOf 0) :
    exec (.finv d a) s = .next (abort .invertZero s) := by
  rw [exec, execFinv, readF_holds hx, except_ok_bind, if_pos h0, finish]

theorem exec_finv_of_invalid (ha : s.fregs.get a = .invalid) :
    exec (.finv d a) s = .next (abort (.uninitRegister .fRegister) s) :=
  finish_readReg_of_invalid ha _

theorem exec_fst_of_holds {x : Fp} (hx : s.fregs.get a = .holds x) :
    exec (.fst d a) s = .next { complete s with bregs := s.bregs.set d.val (enc32 x.val) d.isLt } := by
  rw [exec, execFst, readF_holds hx, except_ok_bind, finish_setB]

theorem exec_fst_of_invalid (ha : s.fregs.get a = .invalid) :
    exec (.fst d a) s = .next (abort (.uninitRegister .fRegister) s) :=
  finish_readReg_of_invalid ha _

theorem exec_fldc_of_ok {c : Imm} {v : Fp} (hc : fieldConstant c = .ok v) :
    exec (.fldc d c) s = .next { complete s with fregs := s.fregs.set d.val (.holds v) d.isLt } := by
  rw [exec, execFldc, hc, except_ok_bind, finish, complete_setF]

theorem exec_fldc_of_error {c : Imm} {e : CmdError} (hc : fieldConstant c = .error e) :
    exec (.fldc d c) s = .next (abort e s) := by
  rw [exec, execFldc, hc, except_error_bind, finish]

end Ends

/-- Settles O33: the three ends of `FINV`, with the power and the product of the inverse. -/
theorem fieldInvert : Obligations.FieldInvert := by
  intro s d a
  refine ⟨fun x hx h0 => ?_, fun x hx h0 => ?_, exec_finv_of_invalid⟩
  · exact ⟨fpInv x, fpInv_val x, fpInv_mul_val h0, exec_finv_of_ne_zero hx (mt eq_fpOf_zero_iff.1 h0)⟩
  · exact exec_finv_of_zero hx (eq_fpOf_zero_iff.2 h0)

/-! ### The moves (R87 to R89) -/

/-- R8 on `D_CONST`, in naturals. -/
theorem curveD_nonSquare : Config.curve.d.val ≠ 0 ∧ ∀ y : Fp, y.val * y.val % Config.p ≠ Config.curve.d.val :=
  ⟨mt eq_fpOf_zero_iff.2 curve_admissible.1, fun y hy => curve_nonSquare y (Fin.ext hy)⟩

theorem fieldConstant_of_gt {c : Imm} (hc : 3 < c.toNat) : fieldConstant c = .error (.illegalCommand .badImm) := by
  obtain ⟨n, hn⟩ : ∃ n, c.toNat = n + 4 := ⟨c.toNat - 4, by omega⟩
  rw [fieldConstant, hn]
  rfl

/-- The four constants of R89, by their selectors. -/
theorem fieldConstant_legal {c : Imm} (hc : c.toNat ≤ 3) :
    ∃ r : Fp, (c.toNat = 0 → r = fpOf 0) ∧ (c.toNat = 1 → r = fpOf 1) ∧ (c.toNat = 2 → r = Config.curve.d) ∧
      (c.toNat = 3 → r = Config.sqrtM1) ∧ fieldConstant c = .ok r := by
  rw [fieldConstant]
  generalize c.toNat = n at hc ⊢
  match n, hc with
  | 0, _ => exact ⟨fpOf 0, fun _ => rfl, nofun, nofun, nofun, rfl⟩
  | 1, _ => exact ⟨fpOf 1, nofun, fun _ => rfl, nofun, nofun, rfl⟩
  | 2, _ => exact ⟨Config.curve.d, nofun, nofun, fun _ => rfl, nofun, rfl⟩
  | 3, _ => exact ⟨Config.sqrtM1, nofun, nofun, nofun, fun _ => rfl, rfl⟩

/-- Settles O34: the store loses no bit of its element (`fp_lt`), and each selector has its constant
(`fieldConstant_legal`). -/
theorem fieldMoves : Obligations.FieldMoves := by
  refine ⟨curveD_nonSquare, fun s d a => ⟨?fld, fun x hx => ?fst, exec_fst_of_invalid, fun c hc => ?fldc, fun c hc => ?_⟩⟩
  case fld => exact ⟨fpOf (le (s.b a)), rfl, rfl⟩
  case fst => exact ⟨enc32 x.val, enc32_toNat (fp_lt x), exec_fst_of_holds hx⟩
  case fldc =>
    obtain ⟨r, h0, h1, h2, h3, hr⟩ := fieldConstant_legal hc
    refine ⟨r, ?_, ?_, ?_, ?_, exec_fldc_of_ok hr⟩
    · rintro rfl
      rw [h0 rfl]
      rfl
    · rintro rfl
      rw [h1 rfl]
      rfl
    · rintro rfl
      refine ⟨h2 rfl, fun hstd => ?_⟩
      rw [h2 rfl, hstd]
      rfl
    · rintro rfl
      rw [h3 rfl]
      rfl
  · exact exec_fldc_of_error (fieldConstant_of_gt hc)

/-! ### `RNDS` (R101, R170, R175, R188) -/

section Draws

variable {s : State} (d : RegNum) {rest : List PortAnswer}

theorem exec_rnds_of_value {v : Draw} (he : s.entropy = .value v :: rest) :
    exec (.rnds d) s =
      .next { complete s with sregs := s.sregs.set d.val (.holds v.toFq) d.isLt, entropy := rest } := by
  simp only [exec, execRnds, draw, he]
  rfl

theorem exec_rnds_of_fail (he : s.entropy = .fail :: rest) :
    exec (.rnds d) s = .next (abort .invalidScalarSource { s with entropy := rest }) := by
  simp only [exec, execRnds, draw, he, finish]

theorem exec_rnds_of_empty (he : s.entropy = []) : exec (.rnds d) s = .next s := by
  simp only [exec, execRnds, draw, he]

end Draws

/-- Settles O37: the three answers of the port; a draw is at least 1 by its type. -/
theorem randomScalar : Obligations.RandomScalar :=
  fun _ d => ⟨fun v _ he => ⟨v.toFq, rfl, v.pos, exec_rnds_of_value d he⟩, fun _ => exec_rnds_of_fail d,
    exec_rnds_of_empty d⟩

end Sys2Proof.Machine
end

