-- ==== Sys2Proof/Proofs/PointResults.lean ====
section
/-! The point commands whose result is a point: the sum, the double, the multiples, decompression and the constants (R113,
R114, R120, R121, R124, R125), each the reference function of its class. -/

namespace Sys2Proof.Machine

section Ends

variable {s : State} {d a b : RegNum}

theorem readP_holds {P : Point} (hP : s.pregs.get a = .holds P) : readP s a = .ok P := readReg_ok.2 hP

theorem readS_holds {n : Fq} (hn : s.sregs.get a = .holds n) : readS s a = .ok n := readReg_ok.2 hn

theorem finish_setP (s t : State) (Q : Point) : finish s (.ok (t.setP d Q)) =
    .next { complete t with pregs := t.pregs.set d.val (.holds Q) d.isLt } := rfl

theorem exec_padd_of_holds {P Q : Point} (hP : s.pregs.get a = .holds P) (hQ : s.pregs.get b = .holds Q) :
    exec (.padd d a b) s =
      .next { complete s with pregs := s.pregs.set d.val (.holds (pointAdd Config.curve P Q)) d.isLt } := by
  rw [exec, execPadd, readP_holds hP, except_ok_bind, readP_holds hQ, except_ok_bind, finish_setP]

theorem exec_padd_of_invalid (h : s.pregs.get a = .invalid ∨ s.pregs.get b = .invalid) :
    exec (.padd d a b) s = .next (abort (.uninitRegister .pRegister) s) :=
  finish_readReg_readReg_of_invalid h _

theorem exec_pdbl_of_holds {P : Point} (hP : s.pregs.get a = .holds P) :
    exec (.pdbl d a) s =
      .next { complete s with pregs := s.pregs.set d.val (.holds (pointDouble P)) d.isLt } := by
  rw [exec, execPdbl, readP_holds hP, except_ok_bind, finish_setP]

theorem exec_pdbl_of_invalid (h : s.pregs.get a = .invalid) :
    exec (.pdbl d a) s = .next (abort (.uninitRegister .pRegister) s) :=
  finish_readReg_of_invalid h _

theorem exec_psmul_of_holds {n : Fq} {P : Point} (hn : s.sregs.get a = .holds n) (hP : s.pregs.get b = .holds P) :
    exec (.psmul d a b) s =
      .next { complete s with pregs := s.pregs.set d.val (.holds (pointMul Config.curve n.val P)) d.isLt } := by
  rw [exec, execPsmul, readS_holds hn, except_ok_bind, readP_holds hP, except_ok_bind, finish_setP]

/-- The scalar is tested first, whatever the point register holds (R120, R169). -/
theorem exec_psmul_of_invalid_scalar (hn : s.sregs.get a = .invalid) :
    exec (.psmul d a b) s = .next (abort (.uninitRegister .sRegister) s) :=
  finish_readReg_of_invalid hn _

theorem exec_psmul_of_invalid_point {n : Fq} (hn : s.sregs.get a = .holds n) (hP : s.pregs.get b = .invalid) :
    exec (.psmul d a b) s = .next (abort (.uninitRegister .pRegister) s) := by
  rw [exec, execPsmul, readS_holds hn, except_ok_bind]
  exact finish_readReg_of_invalid hP _

theorem exec_psmulg_of_holds {n : Fq} (hn : s.sregs.get a = .holds n) :
    exec (.psmulg d a) s = .next { complete s with
      pregs := s.pregs.set d.val (.holds (pointMul Config.curve n.val (pointBase Config.curve))) d.isLt } := by
  rw [exec, execPsmulg, readS_holds hn, except_ok_bind, finish_setP]

theorem exec_psmulg_of_invalid (hn : s.sregs.get a = .invalid) :
    exec (.psmulg d a) s = .next (abort (.uninitRegister .sRegister) s) :=
  finish_readReg_of_invalid hn _

theorem exec_pdec_of_none (h : decompress Config.curve (s.b a) = none) :
    exec (.pdec d a) s = .next (abort (.invalidPoint .sole) s) := by
  rw [exec, execPdec, pointOperand_error.2 ⟨h, rfl⟩, except_error_bind, finish]

theorem exec_pldc_of_error {c : Imm} {e : CmdError} (hc : pointConstant c = .error e) :
    exec (.pldc d c) s = .next (abort e s) := by
  rw [exec, execPldc, hc, except_error_bind, finish]

end Ends

/-- Settles O38: the reference formulas give the sum and the double of the classes (`pointAdd_class`,
`pointDouble_class`). -/
theorem pointAddDouble : Obligations.PointAddDouble := by
  intro s d a b
  refine ⟨fun P Q hP hQ lP lQ => ?_, fun P hP lP => ?_, exec_padd_of_invalid, exec_pdbl_of_invalid⟩
  · obtain ⟨live, cls⟩ := pointAdd_class curve_nonSquare lP lQ
    exact ⟨_, live, cls, exec_padd_of_holds hP hQ⟩
  · obtain ⟨live, cls⟩ := pointDouble_class curve_nonSquare lP
    exact ⟨_, live, cls, exec_pdbl_of_holds hP⟩

/-- Settles O39: the double-and-add gives the multiple of the class (`pointMul_class`, `base_mul`). -/
theorem pointMultiply : Obligations.PointMultiply := by
  intro s d a b
  refine ⟨fun n P hn hP lP => ?_, fun n hn => ?_,
    fun hn => ⟨exec_psmul_of_invalid_scalar hn, exec_psmulg_of_invalid hn⟩, fun n => exec_psmul_of_invalid_point⟩
  · obtain ⟨live, cls⟩ := pointMul_class curve_nonSquare lP n.val (fq_lt n)
    exact ⟨_, live, cls, exec_psmul_of_holds hn hP⟩
  · obtain ⟨live, cls⟩ := base_mul (fq_lt n)
    exact ⟨_, live, cls, exec_psmulg_of_holds hn⟩

/-! ### Decompression (R117, R118, R124) -/

/-- Bytes that hold a point of the curve decompress to a quadruple of it. -/
theorem decompress_of_onCurve {b : Bytes32} {x y : Fp} (on : onCurve Config.curve (x, y))
    (hy : b.toNat % 2 ^ 255 = y.val) (hx : b.toNat / 2 ^ 255 = x.val % 2) :
    ∃ R, decompress Config.curve b = some R ∧ R.live Config.curve ∧ R.affine = (x, y) := by
  have hroot := recoverX_of_onCurve curve_nonSquare on
  rw [← hx] at hroot
  exact ⟨_, decompress_of hy hroot, affine_one_live on⟩

/-- What decompresses holds a point of the curve. -/
theorem decompress_eq_none {b : Bytes32} (h : ∀ x y : Fp, onCurve Config.curve (x, y) → b.toNat % 2 ^ 255 = y.val →
    b.toNat / 2 ^ 255 ≠ x.val % 2) : decompress Config.curve b = none := by
  cases hQ : decompress Config.curve b with
  | none => rfl
  | some Q =>
    obtain ⟨x, y, hy, hroot, -⟩ := decompress_eq_some hQ
    obtain ⟨on, parity⟩ := recoverX_some curve_nonSquare (top_bit_lt _ b.isLt) hroot
    exact absurd parity.symm (h x y on hy.symm)

/-- Settles O41: the two clauses are the two ways decompression goes. -/
theorem pointDecompress : Obligations.PointDecompress := by
  intro s d a
  refine ⟨fun x y on hy hx => ?_, fun h => exec_pdec_of_none (decompress_eq_none h)⟩
  obtain ⟨R, hR, live, cls⟩ := decompress_of_onCurve on hy hx
  exact ⟨R, live, cls, exec_pdec_of_decompress hR⟩

/-! ### Constants (R8, R125) -/

theorem pointConstant_of_gt {c : Imm} (hc : 1 < c.toNat) : pointConstant c = .error (.illegalCommand .badImm) := by
  obtain ⟨n, hn⟩ : ∃ n, c.toNat = n + 2 := ⟨c.toNat - 2, by omega⟩
  rw [pointConstant, hn]
  rfl

/-- Settles O42: the constants are live quadruples of their points (`pointNeutral_live`, `pointBase_live`), and the base
point has order `q` by `curve_baseOk`. -/
theorem pointConstants : Obligations.PointConstants := by
  intro s d
  obtain ⟨baseLive, baseClass⟩ := pointBase_live curve_baseOk
  obtain ⟨neutralLive, neutralClass⟩ := pointNeutral_live (C := Config.curve)
  obtain ⟨-, order, minimal⟩ := curve_baseOk
  refine ⟨⟨pointNeutral, neutralLive, neutralClass, rfl⟩, ⟨pointBase Config.curve, baseLive, baseClass, ?_, ?_, ?_, rfl⟩,
    fun c hc => exec_pldc_of_error (pointConstant_of_gt hc)⟩
  · rw [baseClass, order]
  · intro n hpos hlt
    rw [baseClass]
    exact minimal ⟨n, hlt⟩ hpos
  · intro hstd
    rw [baseClass, hstd]
    exact ⟨rfl, rfl⟩

end Sys2Proof.Machine
end

