-- ==== Sys2Proof/Proofs/KeySignResults.lean ====
section
/-! The key and signature commands: their ends (R128 to R132), that what `SIGN` leaves is accepted, and that the second half
of an accepted signature is one residue modulo `q` (R135). -/

namespace Sys2Proof.Machine

/-! ### The ends of the commands -/

section Ends

variable {s : State} {d a b : RegNum}

theorem needKlen_of {o : LengthOperand} (hk : s.klen = 32) : needKlen s o = .ok () := needKlen_ok.2 hk

theorem needSlen_of (hs : s.slen = 64) : needSlen s = .ok () := needSlen_ok.2 hs

theorem exec_kexpand_of_klen (hk : s.klen = 32) :
    exec (.kexpand a) s = .next { complete s with key := .holds (expandSecret (s.b a)), kp := .invalid } := by
  rw [exec, execKexpand, needKlen_of hk, except_ok_bind]
  rfl

theorem exec_kexpand_of_klen_ne (hk : s.klen ≠ 32) :
    exec (.kexpand a) s = .next (abort (.invalidLength .seed) s) := by
  rw [exec, execKexpand, needKlen_error.2 ⟨hk, rfl⟩, except_error_bind, finish]

theorem exec_kderive_of_holds {k : KeyPair} (hk : s.key = .holds k) :
    exec (.kderive d) s = .next (complete ((s.setKp (pointMul Config.curve k.kx.toNat (pointBase Config.curve))).setB d
      (compress (pointMul Config.curve k.kx.toNat (pointBase Config.curve))))) := by
  rw [exec, execKderive, readKey, readReg_bind_of_holds hk]
  rfl

theorem exec_kderive_of_invalid (hk : s.key = .invalid) :
    exec (.kderive d) s = .next (abort (.uninitRegister .keyContext) s) :=
  finish_readReg_of_invalid hk _

theorem exec_sign_completes (hd : d.val % 2 = 0) (hk : s.klen = 32) (hm : s.mlen.toNat ≤ Config.msgMax) :
    exec (.sign d a) s = .next (complete ((s.setKey (expandSecret (s.b a))).setPair d
      (signature (expandSecret (s.b a)) (msgBytes s.msg s.mlen.toNat)).1
      (signature (expandSecret (s.b a)) (msgBytes s.msg s.mlen.toNat)).2)) := by
  rw [exec, execSign, pairOperand_ok.2 ⟨pairOk_of_even hd, rfl⟩, except_ok_bind, needKlen_of hk, except_ok_bind,
    message_ok.2 ⟨hm, rfl⟩, except_ok_bind]
  rfl

/-- The pair is tested first, then the length of the seed, then that of the message (R131, R165). -/
theorem exec_sign_of_odd (hd : d.val % 2 = 1) :
    exec (.sign d a) s = .next (abort (.illegalCommand .badRegister) s) := by
  rw [exec, execSign, pairOperand_error.2 ⟨pairOk_of_odd hd, rfl⟩, except_error_bind, finish]

theorem exec_sign_of_klen_ne (hd : d.val % 2 = 0) (hk : s.klen ≠ 32) :
    exec (.sign d a) s = .next (abort (.invalidLength .seed) s) := by
  rw [exec, execSign, pairOperand_ok.2 ⟨pairOk_of_even hd, rfl⟩, except_ok_bind, needKlen_error.2 ⟨hk, rfl⟩,
    except_error_bind, finish]

theorem exec_sign_of_long (hd : d.val % 2 = 0) (hk : s.klen = 32) (hm : Config.msgMax < s.mlen.toNat) :
    exec (.sign d a) s = .next (abort .msgLength s) := by
  rw [exec, execSign, pairOperand_ok.2 ⟨pairOk_of_even hd, rfl⟩, except_ok_bind, needKlen_of hk, except_ok_bind,
    message_error.2 ⟨hm.not_ge, rfl⟩, except_error_bind, finish]

/-- The pair is tested first, then the lengths of the key, the signature and the message (R132, R165). -/
theorem exec_verify_of_odd (hb : b.val % 2 = 1) :
    exec (.verify a b) s = .next (abort (.illegalCommand .badRegister) s) := by
  rw [exec, execVerify, pairOperand_error.2 ⟨pairOk_of_odd hb, rfl⟩, except_error_bind, finish]

theorem exec_verify_of_klen_ne (hb : b.val % 2 = 0) (hk : s.klen ≠ 32) :
    exec (.verify a b) s = .next (abort (.invalidLength .key) s) := by
  rw [exec, execVerify, pairOperand_ok.2 ⟨pairOk_of_even hb, rfl⟩, except_ok_bind, needKlen_error.2 ⟨hk, rfl⟩,
    except_error_bind, finish]

theorem exec_verify_of_slen_ne (hb : b.val % 2 = 0) (hk : s.klen = 32) (hs : s.slen ≠ 64) :
    exec (.verify a b) s = .next (abort (.invalidLength .signature) s) := by
  rw [exec, execVerify, pairOperand_ok.2 ⟨pairOk_of_even hb, rfl⟩, except_ok_bind, needKlen_of hk, except_ok_bind,
    needSlen_error.2 ⟨hs, rfl⟩, except_error_bind, finish]

theorem exec_verify_of_long (hb : b.val % 2 = 0) (hk : s.klen = 32) (hs : s.slen = 64)
    (hm : Config.msgMax < s.mlen.toNat) : exec (.verify a b) s = .next (abort .msgLength s) := by
  rw [exec, execVerify, pairOperand_ok.2 ⟨pairOk_of_even hb, rfl⟩, except_ok_bind, needKlen_of hk, except_ok_bind,
    needSlen_of hs, except_ok_bind, message_error.2 ⟨hm.not_ge, rfl⟩, except_error_bind, finish]

end Ends

/-! ### Keys (R128 to R130) -/

/-- Clamping a seed's hash reads its low 254 bits only, so the half it is taken from makes no difference (R128). -/
theorem expandSecret_kx_toNat (seed : Bytes32) :
    (expandSecret seed).kx.toNat = (Config.hash (bytes32 seed)).toNat % 2 ^ 254
      - (Config.hash (bytes32 seed)).toNat % 8 + 2 ^ 254 := by
  have low : ((Config.hash (bytes32 seed)).extractLsb' 0 256).toNat = (Config.hash (bytes32 seed)).toNat % 2 ^ 256 := by
    rw [BitVec.extractLsb'_toNat, Nat.shiftRight_zero]
  simp only [expandSecret, le, low]
  generalize (Config.hash (bytes32 seed)).toNat = n
  obtain ⟨-, hlt, -⟩ := clamp_range n
  rw [Nat.mod_mod_of_dvd n (show 2 ^ 254 ∣ 2 ^ 256 by decide), Nat.mod_mod_of_dvd n (show 8 ∣ 2 ^ 256 by decide),
    BitVec.toNat_ofNat, Nat.mod_eq_of_lt (hlt.trans (by decide))]

/-- Settles O44: the key is `expandSecret`, the public point the multiple of `G` (`base_mul`). -/
theorem keyExpandDerive : Obligations.KeyExpandDerive := by
  intro s d a
  refine ⟨fun hk => ⟨expandSecret (s.b a), expandSecret_kx_toNat _, rfl, exec_kexpand_of_klen hk⟩,
    exec_kexpand_of_klen_ne, fun k hk => ?_, exec_kderive_of_invalid⟩
  obtain ⟨live, cls⟩ := base_mul k.kx.isLt
  exact ⟨_, live, cls, exec_kderive_of_holds hk⟩

/-! ### Signatures (R131, R132) -/

/-- The compression of a multiple of `G` is that of its class (R116). -/
theorem compress_base_mul {n : Nat} (hn : n < 2 ^ 256) :
    compress (pointMul Config.curve n (pointBase Config.curve)) =
      compressAffine (affineTimes Config.curve n Config.curve.base) := by
  rw [compress, (base_mul hn).2]

/-- Settles O45: the two halves are those of `signature`, none of whose numbers loses a bit. -/
theorem signResult : Obligations.SignResult := by
  intro s d a
  refine ⟨exec_sign_of_odd, fun hd hk hm => ?_, exec_sign_of_klen_ne, exec_sign_of_long⟩
  exact ⟨expandSecret (s.b a), (signature (expandSecret (s.b a)) (msgBytes s.msg s.mlen.toNat)).2,
    msgBytes s.msg s.mlen.toNat, _, _, _, rfl, exec_kexpand_of_klen hk, rfl, compress_base_mul (mod_q_lt _), rfl,
    enc32_toNat (mod_q_lt _), exec_sign_completes hd hk hm⟩

/-- Settles O46: the answer is `accepts`, which `accepts_iff` reads in classes. -/
theorem verifyResult : Obligations.VerifyResult := by
  intro s a b
  refine ⟨exec_verify_of_odd, fun hb hk hs hm => ?_, exec_verify_of_klen_ne, exec_verify_of_slen_ne, exec_verify_of_long⟩
  exact ⟨_, verify_completes hb hk hs hm, accepts_iff⟩

/-! ### What `VERIFY` accepts (R135) -/

/-- Two compressed points and a second half that meet the equation of R132 are accepted. -/
theorem accepts_of_equation {A R : Point} {sb : Bytes32} {m : List Byte} (lA : A.live Config.curve)
    (lR : R.live Config.curve) (h : affineTimes Config.curve sb.toNat Config.curve.base =
      affineAdd Config.curve R.affine (affineTimes Config.curve (hashToScalar (compress R) m).val A.affine)) :
    accepts (compress A) (compress R) sb m = true := by
  obtain ⟨A', hA, -, cA⟩ := decompress_compress curve_nonSquare lA
  obtain ⟨R', hR, -, cR⟩ := decompress_compress curve_nonSquare lR
  exact accepts_iff.2 ⟨A', R', hA, hR, by rw [cA, cR, h]⟩

/-- The equation of a signature in multiples of `G` (R131). -/
theorem signature_equation (r h kx : Nat) :
    affineTimes Config.curve ((r + h * kx) % Config.q) Config.curve.base =
      affineAdd Config.curve (affineTimes Config.curve r Config.curve.base)
        (affineTimes Config.curve h (affineTimes Config.curve kx Config.curve.base)) := by
  rw [affineTimes_base_mod curve_nonSquare curve_baseOk, affineTimes_add curve_nonSquare base_on,
    affineTimes_mul curve_nonSquare base_on]

/-- The signature by a key is accepted under the public key of its secret, for every message (R135). -/
theorem accepts_signature (k : KeyPair) (m : List Byte) :
    accepts (compress (pointMul Config.curve k.kx.toNat (pointBase Config.curve))) (signature k m).1 (signature k m).2 m =
      true := by
  obtain ⟨lA, cA⟩ := base_mul k.kx.isLt
  obtain ⟨lR, cR⟩ := base_mul (fq_lt (hashToScalar k.kpfx m))
  refine accepts_of_equation lA lR ?_
  rw [cA, cR, signature, enc32_toNat (mod_q_lt _)]
  exact signature_equation _ _ _

/-- What `SIGN` leaves for `KDERIVE` and `VERIFY` to read. -/
theorem sign_leaves {s t : State} {d a : RegNum} (hd : d.val % 2 = 0) (hk : s.klen = 32)
    (hm : s.mlen.toNat ≤ Config.msgMax) (h : exec (.sign d a) s = .next t) :
    ∃ k, t.key = .holds k ∧ t.b d = (signature k (msgBytes s.msg s.mlen.toNat)).1 ∧
      t.b (pairHigh d) = (signature k (msgBytes s.msg s.mlen.toNat)).2 := by
  obtain rfl := Host.Outcome.next.inj ((exec_sign_completes hd hk hm).symm.trans h)
  refine ⟨expandSecret (s.b a), rfl, ?_, ?_⟩
  · rw [complete_b, State.setPair_get, if_neg (pairHigh_ne d), if_pos rfl]
  · rw [complete_b, State.setPair_get, if_pos rfl]

theorem kderive_leaves {s t : State} {e : RegNum} {k : KeyPair} (hk : s.key = .holds k)
    (h : exec (.kderive e) s = .next t) :
    t.b e = compress (pointMul Config.curve k.kx.toNat (pointBase Config.curve)) := by
  obtain rfl := Host.Outcome.next.inj ((exec_kderive_of_holds hk).symm.trans h)
  rw [complete_b, b_setB_same]

/-- Settles O47: `KDERIVE` leaves the signature's pair alone, and neither command the message and the lengths, so `VERIFY`
is given what `SIGN` computed (`accepts_signature`). -/
theorem signatureAccepted : Obligations.SignatureAccepted := by
  intro s t u d a e hd hed hep hk hs hm hsign hkderive
  obtain ⟨-, -, -, -, -, tmsg, tmlen, tklen, tslen⟩ := contextWriters _ s t hsign (by simp)
  obtain ⟨-, -, -, -, -, umsg, umlen, uklen, uslen⟩ := contextWriters _ t u hkderive (by simp)
  obtain ⟨k, hkey, hlo, hhi⟩ := sign_leaves hd hk hm hsign
  have kept {r : RegNum} (hr : e ≠ r) : u.b r = t.b r :=
    exec_b hkderive (by simp) (by simpa [writesB] using hr.symm)
  refine ⟨_, verify_completes hd (by rw [uklen, tklen, hk]) (by rw [uslen, tslen, hs]) (by rwa [umlen, tmlen]), rfl, ?_⟩
  rw [complete_validFlag, State.setValid_validFlag, kept hed, kept hep, hlo, hhi, kderive_leaves hkey hkderive, umsg, tmsg,
    umlen, tmlen]
  exact accepts_signature k _

/-- Settles O48: with the key, the first half and the message fixed, the equation of R132 fixes the multiple of `G` by the
second half, and with it the residue (`base_times_inj`). -/
theorem scalarHalfDecides : Obligations.ScalarHalfDecides := by
  intro s s' t a b hb hkey hfirst hmlen hmsg hk hs hk' hs' hm h hvalid
  obtain rfl := Host.Outcome.next.inj ((verify_completes hb hk hs hm).symm.trans h)
  obtain ⟨A, R, hA, hR, heq⟩ := accepts_iff.1 hvalid
  refine ⟨_, verify_completes hb hk' hs' (by rwa [hmlen]), rfl, ?_⟩
  rw [complete_validFlag, State.setValid_validFlag, accepts_iff, hkey, hfirst, hmlen, hmsg,
    ← base_times_inj curve_nonSquare curve_baseOk, heq]
  constructor
  · rintro ⟨A', R', hA', hR', heq'⟩
    obtain rfl := Option.some.inj (hA.symm.trans hA')
    obtain rfl := Option.some.inj (hR.symm.trans hR')
    exact heq'
  · exact fun heq' => ⟨A, R, hA, hR, heq'⟩

end Sys2Proof.Machine
end

