-- ==== Sys2Proof/Proofs/BlindResults.lean ====
section
/-! The blind-signature commands up to `BSIGN`: their ends (R141 to R143, R165), and the correctness of the protocol
(R146). -/

namespace Sys2Proof.Machine

/-! ### `BCOMMIT` (R141) -/

section Commit

variable {s : State} {d : RegNum} {rest : List PortAnswer} (hi : s.issuer = .idle)

include hi

theorem exec_bcommit_of_fail (he : s.entropy = .fail :: rest) :
    exec (.bcommit d) s = .next (abort .invalidScalarSource { s with entropy := rest }) := by
  simp only [exec, execBcommit, needIssuerIdle, hi, draw, he, finish]

theorem exec_bcommit_of_empty (he : s.entropy = []) : exec (.bcommit d) s = .next s := by
  simp only [exec, execBcommit, needIssuerIdle, hi, draw, he]

end Commit

/-- Settles O49: the three answers of the port, the value's commitment by `base_mul`. -/
theorem commitResult : Obligations.CommitResult := by
  intro s d hi
  refine ⟨fun k rest he => ?_, fun rest => exec_bcommit_of_fail hi, exec_bcommit_of_empty hi⟩
  obtain ⟨live, cls⟩ := base_mul (draw_lt k)
  exact ⟨_, live, cls, bcommit_completes hi he⟩

/-! ### `BBLIND` (R142, R165) -/

section Blind

variable {s : State} {d a b : RegNum} (hu : s.user = .idle)

include hu

theorem blindOperands_of_long (hm : Config.msgMax < s.mlen.toNat) : blindOperands a b s = .error .msgLength := by
  rw [blindOperands, needUserIdle, hu]
  dsimp only
  rw [except_ok_bind, message_error.2 ⟨hm.not_ge, rfl⟩, except_error_bind]

variable (hm : s.mlen.toNat ≤ Config.msgMax)

include hm

theorem blindOperands_of_commitment_none (hR : decompress Config.curve (s.b a) = none) :
    blindOperands a b s = .error (.invalidPoint .ra) := by
  rw [blindOperands, needUserIdle, hu]
  dsimp only
  rw [except_ok_bind, message_ok.2 ⟨hm, rfl⟩, except_ok_bind, pointOperand_error.2 ⟨hR, rfl⟩, except_error_bind]

variable {R P : Point} (hR : decompress Config.curve (s.b a) = some R)

include hR

theorem blindOperands_of_key_none (hP : decompress Config.curve (s.b b) = none) :
    blindOperands a b s = .error (.invalidPoint .rb) := by
  rw [blindOperands, needUserIdle, hu]
  dsimp only
  rw [except_ok_bind, message_ok.2 ⟨hm, rfl⟩, except_ok_bind, pointOperand_ok.2 hR, except_ok_bind,
    pointOperand_error.2 ⟨hP, rfl⟩, except_error_bind]

theorem blindOperands_of_points (hP : decompress Config.curve (s.b b) = some P) :
    blindOperands a b s = .ok (msgBytes s.msg s.mlen.toNat, R, P) :=
  blindOperands_ok.2 ⟨hu, message_ok.2 ⟨hm, rfl⟩, hR, hP⟩

end Blind

section BlindDraws

variable {s : State} {d a b : RegNum} {operands : List Byte × Point × Point} {rest : List PortAnswer}
  (ho : blindOperands a b s = .ok operands) (hb : s.blindA = none)

include ho hb

theorem exec_bblind_of_first_fail (he : s.entropy = .fail :: rest) :
    exec (.bblind d a b) s = .next (abort .invalidScalarSource { s with entropy := rest }) := by
  simp only [exec, execBblind, ho, drawBlindA, hb, draw, he, finish]

theorem exec_bblind_of_second_fail {va : Draw} (he : s.entropy = .value va :: .fail :: rest) :
    exec (.bblind d a b) s = .next (abort .invalidScalarSource { s with entropy := rest }) := by
  simp only [exec, execBblind, ho, drawBlindA, hb, draw, he, finish]

end BlindDraws

/-- The blinded commitment is live, and its class is that of R142. -/
theorem blindedCommitment_class {R P : Point} (lR : R.live Config.curve) (lP : P.live Config.curve) (va vb : Draw) :
    (blindedCommitment R P va vb).live Config.curve ∧ (blindedCommitment R P va vb).affine =
      affineAdd Config.curve
        (affineAdd Config.curve R.affine (affineTimes Config.curve va.val Config.curve.base))
        (affineTimes Config.curve vb.val P.affine) := by
  obtain ⟨la, ca⟩ := base_mul (draw_lt va)
  obtain ⟨lb, cb⟩ := pointMul_class curve_nonSquare lP vb.val (draw_lt vb)
  obtain ⟨lRa, cRa⟩ := pointAdd_class curve_nonSquare lR la
  obtain ⟨live, cls⟩ := pointAdd_class curve_nonSquare lRa lb
  exact ⟨live, by rw [blindedCommitment, cls, cRa, ca, cb]⟩

/-- Settles O50: the draws by `bblind_completes` and the two failures, the commitment by `blindedCommitment_class`. -/
theorem blindResult : Obligations.BlindResult := by
  intro s d a b R P hu hm hR hP
  have ho := blindOperands_of_points hu hm hR hP
  refine ⟨fun va vb rest hb he => ?_, fun rest hb => exec_bblind_of_first_fail ho hb,
    fun va rest hb => exec_bblind_of_second_fail ho hb⟩
  obtain ⟨live, cls⟩ := blindedCommitment_class (decompress_some curve_nonSquare hR).1
    (decompress_some curve_nonSquare hP).1 va vb
  exact ⟨_, _, live, cls, enc32_toNat (mod_q_lt _), bblind_completes ho hb he⟩

/-- Settles O51: each check's error is that of `blindOperands`, on the state before any draw (`exec_bblind_of_error`). -/
theorem blindErrors : Obligations.BlindErrors := by
  intro s d a b
  refine ⟨exec_bblind_of_not_idle d a b, fun hu hm => ?_, fun hu hm hR => ?_, fun R hu hm hR hP => ?_⟩
  · exact exec_bblind_of_error d (blindOperands_of_long hu hm)
  · exact exec_bblind_of_error d (blindOperands_of_commitment_none hu hm hR)
  · exact exec_bblind_of_error d (blindOperands_of_key_none hu hm hR hP)

/-! ### `BSIGN` (R143) -/

section Sign

variable {s : State} {d a : RegNum} {ik : Draw} {ir : Point} (hi : s.issuer = .commit ik ir)

include hi

theorem exec_bsign_of_commit {k : KeyPair} (hk : s.key = .holds k) :
    exec (.bsign d a) s = .next (complete ((s.setIssuer (.signed ir)).setB d
      (enc32 ((ik.val + le (s.b a) % Config.q * k.kx.toNat) % Config.q)))) := by
  rw [exec, execBsign, needCommit_ok.2 hi, except_ok_bind]
  dsimp only
  rw [readKey, readReg_bind_of_holds hk]
  rfl

theorem exec_bsign_of_no_key (hk : s.key = .invalid) :
    exec (.bsign d a) s = .next (abort (.uninitRegister .keyContext) s) := by
  rw [exec, execBsign, needCommit_ok.2 hi, except_ok_bind]
  exact finish_readReg_of_invalid hk _

end Sign

/-- Settles O52: the number of the signature loses no bit, being below `q`. -/
theorem blindSignResult : Obligations.BlindSignResult :=
  fun _ _ _ _ _ hi => ⟨fun _ hk => ⟨_, enc32_toNat (mod_q_lt _), exec_bsign_of_commit hi hk⟩, exec_bsign_of_no_key hi⟩

/-! ### The protocol (R146) -/

/-- A point whose compression is that of a multiple of `G` is of its class. -/
theorem class_of_compressed_multiple {b : Bytes32} {P : Point} {n : Nat} (hn : n < 2 ^ 256)
    (hP : decompress Config.curve b = some P)
    (hb : b = compressAffine (affineTimes Config.curve n Config.curve.base)) :
    P.affine = affineTimes Config.curve n Config.curve.base := by
  obtain ⟨live, cls⟩ := base_mul hn
  obtain ⟨lP, cP⟩ := decompress_some curve_nonSquare hP
  rw [← cls]
  refine (compress_inj curve_nonSquare lP live).1 ?_
  rw [cP, hb, compress_base_mul hn]

/-- What the four commands compute is accepted: `R` and `P` the points of the commitment and the key, `ik` the nonce, `va`
and `vb` the draws of the user, `e` and `r` the numbers carried between the cores. -/
theorem accepts_blind {R P : Point} {m : List Byte} {pk : Bytes32} {k : KeyPair} (ik va vb : Draw) (e r : Nat)
    (hR : R.live Config.curve) (hcR : R.affine = affineTimes Config.curve ik.val Config.curve.base)
    (hpk : decompress Config.curve pk = some P)
    (hcP : P.affine = affineTimes Config.curve k.kx.toNat Config.curve.base)
    (he : e = (fqAdd (hashToScalar (compress (blindedCommitment R P va vb)) m) vb.toFq).val)
    (hr : r = (ik.val + e % Config.q * k.kx.toNat) % Config.q) :
    accepts pk (compress (blindedCommitment R P va vb)) (enc32 ((r % Config.q + va.val) % Config.q)) m = true := by
  obtain ⟨lP, cP⟩ := decompress_some curve_nonSquare hpk
  obtain ⟨live, cls⟩ := blindedCommitment_class hR lP va vb
  rw [← cP]
  refine accepts_of_equation lP live ?_
  rw [cls, hcR, hcP, enc32_toNat (mod_q_lt _)]
  exact blind_equation ik va vb _ _ e _ he (by rw [hr])

/-- Settles O54: the four completed commands give the numbers of `accepts_blind` (`bcommit_effect`, `bblind_effect`,
`bsign_effect`, `bunblind_effect`), none of which loses a bit on its way between the cores. -/
theorem blindProtocolAccepted : Obligations.BlindProtocolAccepted := by
  intro i0 i1 i2 i3 u0 u1 u2 u3 v k cd bd ba bb sd sa ud ua pk sg hi0 hcommit hi1 hi1rc hu0 hba hbb hblind hu1 hu1rc
    hissuer hkey hsa hsign hi3rc huser hua hud hunblind hu3rc hsg hvpk hvsg hvsg' hklen hslen hmlen hmsg
  obtain ⟨_, committed, rfl⟩ := effect_of_done hcommit hi0 hi1 hi1rc
  obtain ⟨ik, issuer, commitment⟩ := bcommit_effect committed
  obtain ⟨_, blinded, rfl⟩ := effect_of_done hblind hu0 hu1 hu1rc
  obtain ⟨m, R, P, va, vb, hm, hR, hP, user, challenge⟩ := bblind_effect blinded
  obtain ⟨_, signed, rfl⟩ := effect_of_ok hsign rfl hi3rc
  obtain ⟨ik', ir, k', issuer', key', answer⟩ := bsign_effect signed
  obtain ⟨_, unblinded, rfl⟩ := effect_of_ok hunblind rfl hu3rc
  obtain ⟨va', urp, user', second, first⟩ := bunblind_effect unblinded
  obtain ⟨hlen, hbytes⟩ := message_ok.1 hm
  obtain ⟨rfl, -⟩ := IssuerSession.commit.inj (issuer.symm.trans (hissuer.symm.trans issuer'))
  obtain rfl := Reg.holds.inj (hkey.symm.trans key')
  obtain ⟨rfl, rfl⟩ := UserSession.blinded.inj (user.symm.trans (huser.symm.trans user'))
  have classR := class_of_compressed_multiple (draw_lt ik) hR
    (hba.trans (commitment.trans (compress_base_mul (draw_lt ik))))
  have classP := class_of_compressed_multiple k.kx.isLt hP hbb
  refine ⟨_, verify_completes hsg hklen hslen (by rwa [hmlen]), rfl, ?_⟩
  rw [complete_validFlag, State.setValid_validFlag, hvpk, hvsg, hvsg', hmsg, hmlen, hbytes,
    complete_b, complete_b, first (pairHigh_ne ud), second]
  refine accepts_blind ik va vb (le (i2.b sa)) (le (u2.b ua)) (decompress_some curve_nonSquare hR).1 classR hP classP ?_ ?_
  · rw [hsa, complete_b, challenge]
    exact enc32_toNat (fq_lt _)
  · rw [hua, complete_b, answer]
    exact enc32_toNat (mod_q_lt _)

end Sys2Proof.Machine
end
